-- ==== Sys2Proof/Word.lean ====
section
/-! DEFINITION. The two word types of the block (00_scope.md R16, R17): the byte and the 32-bit bus word. -/

namespace Sys2Proof

/-- A byte: an 8-bit unsigned value (R16). -/
abbrev Byte := BitVec 8

/-- A word: 32 bits, bit 0 the least significant (R17). -/
abbrev Word := BitVec 32

end Sys2Proof
end

