-- ==== Sys2Proof/Machine/Bytes.lean ====
section
/-! DEFINITION. Byte strings (00_scope.md R16, R17) and the byte order of bus words (20_memory.md R109). -/

namespace Sys2Proof.Machine

/-- `be32` of R17: four bytes as a word, the first in bits [31:24]. -/
def be32 (b0 b1 b2 b3 : Byte) : Word := b0 ++ b1 ++ b2 ++ b3

/-- `bytes_be32` of R17, the inverse of `be32`. -/
def bytesBe32 (w : Word) : List Byte :=
  [w.extractLsb' 24 8, w.extractLsb' 16 8, w.extractLsb' 8 8, w.extractLsb' 0 8]

/-- The byte string held by words in index order (R109). -/
def bytesOfWords (ws : List Word) : List Byte := ws.flatMap bytesBe32

/-- The `n` words that hold a byte string of `4 n` bytes (R109). -/
def wordsOfBytes (n : Nat) (bs : List Byte) : Vector Word n :=
  Vector.ofFn fun i : Fin n =>
    be32 (bs.getD (4 * i.val) 0) (bs.getD (4 * i.val + 1) 0)
      (bs.getD (4 * i.val + 2) 0) (bs.getD (4 * i.val + 3) 0)

/-- `bytes(n, v)` of R16. -/
def bytesN (n : Nat) (v : Byte) : List Byte := List.replicate n v

/-- `zeros(n)` of R16. -/
def zeros (n : Nat) : List Byte := bytesN n 0

/-- Bytewise exclusive-or of equal-length byte strings (R20). -/
def xorBytes (a b : List Byte) : List Byte := List.zipWith (· ^^^ ·) a b

/-- The first `k` pieces of `n` bytes of a byte string, in order. -/
def chunks (n : Nat) : Nat → List Byte → List (List Byte)
  | 0, _ => []
  | k + 1, bs => bs.take n :: chunks n k (bs.drop n)

end Sys2Proof.Machine
end

