-- ==== Sys2Proof/Machine/Aes.lean ====
section
/-! DEFINITION. AES-256 (40_datapath.md R200 to R209): the field, the S-boxes, the round transforms, the key expansion, the cipher and its inverse. -/

namespace Sys2Proof.Machine

/-- `xtime` of R202: multiplication by x modulo 0x11B. -/
def xtime (a : Byte) : Byte :=
  (a <<< 1) ^^^ (if a.getLsbD 7 then 0x1B#8 else 0#8)

/-- The low `n` bits of `b` as a sum of `xtime` powers of `a`. -/
def gfMulBits : Nat → Byte → Byte → Byte
  | 0, _, _ => 0
  | n + 1, a, b => (if b.getLsbD 0 then a else 0) ^^^ gfMulBits n (xtime a) (b >>> 1)

/-- `a • b` of R202: the XOR of `xtime^i(a)` over the set bits i of `b`. -/
def gfMul (a b : Byte) : Byte := gfMulBits 8 a b

/-- The table of R203, one row for each high nibble. -/
def sboxRows : List (List Byte) :=
  [[0x63, 0x7c, 0x77, 0x7b, 0xf2, 0x6b, 0x6f, 0xc5, 0x30, 0x01, 0x67, 0x2b, 0xfe, 0xd7, 0xab, 0x76],
   [0xca, 0x82, 0xc9, 0x7d, 0xfa, 0x59, 0x47, 0xf0, 0xad, 0xd4, 0xa2, 0xaf, 0x9c, 0xa4, 0x72, 0xc0],
   [0xb7, 0xfd, 0x93, 0x26, 0x36, 0x3f, 0xf7, 0xcc, 0x34, 0xa5, 0xe5, 0xf1, 0x71, 0xd8, 0x31, 0x15],
   [0x04, 0xc7, 0x23, 0xc3, 0x18, 0x96, 0x05, 0x9a, 0x07, 0x12, 0x80, 0xe2, 0xeb, 0x27, 0xb2, 0x75],
   [0x09, 0x83, 0x2c, 0x1a, 0x1b, 0x6e, 0x5a, 0xa0, 0x52, 0x3b, 0xd6, 0xb3, 0x29, 0xe3, 0x2f, 0x84],
   [0x53, 0xd1, 0x00, 0xed, 0x20, 0xfc, 0xb1, 0x5b, 0x6a, 0xcb, 0xbe, 0x39, 0x4a, 0x4c, 0x58, 0xcf],
   [0xd0, 0xef, 0xaa, 0xfb, 0x43, 0x4d, 0x33, 0x85, 0x45, 0xf9, 0x02, 0x7f, 0x50, 0x3c, 0x9f, 0xa8],
   [0x51, 0xa3, 0x40, 0x8f, 0x92, 0x9d, 0x38, 0xf5, 0xbc, 0xb6, 0xda, 0x21, 0x10, 0xff, 0xf3, 0xd2],
   [0xcd, 0x0c, 0x13, 0xec, 0x5f, 0x97, 0x44, 0x17, 0xc4, 0xa7, 0x7e, 0x3d, 0x64, 0x5d, 0x19, 0x73],
   [0x60, 0x81, 0x4f, 0xdc, 0x22, 0x2a, 0x90, 0x88, 0x46, 0xee, 0xb8, 0x14, 0xde, 0x5e, 0x0b, 0xdb],
   [0xe0, 0x32, 0x3a, 0x0a, 0x49, 0x06, 0x24, 0x5c, 0xc2, 0xd3, 0xac, 0x62, 0x91, 0x95, 0xe4, 0x79],
   [0xe7, 0xc8, 0x37, 0x6d, 0x8d, 0xd5, 0x4e, 0xa9, 0x6c, 0x56, 0xf4, 0xea, 0x65, 0x7a, 0xae, 0x08],
   [0xba, 0x78, 0x25, 0x2e, 0x1c, 0xa6, 0xb4, 0xc6, 0xe8, 0xdd, 0x74, 0x1f, 0x4b, 0xbd, 0x8b, 0x8a],
   [0x70, 0x3e, 0xb5, 0x66, 0x48, 0x03, 0xf6, 0x0e, 0x61, 0x35, 0x57, 0xb9, 0x86, 0xc1, 0x1d, 0x9e],
   [0xe1, 0xf8, 0x98, 0x11, 0x69, 0xd9, 0x8e, 0x94, 0x9b, 0x1e, 0x87, 0xe9, 0xce, 0x55, 0x28, 0xdf],
   [0x8c, 0xa1, 0x89, 0x0d, 0xbf, 0xe6, 0x42, 0x68, 0x41, 0x99, 0x2d, 0x0f, 0xb0, 0x54, 0xbb, 0x16]]

/-- The table of R204, one row for each high nibble. -/
def invSboxRows : List (List Byte) :=
  [[0x52, 0x09, 0x6a, 0xd5, 0x30, 0x36, 0xa5, 0x38, 0xbf, 0x40, 0xa3, 0x9e, 0x81, 0xf3, 0xd7, 0xfb],
   [0x7c, 0xe3, 0x39, 0x82, 0x9b, 0x2f, 0xff, 0x87, 0x34, 0x8e, 0x43, 0x44, 0xc4, 0xde, 0xe9, 0xcb],
   [0x54, 0x7b, 0x94, 0x32, 0xa6, 0xc2, 0x23, 0x3d, 0xee, 0x4c, 0x95, 0x0b, 0x42, 0xfa, 0xc3, 0x4e],
   [0x08, 0x2e, 0xa1, 0x66, 0x28, 0xd9, 0x24, 0xb2, 0x76, 0x5b, 0xa2, 0x49, 0x6d, 0x8b, 0xd1, 0x25],
   [0x72, 0xf8, 0xf6, 0x64, 0x86, 0x68, 0x98, 0x16, 0xd4, 0xa4, 0x5c, 0xcc, 0x5d, 0x65, 0xb6, 0x92],
   [0x6c, 0x70, 0x48, 0x50, 0xfd, 0xed, 0xb9, 0xda, 0x5e, 0x15, 0x46, 0x57, 0xa7, 0x8d, 0x9d, 0x84],
   [0x90, 0xd8, 0xab, 0x00, 0x8c, 0xbc, 0xd3, 0x0a, 0xf7, 0xe4, 0x58, 0x05, 0xb8, 0xb3, 0x45, 0x06],
   [0xd0, 0x2c, 0x1e, 0x8f, 0xca, 0x3f, 0x0f, 0x02, 0xc1, 0xaf, 0xbd, 0x03, 0x01, 0x13, 0x8a, 0x6b],
   [0x3a, 0x91, 0x11, 0x41, 0x4f, 0x67, 0xdc, 0xea, 0x97, 0xf2, 0xcf, 0xce, 0xf0, 0xb4, 0xe6, 0x73],
   [0x96, 0xac, 0x74, 0x22, 0xe7, 0xad, 0x35, 0x85, 0xe2, 0xf9, 0x37, 0xe8, 0x1c, 0x75, 0xdf, 0x6e],
   [0x47, 0xf1, 0x1a, 0x71, 0x1d, 0x29, 0xc5, 0x89, 0x6f, 0xb7, 0x62, 0x0e, 0xaa, 0x18, 0xbe, 0x1b],
   [0xfc, 0x56, 0x3e, 0x4b, 0xc6, 0xd2, 0x79, 0x20, 0x9a, 0xdb, 0xc0, 0xfe, 0x78, 0xcd, 0x5a, 0xf4],
   [0x1f, 0xdd, 0xa8, 0x33, 0x88, 0x07, 0xc7, 0x31, 0xb1, 0x12, 0x10, 0x59, 0x27, 0x80, 0xec, 0x5f],
   [0x60, 0x51, 0x7f, 0xa9, 0x19, 0xb5, 0x4a, 0x0d, 0x2d, 0xe5, 0x7a, 0x9f, 0x93, 0xc9, 0x9c, 0xef],
   [0xa0, 0xe0, 0x3b, 0x4d, 0xae, 0x2a, 0xf5, 0xb0, 0xc8, 0xeb, 0xbb, 0x3c, 0x83, 0x53, 0x99, 0x61],
   [0x17, 0x2b, 0x04, 0x7e, 0xba, 0x77, 0xd6, 0x26, 0xe1, 0x69, 0x14, 0x63, 0x55, 0x21, 0x0c, 0x7d]]

/-- The entry of a table of R203 or R204: row by the high nibble, column by the low nibble. -/
def tableEntry (rows : List (List Byte)) (x : Byte) : Byte :=
  (rows.getD (x.toNat / 16) []).getD (x.toNat % 16) 0

/-- SBOX of R203. -/
def sbox (x : Byte) : Byte := tableEntry sboxRows x

/-- INV_SBOX of R204. -/
def invSbox (x : Byte) : Byte := tableEntry invSboxRows x

/-- A column of the cipher state, or a 4-byte word of the key schedule: rows 0 to 3 (R201, R207). -/
structure Column where
  r0 : Byte
  r1 : Byte
  r2 : Byte
  r3 : Byte
  deriving DecidableEq, Repr

/-- The cipher state `s[r][c]`, column by column (R201). -/
structure Block where
  c0 : Column
  c1 : Column
  c2 : Column
  c3 : Column
  deriving DecidableEq, Repr

/-- A function applied to each byte of a column. -/
def Column.map (f : Byte → Byte) (x : Column) : Column := ⟨f x.r0, f x.r1, f x.r2, f x.r3⟩

/-- Bytewise exclusive-or of columns. -/
def Column.xor (x y : Column) : Column :=
  ⟨x.r0 ^^^ y.r0, x.r1 ^^^ y.r1, x.r2 ^^^ y.r2, x.r3 ^^^ y.r3⟩

/-- A function applied to each column. -/
def Block.map (f : Column → Column) (x : Block) : Block := ⟨f x.c0, f x.c1, f x.c2, f x.c3⟩

/-- Bytewise exclusive-or of blocks. -/
def Block.xor (x y : Block) : Block :=
  ⟨x.c0.xor y.c0, x.c1.xor y.c1, x.c2.xor y.c2, x.c3.xor y.c3⟩

/-- The column that holds bytes i to i + 3 of a byte string. -/
def columnAt (bs : List Byte) (i : Nat) : Column :=
  ⟨bs.getD i 0, bs.getD (i + 1) 0, bs.getD (i + 2) 0, bs.getD (i + 3) 0⟩

/-- Loading a 16-byte block: `s[r][c] = b[r + 4c]` (R201). -/
def blockOfBytes (bs : List Byte) : Block :=
  ⟨columnAt bs 0, columnAt bs 4, columnAt bs 8, columnAt bs 12⟩

/-- The bytes of a column, row 0 first. -/
def Column.bytes (x : Column) : List Byte := [x.r0, x.r1, x.r2, x.r3]

/-- Reading a block out: `out[r + 4c] = s[r][c]` (R201). -/
def Block.bytes (x : Block) : List Byte := x.c0.bytes ++ x.c1.bytes ++ x.c2.bytes ++ x.c3.bytes

/-- SubBytes (R205). -/
def subBytes (x : Block) : Block := x.map (Column.map sbox)

/-- InvSubBytes (R205). -/
def invSubBytes (x : Block) : Block := x.map (Column.map invSbox)

/-- ShiftRows: `s'[r][c] = s[r][(c + r) mod 4]` (R205). -/
def shiftRows (x : Block) : Block :=
  ⟨⟨x.c0.r0, x.c1.r1, x.c2.r2, x.c3.r3⟩, ⟨x.c1.r0, x.c2.r1, x.c3.r2, x.c0.r3⟩,
   ⟨x.c2.r0, x.c3.r1, x.c0.r2, x.c1.r3⟩, ⟨x.c3.r0, x.c0.r1, x.c1.r2, x.c2.r3⟩⟩

/-- InvShiftRows: `s'[r][c] = s[r][(c - r) mod 4]` (R205). -/
def invShiftRows (x : Block) : Block :=
  ⟨⟨x.c0.r0, x.c3.r1, x.c2.r2, x.c1.r3⟩, ⟨x.c1.r0, x.c0.r1, x.c3.r2, x.c2.r3⟩,
   ⟨x.c2.r0, x.c1.r1, x.c0.r2, x.c3.r3⟩, ⟨x.c3.r0, x.c2.r1, x.c1.r2, x.c0.r3⟩⟩

/-- MixColumns on one column (R206). The product is commutative, so `2 • a` is `gfMul a 2`. -/
def mixColumn (x : Column) : Column :=
  ⟨gfMul x.r0 0x02 ^^^ gfMul x.r1 0x03 ^^^ x.r2 ^^^ x.r3,
   x.r0 ^^^ gfMul x.r1 0x02 ^^^ gfMul x.r2 0x03 ^^^ x.r3,
   x.r0 ^^^ x.r1 ^^^ gfMul x.r2 0x02 ^^^ gfMul x.r3 0x03,
   gfMul x.r0 0x03 ^^^ x.r1 ^^^ x.r2 ^^^ gfMul x.r3 0x02⟩

/-- Row `a` of InvMixColumns, the other rows following it in order (R206). -/
def invMixRow (a b c d : Byte) : Byte :=
  gfMul a 0x0e ^^^ gfMul b 0x0b ^^^ gfMul c 0x0d ^^^ gfMul d 0x09

/-- InvMixColumns on one column (R206). -/
def invMixColumn (x : Column) : Column :=
  ⟨invMixRow x.r0 x.r1 x.r2 x.r3, invMixRow x.r1 x.r2 x.r3 x.r0,
   invMixRow x.r2 x.r3 x.r0 x.r1, invMixRow x.r3 x.r0 x.r1 x.r2⟩

/-- MixColumns (R206). -/
def mixColumns (x : Block) : Block := x.map mixColumn

/-- InvMixColumns (R206). -/
def invMixColumns (x : Block) : Block := x.map invMixColumn

/-- RotWord (R207). -/
def rotWord (x : Column) : Column := ⟨x.r1, x.r2, x.r3, x.r0⟩

/-- SubWord (R207). -/
def subWord (x : Column) : Column := x.map sbox

/-- `RC[j + 1]`: RC[1] = 1 and RC[j] = xtime(RC[j - 1]) (R207). -/
def roundConstant : Nat → Byte
  | 0 => 0x01
  | j + 1 => xtime (roundConstant j)

/-- The word `t` of step `i` of the key expansion, from `w[i - 1]` (R207). -/
def keyMix (i : Nat) (prev : Column) : Column :=
  if i % 8 = 0 then (subWord (rotWord prev)).xor ⟨roundConstant (i / 8 - 1), 0, 0, 0⟩
  else if i % 8 = 4 then subWord prev
  else prev

/-- Step `i` of the key expansion on the words built so far, the newest first:
`w[i] = w[i - 8] ⊕ t` (R207). -/
def expandStep (acc : List Column) (i : Nat) : List Column :=
  (acc.getD 7 ⟨0, 0, 0, 0⟩).xor (keyMix i (acc.getD 0 ⟨0, 0, 0, 0⟩)) :: acc

/-- The words w[0] to w[7], the newest first (R207). -/
def initialKeyWords (key : List Byte) : List Column :=
  ((List.range 8).map fun i => columnAt key (4 * i)).reverse

/-- The key expansion: the words w[0] to w[59] (R207). -/
def expandKey (key : List Byte) : List Column :=
  ((List.range' 8 52).foldl expandStep (initialKeyWords key)).reverse

/-- Four words at a time, as blocks. -/
def groupColumns : List Column → List Block
  | a :: b :: c :: d :: rest => ⟨a, b, c, d⟩ :: groupColumns rest
  | _ => []

/-- The fifteen round keys: round key `rd` is w[4 rd] to w[4 rd + 3] (R207). -/
def keySchedule (key : List Byte) : List Block := groupColumns (expandKey key)

/-- AddRoundKey(rd) (R207). -/
def addRoundKey (ks : List Block) (rd : Nat) (x : Block) : Block :=
  x.xor (ks.getD rd ⟨⟨0, 0, 0, 0⟩, ⟨0, 0, 0, 0⟩, ⟨0, 0, 0, 0⟩, ⟨0, 0, 0, 0⟩⟩)

/-- Round `rd` of the cipher, 1 ≤ rd ≤ 13 (R208). -/
def encRound (ks : List Block) (x : Block) (rd : Nat) : Block :=
  addRoundKey ks rd (mixColumns (shiftRows (subBytes x)))

/-- Round `rd` of the inverse cipher, 13 ≥ rd ≥ 1 (R209). -/
def decRound (ks : List Block) (x : Block) (rd : Nat) : Block :=
  invMixColumns (addRoundKey ks rd (invSubBytes (invShiftRows x)))

/-- The cipher under a key schedule (R208). -/
def encBlock (ks : List Block) (x : Block) : Block :=
  addRoundKey ks 14
    (shiftRows (subBytes ((List.range' 1 13).foldl (encRound ks) (addRoundKey ks 0 x))))

/-- The inverse cipher under a key schedule (R209). -/
def decBlock (ks : List Block) (x : Block) : Block :=
  addRoundKey ks 0
    (invSubBytes (invShiftRows ((List.range' 1 13).reverse.foldl (decRound ks) (addRoundKey ks 14 x))))

/-- `AES256_Enc(k, b)` on byte strings (R208). -/
def aes256Enc (k b : List Byte) : List Byte := (encBlock (keySchedule k) (blockOfBytes b)).bytes

/-- `AES256_Dec(k, b)` on byte strings (R209). -/
def aes256Dec (k b : List Byte) : List Byte := (decBlock (keySchedule k) (blockOfBytes b)).bytes

end Sys2Proof.Machine
end

