-- ==== Sys2Proof/Machine/Cbc.lean ====
section
/-! DEFINITION. CBC mode (40_datapath.md R210, R211) and the padding arbiter (R212 to R217). -/

namespace Sys2Proof.Machine

/-- The blocks of a byte string whose length is a multiple of 16. -/
def blocksOf (bs : List Byte) : List Block := (chunks 16 (bs.length / 16) bs).map blockOfBytes

/-- The byte string of a list of blocks. -/
def bytesOfBlocks (xs : List Block) : List Byte := xs.flatMap Block.bytes

/-- `C_i = AES256_Enc(k, P_i ⊕ C_{i-1})`, from the block before the first (R210). -/
def cbcEncBlocks (ks : List Block) : Block → List Block → List Block
  | _, [] => []
  | prev, p :: ps => encBlock ks (p.xor prev) :: cbcEncBlocks ks (encBlock ks (p.xor prev)) ps

/-- `P_i = AES256_Dec(k, C_i) ⊕ C_{i-1}`, from the block before the first (R211). -/
def cbcDecBlocks (ks : List Block) : Block → List Block → List Block
  | _, [] => []
  | prev, c :: cs => (decBlock ks c).xor prev :: cbcDecBlocks ks c cs

/-- `CBC_Enc(k, iv, p)` (R210). -/
def cbcEnc (k iv p : List Byte) : List Byte :=
  bytesOfBlocks (cbcEncBlocks (keySchedule k) (blockOfBytes iv) (blocksOf p))

/-- `CBC_Dec(k, iv, c)` (R211). -/
def cbcDec (k iv c : List Byte) : List Byte :=
  bytesOfBlocks (cbcDecBlocks (keySchedule k) (blockOfBytes iv) (blocksOf c))

/-- `Pkcs7(pt)`: p = 16 - (len(pt) mod 16) bytes of value p (R213). -/
def pkcs7 (pt : List Byte) : List Byte :=
  pt ++ bytesN (16 - pt.length % 16) (BitVec.ofNat 8 (16 - pt.length % 16))

/-- `FixedPadBlock()` (R214). -/
def fixedPadBlock : List Byte := bytesN 16 0x10

/-- `PadInput(pt)` (R212). -/
def padInput (pt : List Byte) : List Byte := if pt.length = 0 then fixedPadBlock else pkcs7 pt

/-- One byte of the padding check: byte `j` of the last block is outside the last `p` bytes, or equals the last
byte. -/
def padByteOk (p : Byte) (j : Nat) (b : Byte) : Bool := decide (j + p.toNat < 16) || b == p

/-- The padding verdict as a fold over all 16 bytes of the last block, with no early exit (R216, R217). -/
def padVerdict (x : List Byte) : Bool :=
  let p := x.getD (x.length - 1) 0
  ((x.drop (x.length - 16)).zipIdx.foldl (fun ok bj => ok && padByteOk p bj.2 bj.1)
    (decide (1 ≤ p.toNat) && decide (p.toNat ≤ 16)))

/-- `Unpad(x)`: the verdict, and the bytes without the padding, or none of them (R216). -/
def unpad (x : List Byte) : Bool × List Byte :=
  if padVerdict x then (true, x.take (x.length - (x.getD (x.length - 1) 0).toNat)) else (false, [])

end Sys2Proof.Machine
end

