-- ==== Sys2Proof/Syntax.lean ====
section
/-! DEFINITION. The commands of RNC3E, the block's only instructions: one constructor per row of spec/opcode_table.json. -/

namespace Sys2Proof

/-- The commands of the opcode map (30_encoding.md R142). No command has an explicit operand (R145).
`illegal` is the table's last row, every word that no other row matches (R143, R144), with the two
fields of that row. -/
inductive Instr where
  /-- Encrypt and format a password-mode message (R301). -/
  | encp
  /-- Encrypt and format a key-based message (R302). -/
  | enck
  /-- Parse a password-mode message (R401). -/
  | parsep
  /-- Parse a key-based message (R402). -/
  | parsek
  /-- Decrypt and verify the parsed message (R405). -/
  | dec
  /-- Constant-time compare of two 32-byte strings (R500). -/
  | tagcmp
  /-- Scrub all secret and message state (R501). -/
  | zeroize
  /-- An illegal command word, with its OP and RSV fields (R502). -/
  | illegal (op : BitVec 4) (rsv : BitVec 28)
  deriving DecidableEq, Repr

end Sys2Proof
end

