-- ==== Sys2Proof/WellFormed.lean ====
section
/-! DEFINITION. Which terms of `Instr` stand for a command word: all but an `illegal` whose fields are those of a legal word (30_encoding.md R143). -/

namespace Sys2Proof

/-- A pair of fields is legal iff RSV = 0 and 1 ≤ OP ≤ 7 (R143). -/
def legalFields (op : BitVec 4) (rsv : BitVec 28) : Bool :=
  rsv == 0 && decide (1 ≤ op.toNat) && decide (op.toNat ≤ 7)

/-- An `illegal` term is well formed iff its fields are not those of a legal word. Every other term is. -/
def Instr.wellFormed : Instr → Bool
  | .encp => true
  | .enck => true
  | .parsep => true
  | .parsek => true
  | .dec => true
  | .tagcmp => true
  | .zeroize => true
  | .illegal op rsv => !legalFields op rsv

end Sys2Proof
end

