-- ==== Sys2Proof/Decode.lean ====
section
/-! DEFINITION. The decoder of command words (30_encoding.md R141 to R144), total on every 32-bit word, and the encoder. -/

namespace Sys2Proof

/-- OP = bits [3:0] of the command word (R141). -/
def opField (w : Word) : BitVec 4 := w.extractLsb' 0 4

/-- RSV = bits [31:4] of the command word (R141). -/
def rsvField (w : Word) : BitVec 28 := w.extractLsb' 4 28

/-- The decoder of R143: any word with RSV ≠ 0, or with OP 0 or 8 to 15, is `illegal`. -/
def decode (w : Word) : Instr :=
  if rsvField w ≠ 0 then .illegal (opField w) (rsvField w)
  else
    match (opField w).toNat with
    | 1 => .encp
    | 2 => .enck
    | 3 => .parsep
    | 4 => .parsek
    | 5 => .dec
    | 6 => .tagcmp
    | 7 => .zeroize
    | _ => .illegal (opField w) (rsvField w)

/-- The command word of an instruction (R142). -/
def encode : Instr → Word
  | .encp => 0x00000001#32
  | .enck => 0x00000002#32
  | .parsep => 0x00000003#32
  | .parsek => 0x00000004#32
  | .dec => 0x00000005#32
  | .tagcmp => 0x00000006#32
  | .zeroize => 0x00000007#32
  | .illegal op rsv => rsv ++ op

/-- Why a string of bits is no command word. -/
inductive DecodeRefusal where
  /-- More than the 32 bits of the only format (R140). -/
  | longerThanOneWord (nbits : Nat)
  deriving DecidableEq, Repr

/-- The decoder on a string of `nbits` bits given as a number, bit 0 least significant. A command is one
32-bit word and no longer form exists (R140); missing high bits are 0. -/
def decodeBits (nbits w : Nat) : Except DecodeRefusal Instr :=
  if nbits ≤ 32 then .ok (decode (BitVec.ofNat 32 (w % 2 ^ nbits)))
  else .error (.longerThanOneWord nbits)

/-- What the decoder reads from the instruction whose bits are `w` (the numbering of
spec/opcode_table.json); `none` where `decodeBits` refuses. -/
def decodeTableWord (nbits w : Nat) : Option Instr :=
  match decodeBits nbits w with
  | .ok i => some i
  | .error _ => none

end Sys2Proof
end

