-- ==== Sys2Proof/Config.lean ====
section
/-! DEFINITION. What an implementation of RNC3E fixes (00_scope.md R11 to R14): CMAX and the sizes derived from it, BASE, and the latency function. -/

namespace Sys2Proof

/-- CMAX as a number of cipher blocks less one. CMAX is a multiple of 16 with 16 ≤ CMAX ≤ 65456 (R11), and
65456 = 16 · 4091, so this type holds exactly the legal values. -/
abbrev CmaxBlocks := Fin 4091

/-- CMAX, the largest ciphertext length in bytes (R11). -/
def cmaxOf (b : CmaxBlocks) : Nat := 16 * (b.val + 1)

/-- The CMAX of the spec's examples, 4096 (R11). DESIGN CHOICE (log 1): the parameter of the one reset state
`State.reset`; nothing else rests on it. -/
def exampleCmax : CmaxBlocks := 255

/-- PT_MAX, the largest plaintext (R12). -/
def ptMax (b : CmaxBlocks) : Nat := cmaxOf b - 1

/-- MSG_MAX_P, the largest password-mode message (R12). -/
def msgMaxP (b : CmaxBlocks) : Nat := cmaxOf b + 66

/-- MSG_MAX_K, the largest key-based message (R12). -/
def msgMaxK (b : CmaxBlocks) : Nat := cmaxOf b + 50

/-- MSG_WORDS, the 32-bit words of MSGBUF (R12). -/
def msgWords (b : CmaxBlocks) : Nat := (cmaxOf b + 68) / 4

/-- PT_WORDS, the 32-bit words of PTBUF (R12). -/
def ptWords (b : CmaxBlocks) : Nat := cmaxOf b / 4

/-- The platform's choice of BASE, in units of 0x40000 bytes (R13; log 2). -/
opaque Config.baseIndex : Nat

/-- BASE, aligned to 0x40000 by construction (R13). -/
def Config.base : Nat := 0x40000 * Config.baseIndex

/-- The bus address of an offset (R13). -/
def Config.busAddress (off : Nat) : Nat := Config.base + off

/-- All the data a command's latency may depend on (70_reset_and_hazards.md R713 to R717). No key, IV, salt,
ciphertext, tag or plaintext byte is in it. -/
inductive LatencyKey where
  /-- A command that ran in full: the command, the header mode and the length of R713. -/
  | full (cmd : Instr) (mode : Bool) (len : Nat)
  /-- A command that failed fast: the command word, the masks, the latch and the lengths (R717). -/
  | failFast (cmd : Instr) (mkEnc mkMac : BitVec 8) (mkIv : BitVec 4) (mkEsalt mkHsalt : BitVec 2)
      (parsed pmode : Bool) (ptLen msgLen : Word)
  deriving DecidableEq, Repr

/-- The implementation's own choice of latencies, before the bounds of R713 and R718 (log 3). -/
opaque Config.rawLatency : CmaxBlocks → LatencyKey → Nat

/-- The implementation's own choice of the latency bound (log 3). -/
opaque Config.rawLatencyBound : CmaxBlocks → Nat

/-- LATMAX(CMAX), a positive constant (R718). -/
def Config.latMax (b : CmaxBlocks) : Nat := Config.rawLatencyBound b + 1

/-- LAT: at least 1 and at most LATMAX(CMAX) by construction (R713, R718). -/
def Config.lat (b : CmaxBlocks) (k : LatencyKey) : Nat :=
  min (Config.rawLatency b k + 1) (Config.latMax b)

end Sys2Proof
end

