-- ==== Sys2Proof/Machine/State.lean ====
section
/-! DEFINITION. The state of the block, the record of 10_state.md R79, with the parameter CMAX and the host's coming events; why a step can stop; the state after reset. -/

namespace Sys2Proof.Machine

/-- The bytes of a buffer, as (index, byte) cells with rising indices; a byte that is not listed reads 0, which
is what reset leaves in both buffers (10_state.md R78). The form is `Memory.wf`. -/
abbrev Memory := List Host.Cell

/-- The result codes of 60_exceptions.md R603. Codes 9 to 15 are reserved and have no name. -/
inductive ResultCode where
  | ok
  | badCommand
  | sequence
  | notLoaded
  | length
  | insufficientInput
  | cipherFailed
  | tagMismatch
  /-- Defined, and raised by no command (R610). -/
  | tagComputationFailed
  deriving DecidableEq, Repr

/-- A bus transaction of the host (20_memory.md R100). `size` is its width in bytes and `off` its byte offset
from BASE. -/
inductive Transaction where
  | read (size off : Nat)
  | write (size off : Nat) (v : Word)
  deriving DecidableEq, Repr

/-- What can happen to the block next: the MODEL's way of holding the host's future and the schedule of the
engine (log 4). -/
inductive Event where
  /-- The host issues a transaction (R100). -/
  | bus (t : Transaction)
  /-- The engine's turn: the commit of the command in flight falls here (20_memory.md R120). -/
  | engineTurn
  /-- The platform's reset input is asserted and released (70_reset_and_hazards.md R700). -/
  | reset
  deriving DecidableEq, Repr

/-- The response to a transaction the block serves (20_memory.md R100). -/
inductive BusResponse where
  | data (v : Word)
  | ack
  deriving DecidableEq, Repr

/-- The state: the record of R79, field for field, then three fields of the model's own. -/
structure State where
  /-- STATUS.BUSY (R49). -/
  busy : Bool
  /-- STATUS.DONE (R50). -/
  done : Bool
  /-- STATUS.WBUSY (R54). -/
  wbusy : Bool
  /-- STATUS.OUT_VALID (R55). -/
  outValid : Bool
  /-- ERR_CODE.CODE (R56). -/
  errCode : BitVec 4
  /-- IRQ_EN.DONE_IE (R57). -/
  irqEn : Bool
  /-- PT_LEN (R59). -/
  ptLen : Word
  /-- MSG_LEN (R60). -/
  msgLen : Word
  /-- VERSION[7:0] (R61). -/
  version : Byte
  /-- OPTIONS[7:0] (R62). -/
  options : Byte
  /-- KEY_ENC[0..7] (R63). -/
  kEnc : Vector Word 8
  /-- KEY_MAC[0..7] (R64). -/
  kMac : Vector Word 8
  /-- IV[0..3] (R65). -/
  iv : Vector Word 4
  /-- ESALT[0..1] (R66). -/
  esalt : Vector Word 2
  /-- HSALT[0..1] (R67). -/
  hsalt : Vector Word 2
  /-- MK_KENC (R71). -/
  mkEnc : BitVec 8
  /-- MK_KMAC (R71). -/
  mkMac : BitVec 8
  /-- MK_IV (R71). -/
  mkIv : BitVec 4
  /-- MK_ESALT (R71). -/
  mkEsalt : BitVec 2
  /-- MK_HSALT (R71). -/
  mkHsalt : BitVec 2
  /-- The PARSED latch (R72). -/
  parsed : Bool
  /-- PMODE, true for password mode (R72). -/
  pmode : Bool
  /-- LATCHED_CMD, some word while BUSY (R73). -/
  latched : Option Word
  /-- MSGBUF, CMAX + 68 bytes by index (R69). -/
  msgbuf : Memory
  /-- PTBUF, CMAX bytes by index (R70). -/
  ptbuf : Memory
  /-- The implementation's CMAX (00_scope.md R11), a parameter that no step changes (log 1). -/
  cmaxBlocks : CmaxBlocks
  /-- The MODEL's own: the events still to come, first one first (log 4). -/
  inbox : List Event
  /-- The MODEL's own: the response to the latest transaction (log 11). -/
  busOut : Option BusResponse
  deriving DecidableEq, Repr

/-- Why the machine stops with a fault. -/
inductive Fault where
  /-- A transaction that is not 32 bits wide, misaligned, or at an unmapped offset ends in `bus_error`
  (20_memory.md R102, R103, R106). Raised by `transact` (log 5). Safe: the spec tells a model to treat the host
  program as faulted (R103), and no state follows. -/
  | busError (size off : Nat)
  /-- The engine's turn in a state that is BUSY with no LATCHED_CMD, which the invariant of R79 excludes.
  Raised by `step` only (log 6). Safe: no run from reset meets it, and nothing follows. -/
  | engineWithoutCommand
  deriving DecidableEq, Repr

/-- Why the machine refuses to give a meaning. -/
inductive Refusal where
  /-- An instruction with no meaning yet, by its mnemonic. Raised by `exec` only; no arm of `exec` raises it
  now. Safe: nothing follows. -/
  | notModelled (mnemonic : String)
  deriving DecidableEq, Repr

/-- CMAX of this implementation (R11). -/
def State.cmax (s : State) : Nat := cmaxOf s.cmaxBlocks

/-- The reset state of an implementation with the given CMAX: every value is the spec's (R78, R701). -/
def State.resetWith (b : CmaxBlocks) : State where
  busy := false
  done := false
  wbusy := false
  outValid := false
  errCode := 0
  irqEn := false
  ptLen := 0
  msgLen := 0
  version := 0
  options := 0
  kEnc := Vector.replicate 8 0
  kMac := Vector.replicate 8 0
  iv := Vector.replicate 4 0
  esalt := Vector.replicate 2 0
  hsalt := Vector.replicate 2 0
  mkEnc := 0
  mkMac := 0
  mkIv := 0
  mkEsalt := 0
  mkHsalt := 0
  parsed := false
  pmode := false
  latched := none
  msgbuf := []
  ptbuf := []
  cmaxBlocks := b
  inbox := []
  busOut := none

/-- The machine right after reset (R78), for the CMAX of the spec's examples (log 1). -/
def State.reset : State := State.resetWith exampleCmax

end Sys2Proof.Machine
end

