-- ==== Sys2Proof/Machine/Flags.lean ====
section
/-! DEFINITION. The flags of the block: LOADED, STATUS, ERR_CODE, the interrupt output, and the value of each result code. -/

namespace Sys2Proof.Machine

/-- The value of a result code (60_exceptions.md R603). -/
def ResultCode.bits : ResultCode → BitVec 4
  | .ok => 0
  | .badCommand => 1
  | .sequence => 2
  | .notLoaded => 3
  | .length => 4
  | .insufficientInput => 5
  | .cipherFailed => 6
  | .tagMismatch => 7
  | .tagComputationFailed => 8

/-- LOADED.KENC: MK_KENC is full (10_state.md R58). -/
def State.kEncLoaded (s : State) : Bool := s.mkEnc == 0xFF

/-- LOADED.KMAC (R58). -/
def State.kMacLoaded (s : State) : Bool := s.mkMac == 0xFF

/-- LOADED.IV (R58). -/
def State.ivLoaded (s : State) : Bool := s.mkIv == 0xF

/-- LOADED.ESALT (R58). -/
def State.esaltLoaded (s : State) : Bool := s.mkEsalt == 0x3

/-- LOADED.HSALT (R58). -/
def State.hsaltLoaded (s : State) : Bool := s.mkHsalt == 0x3

/-- What LOADED reads (R58). -/
def State.loadedWord (s : State) : Word :=
  0#27 ++ BitVec.ofBool s.hsaltLoaded ++ BitVec.ofBool s.esaltLoaded ++ BitVec.ofBool s.ivLoaded
    ++ BitVec.ofBool s.kMacLoaded ++ BitVec.ofBool s.kEncLoaded

/-- STATUS.ERR: ERR_CODE.CODE ≠ 0 (R51). -/
def State.err (s : State) : Bool := s.errCode != 0

/-- What STATUS reads: OUT_VALID, WBUSY, MODE, PARSED, ERR, DONE, BUSY from bit 6 down (R48, R51 to R53). -/
def State.statusWord (s : State) : Word :=
  0#25 ++ BitVec.ofBool s.outValid ++ BitVec.ofBool s.wbusy ++ BitVec.ofBool s.pmode
    ++ BitVec.ofBool s.parsed ++ BitVec.ofBool s.err ++ BitVec.ofBool s.done ++ BitVec.ofBool s.busy

/-- What ERR_CODE reads (R56). -/
def State.errCodeWord (s : State) : Word := s.errCode.setWidth 32

/-- What IRQ_EN reads (R57). -/
def State.irqEnWord (s : State) : Word := 0#31 ++ BitVec.ofBool s.irqEn

/-- The interrupt output: DONE and DONE_IE (R77, 60_exceptions.md R615). -/
def State.irq (s : State) : Bool := s.done && s.irqEn

end Sys2Proof.Machine
end

