-- ==== Sys2Proof/Machine/Ops.lean ====
section
/-! DEFINITION. The named operations: buffers, the register map, bus transactions (20_memory.md), accept and the common completion of every command (60_exceptions.md R601, R602), reset. -/

namespace Sys2Proof.Machine

/-! ## Buffers -/

/-- What a byte that is not listed reads as: both buffers are all 0x00 after reset (10_state.md R78). -/
def unlistedByte : Byte := 0

/-- The byte of a buffer at an index. -/
def Memory.read : Memory → Nat → Byte
  | [], _ => unlistedByte
  | (k, b) :: m, a => if a = k then b else Memory.read m a

/-- One byte stored in a buffer, in the canonical form. -/
def Memory.write : Memory → Nat → Byte → Memory
  | [], a, v => if v = unlistedByte then [] else [(a, v)]
  | (k, b) :: m, a, v =>
    if a < k then (if v = unlistedByte then (k, b) :: m else (a, v) :: (k, b) :: m)
    else if a = k then (if v = unlistedByte then m else (k, v) :: m)
    else (k, b) :: Memory.write m a v

/-- The canonical form: indices strictly rising, no listed byte equal to the unlisted one. -/
def Memory.wf : Memory → Bool
  | [] => true
  | (k, b) :: m => b != unlistedByte && m.all (fun c => decide (k < c.1)) && Memory.wf m

/-- No byte is listed at or above index `n`. -/
def Memory.below (n : Nat) (m : Memory) : Bool := m.all fun c => decide (c.1 < n)

/-- `n` bytes from index `a`. -/
def Memory.readBytes (m : Memory) : Nat → Nat → List Byte
  | _, 0 => []
  | a, n + 1 => m.read a :: Memory.readBytes m (a + 1) n

/-- A byte string stored from index `a` up. -/
def Memory.writeBytes : Memory → Nat → List Byte → Memory
  | m, _, [] => m
  | m, a, b :: bs => Memory.writeBytes (m.write a b) (a + 1) bs

/-- The slice `m[a:b]` (00_scope.md R16, R18). -/
def Memory.slice (m : Memory) (a b : Nat) : List Byte := m.readBytes a (b - a)

/-- Every byte 0x00. -/
def Memory.zeroed : Memory := []

/-- Word `j` of a buffer, big-endian lanes (20_memory.md R107, R108). -/
def Memory.readWord (m : Memory) (j : Nat) : Word :=
  be32 (m.read (4 * j)) (m.read (4 * j + 1)) (m.read (4 * j + 2)) (m.read (4 * j + 3))

/-- Word `j` of a buffer stored, big-endian lanes (R107, R108). -/
def Memory.writeWord (m : Memory) (j : Nat) (v : Word) : Memory := m.writeBytes (4 * j) (bytesBe32 v)

/-! ## The register map and the address map -/

/-- The registers of 10_state.md R44. -/
inductive Reg where
  | id
  | caps
  | cmd
  | status
  | errCode
  | irqEn
  | loaded
  | ptLen
  | msgLen
  | version
  | options
  | keyEnc (i : Fin 8)
  | keyMac (i : Fin 8)
  | iv (i : Fin 4)
  | esalt (i : Fin 2)
  | hsalt (i : Fin 2)
  | reserved
  deriving DecidableEq, Repr

/-- The register at an aligned offset of the register page (R44, R68). -/
def regAt (off : Nat) : Reg :=
  if off = 0x000 then .id
  else if off = 0x004 then .caps
  else if off = 0x008 then .cmd
  else if off = 0x00C then .status
  else if off = 0x010 then .errCode
  else if off = 0x014 then .irqEn
  else if off = 0x018 then .loaded
  else if off = 0x01C then .ptLen
  else if off = 0x020 then .msgLen
  else if off = 0x024 then .version
  else if off = 0x028 then .options
  else if off < 0x040 then .reserved
  else if off < 0x060 then .keyEnc (Fin.ofNat 8 ((off - 0x040) / 4))
  else if off < 0x080 then .keyMac (Fin.ofNat 8 ((off - 0x060) / 4))
  else if off < 0x090 then .iv (Fin.ofNat 4 ((off - 0x080) / 4))
  else if off < 0x098 then .esalt (Fin.ofNat 2 ((off - 0x090) / 4))
  else if off < 0x0A0 then .hsalt (Fin.ofNat 2 ((off - 0x098) / 4))
  else .reserved

/-- What a transaction at a mapped offset reaches. -/
inductive Target where
  | reg (r : Reg)
  | msgWord (j : Nat)
  | ptWord (j : Nat)
  deriving DecidableEq, Repr

/-- The address map for a given CMAX (20_memory.md R104 to R108). `none` is a misaligned or unmapped offset
(R102, R106). -/
def targetAt (b : CmaxBlocks) (off : Nat) : Option Target :=
  if off % 4 ≠ 0 then none
  else if off < 0x1000 then some (.reg (regAt off))
  else if off < 0x10000 then none
  else if off < 0x10000 + 4 * msgWords b then some (.msgWord ((off - 0x10000) / 4))
  else if off < 0x20000 then none
  else if off < 0x20000 + 4 * ptWords b then some (.ptWord ((off - 0x20000) / 4))
  else none

/-! ## Reads of the host -/

/-- The ID constant, "RNC3" (10_state.md R45). -/
def idWord : Word := 0x524E4333

/-- What a read of a register returns (R44 to R68). No read changes the state (20_memory.md R113). -/
def readReg (r : Reg) (s : State) : Word :=
  match r with
  | .id => idWord
  | .caps => BitVec.ofNat 32 s.cmax
  | .cmd => 0
  | .status => s.statusWord
  | .errCode => s.errCodeWord
  | .irqEn => s.irqEnWord
  | .loaded => s.loadedWord
  | .ptLen => s.ptLen
  | .msgLen => s.msgLen
  | .version => s.version.setWidth 32
  | .options => s.options.setWidth 32
  | .keyEnc _ => 0
  | .keyMac _ => 0
  | .iv i => s.iv[i]
  | .esalt i => s.esalt[i]
  | .hsalt i => s.hsalt[i]
  | .reserved => 0

/-- What a read returns. Both buffers read 0 while BUSY (R116). -/
def readTarget (t : Target) (s : State) : Word :=
  match t with
  | .reg r => readReg r s
  | .msgWord j => if s.busy then 0 else s.msgbuf.readWord j
  | .ptWord j => if s.busy then 0 else s.ptbuf.readWord j

/-! ## Accept, and the writes of the host -/

/-- Accept (60_exceptions.md R601). -/
def accept (w : Word) (s : State) : State :=
  { s with latched := some w, busy := true, done := false, errCode := 0 }

/-- The PARSED latch and PMODE cleared by an input write (10_state.md R72). -/
def clearParsed (s : State) : State := { s with parsed := false, pmode := false }

/-- A dropped write sets STATUS.WBUSY and changes nothing else (20_memory.md R117). -/
def dropWrite (s : State) : State := { s with wbusy := true }

/-- A write to STATUS: bit 1 clears DONE, bit 5 clears WBUSY, also while BUSY (10_state.md R48). -/
def writeStatus (v : Word) (s : State) : State :=
  { s with done := s.done && !v.getLsbD 1, wbusy := s.wbusy && !v.getLsbD 5 }

/-- A write to IRQ_EN, also while BUSY (R57). -/
def writeIrqEn (v : Word) (s : State) : State := { s with irqEn := v.getLsbD 0 }

/-- A write to PT_LEN while idle (R59). -/
def writePtLen (v : Word) (s : State) : State := { s with ptLen := v }

/-- A write to MSG_LEN while idle (R60). -/
def writeMsgLen (v : Word) (s : State) : State := clearParsed { s with msgLen := v }

/-- A write to KEY_ENC[i] while idle (R63, R71). -/
def writeKeyEnc (i : Fin 8) (v : Word) (s : State) : State :=
  { s with kEnc := s.kEnc.set i v, mkEnc := s.mkEnc ||| BitVec.twoPow 8 i }

/-- A write to KEY_MAC[i] while idle (R64, R71). -/
def writeKeyMac (i : Fin 8) (v : Word) (s : State) : State :=
  { s with kMac := s.kMac.set i v, mkMac := s.mkMac ||| BitVec.twoPow 8 i }

/-- A write to IV[i] while idle (R65, R71). -/
def writeIv (i : Fin 4) (v : Word) (s : State) : State :=
  clearParsed { s with iv := s.iv.set i v, mkIv := s.mkIv ||| BitVec.twoPow 4 i }

/-- A write to ESALT[i] while idle (R66, R71). -/
def writeEsalt (i : Fin 2) (v : Word) (s : State) : State :=
  clearParsed { s with esalt := s.esalt.set i v, mkEsalt := s.mkEsalt ||| BitVec.twoPow 2 i }

/-- A write to HSALT[i] while idle (R67, R71). -/
def writeHsalt (i : Fin 2) (v : Word) (s : State) : State :=
  clearParsed { s with hsalt := s.hsalt.set i v, mkHsalt := s.mkHsalt ||| BitVec.twoPow 2 i }

/-- A write to word `j` of MSGBUF while idle (20_memory.md R107). -/
def writeMsgWord (j : Nat) (v : Word) (s : State) : State :=
  clearParsed { s with msgbuf := s.msgbuf.writeWord j v }

/-- A write to word `j` of PTBUF while idle (R108). -/
def writePtWord (j : Nat) (v : Word) (s : State) : State :=
  { s with ptbuf := s.ptbuf.writeWord j v }

/-- A write to a command input: its effect while idle, dropped while BUSY (R117). -/
def whenIdle (f : State → State) (s : State) : State := if s.busy then dropWrite s else f s

/-- A write to a register (R44, R114, R117). -/
def writeReg (r : Reg) (v : Word) (s : State) : State :=
  match r with
  | .id => s
  | .caps => s
  | .cmd => whenIdle (accept v) s
  | .status => writeStatus v s
  | .errCode => s
  | .irqEn => writeIrqEn v s
  | .loaded => s
  | .ptLen => whenIdle (writePtLen v) s
  | .msgLen => whenIdle (writeMsgLen v) s
  | .version => s
  | .options => s
  | .keyEnc i => whenIdle (writeKeyEnc i v) s
  | .keyMac i => whenIdle (writeKeyMac i v) s
  | .iv i => whenIdle (writeIv i v) s
  | .esalt i => whenIdle (writeEsalt i v) s
  | .hsalt i => whenIdle (writeHsalt i v) s
  | .reserved => s

/-- A write at a mapped offset. -/
def writeTarget (t : Target) (v : Word) (s : State) : State :=
  match t with
  | .reg r => writeReg r v s
  | .msgWord j => whenIdle (writeMsgWord j v) s
  | .ptWord j => whenIdle (writePtWord j v) s

/-! ## Transactions -/

/-- The width in bytes of a transaction (R100). -/
def Transaction.size : Transaction → Nat
  | .read size _ => size
  | .write size _ _ => size

/-- The offset of a transaction (R100). -/
def Transaction.off : Transaction → Nat
  | .read _ off => off
  | .write _ off _ => off

/-- What a transaction reaches, for a given CMAX; `none` ends in `bus_error` (R101, R102, R106). -/
def Transaction.target (b : CmaxBlocks) (t : Transaction) : Option Target :=
  if t.size = 4 then targetAt b t.off else none

/-- The response recorded. -/
def respond (r : BusResponse) (s : State) : State := { s with busOut := some r }

/-- A transaction the block serves, at its target. -/
def serve (t : Transaction) (g : Target) (s : State) : State :=
  match t with
  | .read _ _ => respond (.data (readTarget g s)) s
  | .write _ _ v => respond .ack (writeTarget g v s)

/-- One transaction of the host (R100 to R117). `bus_error` stops the host program (R103; log 5). -/
def transact (t : Transaction) (s : State) : Host.Outcome State Fault Refusal :=
  match t.target s.cmaxBlocks with
  | none => .fault (.busError t.size t.off)
  | some g => .next (serve t g s)

/-! ## The common completion of every command -/

/-- The commands whose commit zeroizes both keys (60_exceptions.md R602). -/
def singleUseKeys : Instr → Bool
  | .encp => true
  | .enck => true
  | .parsep => false
  | .parsek => false
  | .dec => true
  | .tagcmp => false
  | .zeroize => true
  | .illegal _ _ => false

/-- The commands whose commit clears the IV and salt masks (R602). -/
def singleUseIv : Instr → Bool
  | .encp => true
  | .enck => true
  | .parsep => false
  | .parsek => false
  | .dec => false
  | .tagcmp => false
  | .zeroize => false
  | .illegal _ _ => false

/-- The parse commands (R602). -/
def isParse : Instr → Bool
  | .encp => false
  | .enck => false
  | .parsep => true
  | .parsek => true
  | .dec => false
  | .tagcmp => false
  | .zeroize => false
  | .illegal _ _ => false

/-- The parse command that sets PMODE (R602). -/
def isPasswordParse : Instr → Bool
  | .encp => false
  | .enck => false
  | .parsep => true
  | .parsek => false
  | .dec => false
  | .tagcmp => false
  | .zeroize => false
  | .illegal _ _ => false

/-- The commands with an output that OUT_VALID reports (R602, 10_state.md R55). -/
def makesOutput : Instr → Bool
  | .encp => true
  | .enck => true
  | .parsep => false
  | .parsek => false
  | .dec => true
  | .tagcmp => false
  | .zeroize => false
  | .illegal _ _ => false

/-- The common completion of R602: command `c`, result code `code`, in a state where the command's own writes
for this outcome are done. It is also what a failure takes (R614): there is no other exit.
LATCHED_CMD is emptied (93 U11; log 8). -/
def commit (c : Instr) (code : ResultCode) (s : State) : State :=
  { s with
    kEnc := if singleUseKeys c then Vector.replicate 8 0 else s.kEnc
    kMac := if singleUseKeys c then Vector.replicate 8 0 else s.kMac
    mkEnc := if singleUseKeys c then 0 else s.mkEnc
    mkMac := if singleUseKeys c then 0 else s.mkMac
    mkIv := if singleUseIv c then 0 else s.mkIv
    mkEsalt := if singleUseIv c then 0 else s.mkEsalt
    mkHsalt := if singleUseIv c then 0 else s.mkHsalt
    parsed := isParse c && code == .ok
    pmode := isPasswordParse c && code == .ok
    outValid := makesOutput c && code == .ok
    errCode := code.bits
    busy := false
    done := true
    latched := none }

/-- A command ends: its code and the state after its own writes go through the common completion. -/
def finish (c : Instr) (r : ResultCode × State) : Host.Outcome State Fault Refusal :=
  .next (commit c r.1 r.2)

/-! ## Reset and the order of events -/

/-- A platform reset: every piece of the block's state takes its reset value, also during a command
(70_reset_and_hazards.md R701, R702). CMAX is no state, and the host's later events stay the host's. -/
def applyReset (s : State) : State := { State.resetWith s.cmaxBlocks with inbox := s.inbox }

/-- The first event of the inbox, or the engine's turn when there is none (R713, R718; log 4). -/
def nextEvent (s : State) : Event := s.inbox.headD .engineTurn

/-- The state with its first event taken. -/
def takeEvent (s : State) : State := { s with inbox := s.inbox.tail }

/-- The command word the engine has in hand: LATCHED_CMD while BUSY (10_state.md R73). -/
def commandInFlight (s : State) : Option Word := if s.busy then s.latched else none

/-- A command word as accepted, with the engine's turn next: the state right after the host's write to CMD. -/
def presentCommand (w : Word) (s : State) : State :=
  { accept w s with inbox := .engineTurn :: s.inbox }

end Sys2Proof.Machine
end

