-- ==== Sys2Proof/Machine/Sha256.lean ====
section
/-! DEFINITION. SHA-256 (40_datapath.md R218 to R220), HMAC-SHA256 (R221) and the comparator (R224). -/

namespace Sys2Proof.Machine

/-- `n` as `k` big-endian bytes, reduced mod 2^(8k). -/
def natBytesBe (k n : Nat) : List Byte :=
  (List.range k).map fun i => BitVec.ofNat 8 (n / 2 ^ (8 * (k - 1 - i)))

/-- Preprocessing: 0x80, the fewest zero bytes that make the length 56 mod 64, and the 64-bit big-endian bit
length (R218). -/
def shaPad (m : List Byte) : List Byte :=
  m ++ [0x80#8] ++ zeros ((119 - m.length % 64) % 64) ++ natBytesBe 8 (8 * m.length)

/-- The sixteen big-endian words of a 64-byte block (R218). -/
def wordsOfBlock (b : List Byte) : List Word := (wordsOfBytes 16 b).toList

/-- Ch (R219). -/
def ch (x y z : Word) : Word := (x &&& y) ^^^ (~~~x &&& z)

/-- Maj (R219). -/
def maj (x y z : Word) : Word := (x &&& y) ^^^ (x &&& z) ^^^ (y &&& z)

/-- Σ0 (R219). -/
def bigSigma0 (x : Word) : Word := x.rotateRight 2 ^^^ x.rotateRight 13 ^^^ x.rotateRight 22

/-- Σ1 (R219). -/
def bigSigma1 (x : Word) : Word := x.rotateRight 6 ^^^ x.rotateRight 11 ^^^ x.rotateRight 25

/-- σ0 (R219). -/
def smallSigma0 (x : Word) : Word := x.rotateRight 7 ^^^ x.rotateRight 18 ^^^ (x >>> 3)

/-- σ1 (R219). -/
def smallSigma1 (x : Word) : Word := x.rotateRight 17 ^^^ x.rotateRight 19 ^^^ (x >>> 10)

/-- The table of R219 for K_0 to K_63, one number for each row of eight words. -/
def shaKRows : List (BitVec 256) :=
  [0x428a2f98_71374491_b5c0fbcf_e9b5dba5_3956c25b_59f111f1_923f82a4_ab1c5ed5,
   0xd807aa98_12835b01_243185be_550c7dc3_72be5d74_80deb1fe_9bdc06a7_c19bf174,
   0xe49b69c1_efbe4786_0fc19dc6_240ca1cc_2de92c6f_4a7484aa_5cb0a9dc_76f988da,
   0x983e5152_a831c66d_b00327c8_bf597fc7_c6e00bf3_d5a79147_06ca6351_14292967,
   0x27b70a85_2e1b2138_4d2c6dfc_53380d13_650a7354_766a0abb_81c2c92e_92722c85,
   0xa2bfe8a1_a81a664b_c24b8b70_c76c51a3_d192e819_d6990624_f40e3585_106aa070,
   0x19a4c116_1e376c08_2748774c_34b0bcb5_391c0cb3_4ed8aa4a_5b9cca4f_682e6ff3,
   0x748f82ee_78a5636f_84c87814_8cc70208_90befffa_a4506ceb_bef9a3f7_c67178f2]

/-- The eight words of a row, left to right. -/
def rowWords (r : BitVec 256) : List Word := (List.range 8).map fun i => r.extractLsb' (32 * (7 - i)) 32

/-- K_0 to K_63 (R219). -/
def shaK : List Word := shaKRows.flatMap rowWords

/-- The eight words of a hash value or of the working variables a to h (R220). -/
structure Hash where
  a : Word
  b : Word
  c : Word
  d : Word
  e : Word
  f : Word
  g : Word
  h : Word
  deriving DecidableEq, Repr

/-- H^(0) (R219). -/
def shaInit : Hash :=
  ⟨0x6a09e667, 0xbb67ae85, 0x3c6ef372, 0xa54ff53a, 0x510e527f, 0x9b05688c, 0x1f83d9ab, 0x5be0cd19⟩

/-- One more word of the message schedule on the words so far, the newest first:
`W_t = σ1(W_{t-2}) + W_{t-7} + σ0(W_{t-15}) + W_{t-16}` (R220). -/
def scheduleStep (acc : List Word) : List Word :=
  (smallSigma1 (acc.getD 1 0) + acc.getD 6 0 + smallSigma0 (acc.getD 14 0) + acc.getD 15 0) :: acc

/-- `n` more words of the message schedule. -/
def scheduleWords : Nat → List Word → List Word
  | 0, acc => acc
  | n + 1, acc => scheduleWords n (scheduleStep acc)

/-- W_0 to W_63 of a block (R220). -/
def messageSchedule (b : List Byte) : List Word := (scheduleWords 48 (wordsOfBlock b).reverse).reverse

/-- One round, with `kw` = (K_t, W_t) (R220). -/
def shaRound (v : Hash) (kw : Word × Word) : Hash :=
  let t1 := v.h + bigSigma1 v.e + ch v.e v.f v.g + kw.1 + kw.2
  let t2 := bigSigma0 v.a + maj v.a v.b v.c
  ⟨t1 + t2, v.a, v.b, v.c, v.d + t1, v.e, v.f, v.g⟩

/-- The compression of one block (R220). -/
def compress (v : Hash) (b : List Byte) : Hash :=
  let w := (shaK.zip (messageSchedule b)).foldl shaRound v
  ⟨v.a + w.a, v.b + w.b, v.c + w.c, v.d + w.d, v.e + w.e, v.f + w.f, v.g + w.g, v.h + w.h⟩

/-- The digest of a hash value (R220). -/
def Hash.bytes (v : Hash) : List Byte := bytesOfWords [v.a, v.b, v.c, v.d, v.e, v.f, v.g, v.h]

/-- `SHA256(m)` (R220). -/
def sha256 (m : List Byte) : List Byte :=
  ((chunks 64 ((shaPad m).length / 64) (shaPad m)).foldl compress shaInit).bytes

/-- `HMAC_SHA256(k, m)` for a 32-byte key (R221). -/
def hmacSha256 (k m : List Byte) : List Byte :=
  let k0 := k ++ zeros 32
  sha256 (xorBytes k0 (bytesN 64 0x5c) ++ sha256 (xorBytes k0 (bytesN 64 0x36) ++ m))

/-- `CTEQ32(a, b)`: all pairs, folded with logical and, no early exit (R224). -/
def cteq32 (a b : List Byte) : Bool :=
  (a.zip b).foldl (fun eq xy => eq && (xy.1 == xy.2)) true

end Sys2Proof.Machine
end

