-- ==== Sys2Proof/Machine/Operands.lean ====
section
/-! DEFINITION. The implicit operands of the commands (30_encoding.md R145), the message envelope (R147 to R157), and the checks and verdicts the commands share. -/

namespace Sys2Proof.Machine

/-! ## Registers as byte strings (10_state.md R63 to R67) -/

/-- KEY_ENC as 32 bytes. -/
def State.kEncBytes (s : State) : List Byte := bytesOfWords s.kEnc.toList

/-- KEY_MAC as 32 bytes. -/
def State.kMacBytes (s : State) : List Byte := bytesOfWords s.kMac.toList

/-- IV as 16 bytes. -/
def State.ivBytes (s : State) : List Byte := bytesOfWords s.iv.toList

/-- ESALT as 8 bytes. -/
def State.esaltBytes (s : State) : List Byte := bytesOfWords s.esalt.toList

/-- HSALT as 8 bytes. -/
def State.hsaltBytes (s : State) : List Byte := bytesOfWords s.hsalt.toList

/-! ## The envelope -/

/-- H, the header length of a mode: 34 in password mode, 18 in key-based mode (R148, R149). -/
def headerLen (pw : Bool) : Nat := if pw then 34 else 18

/-- The tag length (R153). -/
def tagLen : Nat := 32

/-- `Hdr(mode, …)`, the canonical header (R156). -/
def header (pw : Bool) (esalt hsalt iv : List Byte) : List Byte :=
  if pw then [0x03, 0x01] ++ esalt ++ hsalt ++ iv else [0x03, 0x00] ++ iv

/-- N(L), the ciphertext length of a plaintext of L bytes (R152). -/
def cipherLen (l : Nat) : Nat := 16 * (l / 16) + 16

/-- The canonical header of the registers. -/
def State.header (s : State) (pw : Bool) : List Byte :=
  Sys2Proof.Machine.header pw s.esaltBytes s.hsaltBytes s.ivBytes

/-! ## ENCP and ENCK (41_encrypt.md R300) -/

/-- The fail-fast checks, in their order: NOT_LOADED, then LENGTH (R300, R627). -/
def encryptCheck (pw : Bool) (s : State) : Option ResultCode :=
  if !s.kEncLoaded || !s.kMacLoaded || !s.ivLoaded then some .notLoaded
  else if pw && (!s.esaltLoaded || !s.hsaltLoaded) then some .notLoaded
  else if s.ptLen.toNat > s.cmax - 1 then some .length
  else none

/-- `pt` of R300: PTBUF[0 : PT_LEN]. -/
def State.plaintext (s : State) : List Byte := s.ptbuf.slice 0 s.ptLen.toNat

/-- `ct` of R300. -/
def State.cipherText (s : State) : List Byte := cbcEnc s.kEncBytes s.ivBytes (padInput s.plaintext)

/-- `tag` of R300, over header and ciphertext (40_datapath.md R222). -/
def State.tag (s : State) (pw : Bool) : List Byte :=
  hmacSha256 s.kMacBytes (s.header pw ++ s.cipherText)

/-- `m` of R300, the formatted message. -/
def State.message (s : State) (pw : Bool) : List Byte := s.header pw ++ s.cipherText ++ s.tag pw

/-! ## PARSEP and PARSEK (42_parse_decrypt.md R400) -/

/-- The checks, in their order: LENGTH, then INSUFFICIENT_INPUT (R400, R627). -/
def parseCheck (pw : Bool) (s : State) : Option ResultCode :=
  if s.msgLen.toNat > headerLen pw + s.cmax + tagLen then some .length
  else if s.msgLen.toNat < headerLen pw + tagLen then some .insufficientInput
  else none

/-- The IV field of the message in MSGBUF (R157). -/
def parsedIv (pw : Bool) (s : State) : List Byte :=
  if pw then s.msgbuf.slice 18 34 else s.msgbuf.slice 2 18

/-- The encryption_salt field, zeros in key-based mode (R157, R400). -/
def parsedEsalt (pw : Bool) (s : State) : List Byte :=
  if pw then s.msgbuf.slice 2 10 else zeros 8

/-- The hmac_salt field, zeros in key-based mode (R157, R400). -/
def parsedHsalt (pw : Bool) (s : State) : List Byte :=
  if pw then s.msgbuf.slice 10 18 else zeros 8

/-! ## DEC (R404) -/

/-- C_len = MSG_LEN - H - 32 (R404). Where PARSED = 1 the invariant keeps it from going below 0 (log 13). -/
def State.cLen (s : State) : Nat := s.msgLen.toNat - headerLen s.pmode - tagLen

/-- The fail-fast checks, in their order: SEQUENCE, NOT_LOADED, CIPHER_FAILED by length (R404, R627). -/
def decryptCheck (s : State) : Option ResultCode :=
  if !s.parsed then some .sequence
  else if !s.kEncLoaded || !s.kMacLoaded then some .notLoaded
  else if s.cLen = 0 ∨ s.cLen % 16 ≠ 0 then some .cipherFailed
  else none

/-- The ciphertext of the message: MSGBUF[H : H + C_len] (R404). -/
def State.parsedCipherText (s : State) : List Byte :=
  s.msgbuf.slice (headerLen s.pmode) (headerLen s.pmode + s.cLen)

/-- The embedded tag: MSGBUF[H + C_len : MSG_LEN], 32 bytes (R404, R411). -/
def State.embeddedTag (s : State) : List Byte :=
  s.msgbuf.readBytes (headerLen s.pmode + s.cLen) tagLen

/-- The candidate plaintext with its padding, what SCRATCH holds during DEC (R404, 10_state.md R74; log 7). -/
def candidate (s : State) : List Byte := cbcDec s.kEncBytes s.ivBytes s.parsedCipherText

/-- The expected tag, over the canonical header and the ciphertext (R404, R407). -/
def expectedTag (s : State) : List Byte :=
  hmacSha256 s.kMacBytes (s.header s.pmode ++ s.parsedCipherText)

/-- The MAC verdict (R404). -/
def macOk (s : State) : Bool := cteq32 s.embeddedTag (expectedTag s)

end Sys2Proof.Machine
end

