-- ==== Sys2Proof/Machine/Decrypt.lean ====
section
/-! DEFINITION. The parse and decrypt-verify commands PARSEP, PARSEK and DEC (42_parse_decrypt.md). -/

namespace Sys2Proof.Machine

/-- `Parse(pw)` of R400: the result code and the state after the command's own writes. -/
def parse (pw : Bool) (s : State) : ResultCode × State :=
  match parseCheck pw s with
  | some code => (code, s)
  | none =>
    (.ok, { s with
      version := s.msgbuf.read 0
      options := s.msgbuf.read 1
      esalt := wordsOfBytes 2 (parsedEsalt pw s)
      hsalt := wordsOfBytes 2 (parsedHsalt pw s)
      iv := wordsOfBytes 4 (parsedIv pw s)
      mkIv := 0
      mkEsalt := 0
      mkHsalt := 0 })

/-- PARSEP (R401). -/
def execParsep (s : State) : Host.Outcome State Fault Refusal := finish .parsep (parse true s)

/-- PARSEK (R402). -/
def execParsek (s : State) : Host.Outcome State Fault Refusal := finish .parsek (parse false s)

/-- The failure actions of DEC: PTBUF and PT_LEN zeroed, whatever the failure (R404, R408). -/
def decryptFail (code : ResultCode) (s : State) : ResultCode × State :=
  (code, { s with ptbuf := Memory.zeroed, ptLen := 0 })

/-- The plaintext released: PTBUF[0:n] written, the rest zeroed, PT_LEN = n (R404). -/
def release (pt : List Byte) (s : State) : ResultCode × State :=
  (.ok, { s with ptbuf := Memory.zeroed.writeBytes 0 pt, ptLen := BitVec.ofNat 32 pt.length })

/-- `Decrypt()` of R404, with the arbitration of R406: the MAC verdict before the padding verdict. -/
def decrypt (s : State) : ResultCode × State :=
  match decryptCheck s with
  | some code => decryptFail code s
  | none =>
    let verdict := unpad (candidate s)
    if !macOk s then decryptFail .tagMismatch s
    else if !verdict.1 then decryptFail .cipherFailed s
    else release verdict.2 s

/-- DEC (R405). -/
def execDec (s : State) : Host.Outcome State Fault Refusal := finish .dec (decrypt s)

end Sys2Proof.Machine
end

