-- ==== Sys2Proof/Machine/Encrypt.lean ====
section
/-! DEFINITION. The encrypt-and-format commands ENCP and ENCK (41_encrypt.md). -/

namespace Sys2Proof.Machine

/-- `Encrypt(pw)` of R300: the result code and the state after the command's own writes. -/
def encrypt (pw : Bool) (s : State) : ResultCode × State :=
  match encryptCheck pw s with
  | some code => (code, s)
  | none =>
    (.ok, { s with
      msgbuf := s.msgbuf.writeBytes 0 (s.message pw)
      msgLen := BitVec.ofNat 32 (s.message pw).length })

/-- ENCP (R301). -/
def execEncp (s : State) : Host.Outcome State Fault Refusal := finish .encp (encrypt true s)

/-- ENCK (R302). -/
def execEnck (s : State) : Host.Outcome State Fault Refusal := finish .enck (encrypt false s)

end Sys2Proof.Machine
end

