-- ==== Sys2Proof/Machine/Maintenance.lean ====
section
/-! DEFINITION. The maintenance commands TAGCMP and ZEROIZE, and illegal command words (43_maintenance.md). -/

namespace Sys2Proof.Machine

/-- `TagCmp()` of R500. -/
def tagCompare (s : State) : ResultCode × State :=
  (if cteq32 (s.msgbuf.slice 0 32) (s.msgbuf.slice 32 64) then .ok else .tagMismatch, s)

/-- TAGCMP (R500). -/
def execTagcmp (s : State) : Host.Outcome State Fault Refusal := finish .tagcmp (tagCompare s)

/-- `Zeroize()` of R501. -/
def scrub (s : State) : ResultCode × State :=
  (.ok, { s with
    kEnc := Vector.replicate 8 0
    kMac := Vector.replicate 8 0
    iv := Vector.replicate 4 0
    esalt := Vector.replicate 2 0
    hsalt := Vector.replicate 2 0
    mkEnc := 0
    mkMac := 0
    mkIv := 0
    mkEsalt := 0
    mkHsalt := 0
    msgbuf := Memory.zeroed
    ptbuf := Memory.zeroed
    ptLen := 0
    msgLen := 0
    version := 0
    options := 0 })

/-- ZEROIZE (R501). -/
def execZeroize (s : State) : Host.Outcome State Fault Refusal := finish .zeroize (scrub s)

/-- An illegal command word: `fail(BAD_COMMAND)`, then the commit (R502). -/
def execIllegal (op : BitVec 4) (rsv : BitVec 28) (s : State) : Host.Outcome State Fault Refusal :=
  finish (.illegal op rsv) (.badCommand, s)

end Sys2Proof.Machine
end

