-- ==== Sys2Proof/Machine/Dispatch.lean ====
section
/-! DEFINITION. One arm per command: the engine's commit of that command. -/

namespace Sys2Proof.Machine

def exec (i : Instr) (s : State) : Host.Outcome State Fault Refusal :=
  match i with
  | .encp => Sys2Proof.Machine.execEncp s
  | .enck => Sys2Proof.Machine.execEnck s
  | .parsep => Sys2Proof.Machine.execParsep s
  | .parsek => Sys2Proof.Machine.execParsek s
  | .dec => Sys2Proof.Machine.execDec s
  | .tagcmp => Sys2Proof.Machine.execTagcmp s
  | .zeroize => Sys2Proof.Machine.execZeroize s
  | .illegal op rsv => Sys2Proof.Machine.execIllegal op rsv s

end Sys2Proof.Machine
end

