-- ==== Sys2Proof/Machine/Step.lean ====
section
/-! DEFINITION. One step: the next event of the host or the engine's turn (20_memory.md R118, R120). -/

namespace Sys2Proof.Machine

/-- The engine's turn: the commit of the command in flight (60_exceptions.md R602), nothing while IDLE. -/
def engineStep (s : State) : Host.Outcome State Fault Refusal :=
  match commandInFlight s with
  | some w => exec (decode w) s
  | none => if s.busy then .fault .engineWithoutCommand else .next s

/-- One step of the machine: one transaction, one commit or one reset, each whole (R118, R120). -/
def step (s : State) : Host.Outcome State Fault Refusal :=
  match nextEvent s with
  | .bus t => transact t (takeEvent s)
  | .engineTurn => engineStep (takeEvent s)
  | .reset => .next (applyReset (takeEvent s))

/-- `s` with the command word whose bits are `w` accepted and the engine's turn next: what the host's write of it
to CMD leaves (R601; log 9). -/
def State.withFetchWord (s : State) (nbits w : Nat) : State :=
  presentCommand (BitVec.ofNat 32 (w % 2 ^ nbits)) s

end Sys2Proof.Machine
end

