-- ==== Sys2Proof/Machine/Timing.lean ====
section
/-! DEFINITION. The latency of the command in flight as a function of the data 70_reset_and_hazards.md R713 to R717 allow (log 3). The step counts no cycles. -/

namespace Sys2Proof.Machine

/-- The key of a command that fails fast: command word, masks, latch and lengths (R717). -/
def failFastKey (c : Instr) (s : State) : LatencyKey :=
  .failFast c s.mkEnc s.mkMac s.mkIv s.mkEsalt s.mkHsalt s.parsed s.pmode s.ptLen s.msgLen

/-- What the latency of command `c` in state `s` depends on: the command, the header mode and the length when it
passes its fail-fast checks (R713 to R716), and the data of R717 when it does not. -/
def latencyKey (c : Instr) (s : State) : LatencyKey :=
  match c with
  | .encp => if (encryptCheck true s).isNone then .full .encp true s.ptLen.toNat else failFastKey .encp s
  | .enck => if (encryptCheck false s).isNone then .full .enck false s.ptLen.toNat else failFastKey .enck s
  | .parsep => .full .parsep true s.msgLen.toNat
  | .parsek => .full .parsek false s.msgLen.toNat
  | .dec => if (decryptCheck s).isNone then .full .dec s.pmode s.msgLen.toNat else failFastKey .dec s
  | .tagcmp => .full .tagcmp false 0
  | .zeroize => .full .zeroize false 0
  | .illegal op rsv => failFastKey (.illegal op rsv) s

/-- LAT: the cycles from accept to commit of command `c` (R713). -/
def latency (c : Instr) (s : State) : Nat := Config.lat s.cmaxBlocks (latencyKey c s)

end Sys2Proof.Machine
end

