-- ==== Sys2Proof/Safety.lean ====
section
/-! DEFINITION. What counts as a good state and a safe run of RNC3E, in the terms the statements use. -/

namespace Sys2Proof.Machine

/-- A buffer of `n` bytes in its canonical form. -/
def Memory.fits (n : Nat) (m : Memory) : Bool := m.wf && m.below n

/-- A key word whose mask bit is clear is zero: keys enter only by writes that set the bit, and leave whole
(10_state.md R63, R64, R71). -/
def keyWordsMasked (mask : BitVec 8) (k : Vector Word 8) : Prop :=
  ∀ i : Fin 8, mask.getLsbD i = false → k[i] = 0

/-- While PARSED = 1, MSG_LEN is in the range PARSE checked, and VERSION, OPTIONS, IV and the salts are the fields
of the message in MSGBUF (42_parse_decrypt.md R404, R410). -/
structure ParsedMessage (s : State) : Prop where
  lower : headerLen s.pmode + tagLen ≤ s.msgLen.toNat
  upper : s.msgLen.toNat ≤ headerLen s.pmode + s.cmax + tagLen
  version : s.version = s.msgbuf.read 0
  options : s.options = s.msgbuf.read 1
  esalt : s.esaltBytes = parsedEsalt s.pmode s
  hsalt : s.hsaltBytes = parsedHsalt s.pmode s
  iv : s.ivBytes = parsedIv s.pmode s
  ivMask : s.mkIv = 0
  esaltMask : s.mkEsalt = 0
  hsaltMask : s.mkHsalt = 0

/-- The invariant of every reachable state. -/
structure Inv (s : State) : Prop where
  /-- `busy ↔ latched.isSome` (R79). -/
  busyLatched : s.busy = s.latched.isSome
  /-- DONE is pending only while idle (60_exceptions.md R616). -/
  doneIdle : s.done = true → s.busy = false
  /-- ERR_CODE reads 0 while BUSY (10_state.md R56). -/
  busyCode : s.busy = true → s.errCode = 0
  /-- No code above 7 is ever written (60_exceptions.md R610, R621). -/
  codeWritten : s.errCode.toNat ≤ 7
  /-- PMODE is 0 whenever PARSED is 0 (R53). -/
  modeParsed : s.parsed = false → s.pmode = false
  /-- OUT_VALID means the last commit was an OK of ENCP, ENCK or DEC (R55), which leaves PARSED 0. -/
  outputOk : s.outValid = true → s.errCode = 0 ∧ s.parsed = false
  /-- MSGBUF has CMAX + 68 bytes, in the canonical form. -/
  msgbufFits : s.msgbuf.fits (4 * msgWords s.cmaxBlocks) = true
  /-- PTBUF has CMAX bytes, in the canonical form. -/
  ptbufFits : s.ptbuf.fits (4 * ptWords s.cmaxBlocks) = true
  /-- KEY_ENC holds nothing that its mask does not show. -/
  encMasked : keyWordsMasked s.mkEnc s.kEnc
  /-- KEY_MAC holds nothing that its mask does not show. -/
  macMasked : keyWordsMasked s.mkMac s.kMac
  /-- The latch invariant (R410). -/
  parsedMessage : s.parsed = true → ParsedMessage s

/-- An event the block serves without a `bus_error`, for a given CMAX. -/
def Event.served (b : CmaxBlocks) : Event → Bool
  | .bus t => (t.target b).isSome
  | .engineTurn => true
  | .reset => true

/-- The host's coming transactions all reach mapped words. -/
def State.hostWellBehaved (s : State) : Bool := s.inbox.all (Event.served s.cmaxBlocks)

/-- An event that is no reset. -/
def Event.notReset : Event → Bool
  | .bus _ => true
  | .engineTurn => true
  | .reset => false

/-- The state without its keys: what two states agree on that differ in the keys only. -/
def State.withoutKeys (s : State) : State :=
  { s with kEnc := Vector.replicate 8 0, kMac := Vector.replicate 8 0 }

/-- The state without KEY_ENC. -/
def State.withoutCipherKey (s : State) : State := { s with kEnc := Vector.replicate 8 0 }

/-- The common completion of a command that leaves keys, IV, salts and masks alone (60_exceptions.md R602). -/
def completed (code : BitVec 4) (s : State) : State :=
  { s with
    parsed := false
    pmode := false
    outValid := false
    errCode := code
    busy := false
    done := true
    latched := none }

/-- The completion of a command that consumes the keys: as `completed`, with both keys and their masks zeroed
(R602). -/
def completedKeys (code : BitVec 4) (s : State) : State :=
  { completed code s with
    kEnc := Vector.replicate 8 0
    kMac := Vector.replicate 8 0
    mkEnc := 0
    mkMac := 0 }

/-- The completion of ENCP and ENCK: as `completedKeys`, with the IV and salt masks cleared (R602). -/
def completedEncrypt (code : BitVec 4) (s : State) : State :=
  { completedKeys code s with
    mkIv := 0
    mkEsalt := 0
    mkHsalt := 0 }

end Sys2Proof.Machine
end

