-- ==== Sys2Proof/Certificates/Slice0/Obligations.lean ====
section
/-! DEFINITION. The statements for the provers, by family: encodings, the step, the commands, the commit, the invariant, the bus, the datapath, the whole block. Rules of spec/ are cited as R<n>. -/

open Sys2Proof Sys2Proof.Machine

/-! ## Encodings (30_encoding.md) -/

/-- The encoder and the decoder are inverse to each other: on every well-formed command, and on every 32-bit
word, which always decodes to a well-formed one (R142, R143). -/
def Obligations.DecodeEncodeAgree : Prop :=
  (∀ i : Instr, i.wellFormed = true → decode (encode i) = i) ∧
  (∀ w : Word, (decode w).wellFormed = true ∧ encode (decode w) = w)

/-- Each legal word selects its command and every other word is illegal, with its own fields (R143). -/
def Obligations.EveryWordDecodes : Prop :=
  ∀ w : Word,
    (decode w = .encp ↔ w = 1) ∧ (decode w = .enck ↔ w = 2) ∧ (decode w = .parsep ↔ w = 3) ∧
    (decode w = .parsek ↔ w = 4) ∧ (decode w = .dec ↔ w = 5) ∧ (decode w = .tagcmp ↔ w = 6) ∧
    (decode w = .zeroize ↔ w = 7) ∧
    (¬ (w.extractLsb' 4 28 = 0 ∧ 1 ≤ (w.extractLsb' 0 4).toNat ∧ (w.extractLsb' 0 4).toNat ≤ 7) ↔
      decode w = .illegal (w.extractLsb' 0 4) (w.extractLsb' 4 28))

/-- The words of the opcode map (R142), and the illegal words R502 names, as the host gives them. -/
def Obligations.WrittenWordsDecode : Prop :=
  decodeTableWord 32 0x00000001 = some .encp ∧ decodeTableWord 32 0x00000002 = some .enck ∧
  decodeTableWord 32 0x00000003 = some .parsep ∧ decodeTableWord 32 0x00000004 = some .parsek ∧
  decodeTableWord 32 0x00000005 = some .dec ∧ decodeTableWord 32 0x00000006 = some .tagcmp ∧
  decodeTableWord 32 0x00000007 = some .zeroize ∧ decodeTableWord 32 0x00000000 = some (.illegal 0 0) ∧
  decodeTableWord 32 0x00000008 = some (.illegal 8 0) ∧ decodeTableWord 32 0x0000000F = some (.illegal 15 0) ∧
  decodeTableWord 32 0x00000011 = some (.illegal 1 1) ∧
  decodeTableWord 32 0x80000005 = some (.illegal 5 0x8000000)

/-! ## The step -/

/-- On the engine's turn the step is `exec` of the command the latched word decodes to, in the state with that
turn taken; while IDLE the engine does nothing. The turn is an event of the inbox, or any step with an empty
inbox: the model's choice (log 4). -/
def Obligations.StepRunsDecodedCommand : Prop :=
  (∀ (s : State) (w : Word) (i : Instr), (s.inbox = [] ∨ ∃ rest, s.inbox = .engineTurn :: rest) →
    s.busy = true → s.latched = some w → decode w = i → i.wellFormed = true →
    step s = exec i { s with inbox := s.inbox.tail }) ∧
  (∀ s : State, (s.inbox = [] ∨ ∃ rest, s.inbox = .engineTurn :: rest) → s.busy = false →
    step s = .next { s with inbox := s.inbox.tail })

/-- A command word presented to the engine is what the very next step runs, on the state that accept leaves
(log 9). -/
def Obligations.PresentedWordRunsNext : Prop :=
  ∀ (s : State) (nbits w : Nat) (i : Instr), decodeTableWord nbits w = some i →
    step (s.withFetchWord nbits w)
      = exec i { s with latched := some (BitVec.ofNat 32 (w % 2 ^ nbits)), busy := true, done := false,
                        errCode := 0 }

/-- A host event is served whole by one step: a transaction on the state with it taken, a reset by the reset
state, whatever the engine was doing (R118, R702). What the step keeps besides is the model's choice
(logs 1, 4, 10). -/
def Obligations.StepServesHostEvents : Prop :=
  (∀ (s : State) (t : Transaction) (rest : List Event), s.inbox = .bus t :: rest →
    step s = transact t { s with inbox := rest }) ∧
  (∀ (s : State) (rest : List Event), s.inbox = .reset :: rest →
    step s = .next { State.resetWith s.cmaxBlocks with inbox := rest })

/-- What a platform reset leaves, from any state and during a command too (R78, R701, R702): every flag, code,
length and mask 0, every key, IV, salt and buffer byte 0, the engine IDLE, the interrupt down. -/
def Obligations.ResetLeavesZeros : Prop :=
  ∀ (s : State) (rest : List Event), s.inbox = .reset :: rest → ∃ t, step s = .next t ∧
    t.busy = false ∧ t.latched = none ∧ t.statusWord = 0 ∧ t.errCode = 0 ∧ t.irqEn = false ∧ t.irq = false ∧
    t.loadedWord = 0 ∧ t.ptLen = 0 ∧ t.msgLen = 0 ∧ t.version = 0 ∧ t.options = 0 ∧
    t.mkEnc = 0 ∧ t.mkMac = 0 ∧ t.mkIv = 0 ∧ t.mkEsalt = 0 ∧ t.mkHsalt = 0 ∧
    t.kEncBytes = zeros 32 ∧ t.kMacBytes = zeros 32 ∧ t.ivBytes = zeros 16 ∧ t.esaltBytes = zeros 8 ∧
    t.hsaltBytes = zeros 8 ∧ (∀ a, t.msgbuf.read a = 0) ∧ (∀ a, t.ptbuf.read a = 0) ∧
    t.cmaxBlocks = s.cmaxBlocks

/-! ## The commands: results, completion and frame -/

/-- ENCP with every group loaded and a plaintext that fits: the message of R301 in MSGBUF, its length in MSG_LEN,
and nothing else but the commit of R602. -/
def Obligations.EncpFormatsMessage : Prop :=
  ∀ s : State, s.msgbuf.wf = true → s.mkEnc = 0xFF → s.mkMac = 0xFF → s.mkIv = 0xF → s.mkEsalt = 0x3 →
    s.mkHsalt = 0x3 → s.ptLen.toNat ≤ s.cmax - 1 →
    let hdr := [0x03, 0x01] ++ s.esaltBytes ++ s.hsaltBytes ++ s.ivBytes
    let ct := cbcEnc s.kEncBytes s.ivBytes (padInput (s.ptbuf.slice 0 s.ptLen.toNat))
    let m := hdr ++ ct ++ hmacSha256 s.kMacBytes (hdr ++ ct)
    m.length = 16 * (s.ptLen.toNat / 16) + 82 ∧
    ∃ t, exec .encp s = .next t ∧
      t = { completedEncrypt 0 s with
              outValid := true, msgLen := BitVec.ofNat 32 m.length, msgbuf := t.msgbuf } ∧
      (∀ a, a < m.length → t.msgbuf.read a = m.getD a 0) ∧
      (∀ a, m.length ≤ a → t.msgbuf.read a = s.msgbuf.read a) ∧
      t.statusWord = (if s.wbusy then 0x62 else 0x42) ∧ t.loadedWord = 0

/-- ENCK with keys and IV loaded and a plaintext that fits: the message of R302, whatever the salts are. -/
def Obligations.EnckFormatsMessage : Prop :=
  ∀ s : State, s.msgbuf.wf = true → s.mkEnc = 0xFF → s.mkMac = 0xFF → s.mkIv = 0xF →
    s.ptLen.toNat ≤ s.cmax - 1 →
    let hdr := [0x03, 0x00] ++ s.ivBytes
    let ct := cbcEnc s.kEncBytes s.ivBytes (padInput (s.ptbuf.slice 0 s.ptLen.toNat))
    let m := hdr ++ ct ++ hmacSha256 s.kMacBytes (hdr ++ ct)
    m.length = 16 * (s.ptLen.toNat / 16) + 66 ∧
    ∃ t, exec .enck s = .next t ∧
      t = { completedEncrypt 0 s with
              outValid := true, msgLen := BitVec.ofNat 32 m.length, msgbuf := t.msgbuf } ∧
      (∀ a, a < m.length → t.msgbuf.read a = m.getD a 0) ∧
      (∀ a, m.length ≤ a → t.msgbuf.read a = s.msgbuf.read a) ∧
      t.statusWord = (if s.wbusy then 0x62 else 0x42) ∧ t.loadedWord = 0

/-- Where ENCP and ENCK fail: NOT_LOADED first, then LENGTH, with MSGBUF, MSG_LEN and PTBUF as they were and the
keys and masks consumed all the same (R300, R306, R627). -/
def Obligations.EncryptFailures : Prop :=
  ∀ s : State,
    (¬ (s.mkEnc = 0xFF ∧ s.mkMac = 0xFF ∧ s.mkIv = 0xF ∧ s.mkEsalt = 0x3 ∧ s.mkHsalt = 0x3) →
      exec .encp s = .next (completedEncrypt 3 s)) ∧
    (¬ (s.mkEnc = 0xFF ∧ s.mkMac = 0xFF ∧ s.mkIv = 0xF) → exec .enck s = .next (completedEncrypt 3 s)) ∧
    (s.mkEnc = 0xFF → s.mkMac = 0xFF → s.mkIv = 0xF → s.mkEsalt = 0x3 → s.mkHsalt = 0x3 →
      s.cmax - 1 < s.ptLen.toNat → exec .encp s = .next (completedEncrypt 4 s)) ∧
    (s.mkEnc = 0xFF → s.mkMac = 0xFF → s.mkIv = 0xF → s.cmax - 1 < s.ptLen.toNat →
      exec .enck s = .next (completedEncrypt 4 s))

/-- PARSEP on a length in range: the fields of the password-mode header in their registers, the latch set, and
nothing else but the commit (R400, R401, R157). -/
def Obligations.ParsepExtractsFields : Prop :=
  ∀ s : State, 66 ≤ s.msgLen.toNat → s.msgLen.toNat ≤ s.cmax + 66 →
    ∃ t, exec .parsep s = .next t ∧
      t = { completed 0 s with
              parsed := true, pmode := true, version := s.msgbuf.read 0, options := s.msgbuf.read 1,
              iv := t.iv, esalt := t.esalt, hsalt := t.hsalt, mkIv := 0, mkEsalt := 0, mkHsalt := 0 } ∧
      t.esaltBytes = s.msgbuf.slice 2 10 ∧ t.hsaltBytes = s.msgbuf.slice 10 18 ∧
      t.ivBytes = s.msgbuf.slice 18 34 ∧
      t.statusWord = (if s.wbusy then 0x3A else 0x1A)

/-- PARSEK on a length in range: the fields of the key-based header, zero salts, the latch set in key-based mode
(R400, R402, R157). -/
def Obligations.ParsekExtractsFields : Prop :=
  ∀ s : State, 50 ≤ s.msgLen.toNat → s.msgLen.toNat ≤ s.cmax + 50 →
    ∃ t, exec .parsek s = .next t ∧
      t = { completed 0 s with
              parsed := true, pmode := false, version := s.msgbuf.read 0, options := s.msgbuf.read 1,
              iv := t.iv, esalt := Vector.replicate 2 0, hsalt := Vector.replicate 2 0,
              mkIv := 0, mkEsalt := 0, mkHsalt := 0 } ∧
      t.ivBytes = s.msgbuf.slice 2 18 ∧
      t.statusWord = (if s.wbusy then 0x2A else 0x0A)

/-- Where PARSEP and PARSEK fail: LENGTH above capacity, INSUFFICIENT_INPUT below header and tag; no register but
the commit's own changes (R400, R607, R414). -/
def Obligations.ParseFailures : Prop :=
  ∀ s : State,
    (s.cmax + 66 < s.msgLen.toNat → exec .parsep s = .next (completed 4 s)) ∧
    (s.cmax + 50 < s.msgLen.toNat → exec .parsek s = .next (completed 4 s)) ∧
    (s.msgLen.toNat < 66 → exec .parsep s = .next (completed 5 s)) ∧
    (s.msgLen.toNat < 50 → exec .parsek s = .next (completed 5 s))

/-- DEC before any cipher work: SEQUENCE without a parse, then NOT_LOADED, then CIPHER_FAILED for a ciphertext
length of 0 or not a multiple of 16; PTBUF and PT_LEN are zeroed every time (R404, R409, R415). The length clause
has the range of MSG_LEN that PARSED = 1 implies (R404), which `Inv` holds in `ParsedMessage.lower` and `.upper`;
outside it, in no reachable state, what DEC does is the model's choice (log 13) and is not stated. -/
def Obligations.DecFailsFast : Prop :=
  ∀ (s : State) (c : BitVec 4),
    ((s.parsed = false ∧ c = 2) ∨
     (s.parsed = true ∧ ¬ (s.mkEnc = 0xFF ∧ s.mkMac = 0xFF) ∧ c = 3) ∨
     (s.parsed = true ∧ s.mkEnc = 0xFF ∧ s.mkMac = 0xFF ∧ c = 6 ∧
       (if s.pmode then 34 else 18) + 32 ≤ s.msgLen.toNat ∧
       s.msgLen.toNat ≤ (if s.pmode then 34 else 18) + s.cmax + 32 ∧
       (s.msgLen.toNat - (if s.pmode then 34 else 18) - 32 = 0 ∨
        (s.msgLen.toNat - (if s.pmode then 34 else 18) - 32) % 16 ≠ 0))) →
    ∃ t, exec .dec s = .next t ∧ t = { completedKeys c s with ptLen := 0, ptbuf := t.ptbuf } ∧
      ∀ a, t.ptbuf.read a = 0

/-- DEC past its fail-fast checks follows the table of R406: a tag mismatch gives 7 whatever the padding, bad
padding under a good tag gives 6, and only a good tag with good padding releases the plaintext, zeros above
it. `x` is the candidate, `p` its last byte. For MSG_LEN above H + CMAX + 32, in no reachable state, what a byte
above MSGBUF reads as is the model's choice (log 13). -/
def Obligations.DecVerdictTable : Prop :=
  ∀ s : State, s.parsed = true → s.mkEnc = 0xFF → s.mkMac = 0xFF →
    let h := if s.pmode then 34 else 18
    let n := s.msgLen.toNat - h - 32
    n ≠ 0 → n % 16 = 0 →
    let ct := s.msgbuf.slice h (h + n)
    let hdr := if s.pmode then [0x03, 0x01] ++ s.esaltBytes ++ s.hsaltBytes ++ s.ivBytes
      else [0x03, 0x00] ++ s.ivBytes
    let tagOk := s.msgbuf.slice (h + n) s.msgLen.toNat = hmacSha256 s.kMacBytes (hdr ++ ct)
    let x := cbcDec s.kEncBytes s.ivBytes ct
    let p := (x.getD (n - 1) 0).toNat
    let padOk := 1 ≤ p ∧ p ≤ 16 ∧ ∀ j, n - p ≤ j → j < n → x.getD j 0 = x.getD (n - 1) 0
    ∃ t, exec .dec s = .next t ∧
      (¬ tagOk → t = { completedKeys 7 s with ptLen := 0, ptbuf := t.ptbuf } ∧ ∀ a, t.ptbuf.read a = 0) ∧
      (tagOk → ¬ padOk →
        t = { completedKeys 6 s with ptLen := 0, ptbuf := t.ptbuf } ∧ ∀ a, t.ptbuf.read a = 0) ∧
      (tagOk → padOk →
        t = { completedKeys 0 s with
                outValid := true, ptLen := BitVec.ofNat 32 (n - p), ptbuf := t.ptbuf } ∧
        (∀ a, a < n - p → t.ptbuf.read a = x.getD a 0) ∧ (∀ a, n - p ≤ a → t.ptbuf.read a = 0))

/-- The completion of DEC: a parsed message whose tag and padding are good is decrypted into PTBUF and reported as
a valid output (R405). For MSG_LEN above H + CMAX + 32, in no reachable state, what a byte above MSGBUF reads as
is the model's choice (log 13). -/
def Obligations.DecReleasesPlaintext : Prop :=
  ∀ (s : State) (pt : List Byte), s.parsed = true → s.mkEnc = 0xFF → s.mkMac = 0xFF →
    let h := if s.pmode then 34 else 18
    let ct := s.msgbuf.slice h (s.msgLen.toNat - 32)
    let hdr := if s.pmode then [0x03, 0x01] ++ s.esaltBytes ++ s.hsaltBytes ++ s.ivBytes
      else [0x03, 0x00] ++ s.ivBytes
    h + 32 < s.msgLen.toNat → (s.msgLen.toNat - h - 32) % 16 = 0 →
    s.msgbuf.slice (s.msgLen.toNat - 32) s.msgLen.toNat = hmacSha256 s.kMacBytes (hdr ++ ct) →
    cbcDec s.kEncBytes s.ivBytes ct = padInput pt →
    ∃ t, exec .dec s = .next t ∧
      t = { completedKeys 0 s with
              outValid := true, ptLen := BitVec.ofNat 32 pt.length, ptbuf := t.ptbuf } ∧
      (∀ a, t.ptbuf.read a = pt.getD a 0) ∧
      t.statusWord = (if s.wbusy then 0x62 else 0x42)

/-- TAGCMP compares the 32-byte halves and changes nothing but the commit's own fields (R500). -/
def Obligations.TagcmpComparesHalves : Prop :=
  ∀ s : State,
    exec .tagcmp s
      = .next (completed (if ∀ i : Fin 32, s.msgbuf.read i = s.msgbuf.read (32 + i) then 0 else 7) s)

/-- ZEROIZE (R501): the word 7; the reset state but for DONE, WBUSY and IRQ_EN, with STATUS 0x02 (0x22 with WBUSY),
LOADED 0 and the interrupt up where it is enabled. CMAX, the coming events and the last response are the model's
own fields. -/
def Obligations.ZeroizeScrubs : Prop :=
  encode .zeroize = 0x00000007 ∧
  ∀ s : State, ∃ t, exec .zeroize s = .next t ∧
    t = { State.resetWith s.cmaxBlocks with
            done := true, wbusy := s.wbusy, irqEn := s.irqEn, inbox := s.inbox, busOut := s.busOut } ∧
    t.statusWord = (if s.wbusy then 0x22 else 0x02) ∧ t.loadedWord = 0 ∧ t.irq = s.irqEn

/-- An illegal command word (R502): any word with RSV not 0 or OP 0 or 8 to 15 decodes to `illegal`, and `illegal`
commits with BAD_COMMAND and nothing else but the commit's own fields. -/
def Obligations.IllegalWordReports : Prop :=
  (∀ w : Word, (w.extractLsb' 4 28 ≠ 0 ∨ w.extractLsb' 0 4 = 0 ∨ 8 ≤ (w.extractLsb' 0 4).toNat) →
    decode w = .illegal (w.extractLsb' 0 4) (w.extractLsb' 4 28)) ∧
  ∀ (op : BitVec 4) (rsv : BitVec 28) (s : State), ∃ t, exec (.illegal op rsv) s = .next t ∧
    t = completed 1 s ∧ t.statusWord = (if s.wbusy then 0x26 else 0x06) ∧ t.irq = s.irqEn

/-! ## The common completion -/

/-- What every commit does, command by command (R602): the phase, the keys, the masks, the latch, OUT_VALID, and
what no commit touches. CMAX, the coming events and the last response are the model's own fields. -/
def Obligations.CommonCompletion : Prop :=
  ∀ (i : Instr) (s : State), ∃ t, exec i s = .next t ∧
    t.busy = false ∧ t.done = true ∧ t.latched = none ∧ t.wbusy = s.wbusy ∧ t.irqEn = s.irqEn ∧
    (i = .encp ∨ i = .enck ∨ i = .dec ∨ i = .zeroize →
      t.kEnc = Vector.replicate 8 0 ∧ t.kMac = Vector.replicate 8 0 ∧ t.mkEnc = 0 ∧ t.mkMac = 0) ∧
    (¬ (i = .encp ∨ i = .enck ∨ i = .dec ∨ i = .zeroize) →
      t.kEnc = s.kEnc ∧ t.kMac = s.kMac ∧ t.mkEnc = s.mkEnc ∧ t.mkMac = s.mkMac) ∧
    (i = .encp ∨ i = .enck → t.mkIv = 0 ∧ t.mkEsalt = 0 ∧ t.mkHsalt = 0 ∧
      t.iv = s.iv ∧ t.esalt = s.esalt ∧ t.hsalt = s.hsalt) ∧
    (t.parsed = true ↔ (i = .parsep ∨ i = .parsek) ∧ t.errCode = 0) ∧
    (t.pmode = true ↔ i = .parsep ∧ t.errCode = 0) ∧
    (t.outValid = true ↔ (i = .encp ∨ i = .enck ∨ i = .dec) ∧ t.errCode = 0) ∧
    t.cmaxBlocks = s.cmaxBlocks ∧ t.inbox = s.inbox ∧ t.busOut = s.busOut

/-- Which codes each command can report (R603, R610, R621): never 8 to 15. -/
def Obligations.CodesOfEachCommand : Prop :=
  ∀ (i : Instr) (s t : State), exec i s = .next t →
    match i with
    | .encp => t.errCode = 0 ∨ t.errCode = 3 ∨ t.errCode = 4
    | .enck => t.errCode = 0 ∨ t.errCode = 3 ∨ t.errCode = 4
    | .parsep => t.errCode = 0 ∨ t.errCode = 4 ∨ t.errCode = 5
    | .parsek => t.errCode = 0 ∨ t.errCode = 4 ∨ t.errCode = 5
    | .dec => t.errCode = 0 ∨ t.errCode = 2 ∨ t.errCode = 3 ∨ t.errCode = 6 ∨ t.errCode = 7
    | .tagcmp => t.errCode = 0 ∨ t.errCode = 7
    | .zeroize => t.errCode = 0
    | .illegal _ _ => t.errCode = 1

/-- The interrupt output (R615, R77): DONE and DONE_IE, whatever WBUSY is; DONE is set at every commit, cleared at
accept and by the acknowledging write, and kept by a write to DONE_IE. -/
def Obligations.InterruptFollowsDone : Prop :=
  (∀ s : State, s.irq = (s.done && s.irqEn)) ∧
  (∀ (i : Instr) (s t : State), exec i s = .next t → t.done = true ∧ t.irqEn = s.irqEn ∧ t.irq = s.irqEn) ∧
  (∀ (s t : State) (w : Word), s.busy = false → transact (.write 4 0x008 w) s = .next t →
    t.done = false ∧ t.irq = false) ∧
  (∀ (s t : State) (v : Word), v.getLsbD 1 = true → transact (.write 4 0x00C v) s = .next t →
    t.irq = false ∧ t.done = false ∧ t.irqEn = s.irqEn) ∧
  (∀ (s t : State) (v : Word), transact (.write 4 0x014 v) s = .next t →
    t.done = s.done ∧ (v.getLsbD 0 = false → t.irq = false))

/-! ## The invariant -/

/-- The reset state of every implementation meets the invariant (R78, R701). -/
def Obligations.ResetMeetsInvariant : Prop := ∀ b : CmaxBlocks, Inv (State.resetWith b)

/-- Every step from a state that meets the invariant, reachable or not, gives one that meets it: the phase, DONE and
the codes (R79, R56, R616, R621), the buffers within their sizes (R125), no key without its mask (R71), and the
latch invariant of R410. -/
def Obligations.StepKeepsInvariant : Prop :=
  ∀ s t : State, Inv s → step s = .next t → Inv t

/-- A host that reaches mapped words only never meets a fault, at any step (R103, R105, R600). -/
def Obligations.WellBehavedHostNeverFaults : Prop :=
  ∀ s : State, Inv s → s.hostWellBehaved = true →
    ∃ t, step s = .next t ∧ t.hostWellBehaved = true

/-- Every accepted command commits: within as many steps as there are events before the engine's turn, and one
more, the machine is idle with DONE set, unless a reset intervenes (R600, R718). That an empty inbox gives the
engine its turn is the model's choice (log 4). -/
def Obligations.AcceptedCommandCommits : Prop :=
  ∀ s : State, Inv s → s.busy = true → s.hostWellBehaved = true →
    s.inbox.all Event.notReset = true →
    ∃ k t, k ≤ s.inbox.length + 1 ∧ Sys2Proof.core.run k s = .next t ∧ t.busy = false ∧ t.done = true

/-! ## The bus -/

/-- A write to CMD while idle accepts the command and changes nothing else; while BUSY it is lost and sets WBUSY
(R601, R47). -/
def Obligations.AcceptRule : Prop :=
  ∀ (s : State) (w : Word),
    (s.busy = false → transact (.write 4 0x008 w) s
      = .next { s with latched := some w, busy := true, done := false, errCode := 0, busOut := some .ack }) ∧
    (s.busy = true → transact (.write 4 0x008 w) s
      = .next { s with wbusy := true, busOut := some .ack }) ∧
    transact (.read 4 0x008) s = .next { s with busOut := some (.data 0) }

/-- Exactly the misaligned transactions, those not 32 bits wide and those at unmapped offsets end in `bus_error`
(R102, R106). -/
def Obligations.BusErrorsExactly : Prop :=
  ∀ (s : State) (t : Transaction),
    (t.size ≠ 4 ∨ t.off % 4 ≠ 0 ∨ (0x1000 ≤ t.off ∧ t.off < 0x10000) ∨
      (0x10000 + s.cmax + 68 ≤ t.off ∧ t.off < 0x20000) ∨ 0x20000 + s.cmax ≤ t.off →
      transact t s = .fault (.busError t.size t.off)) ∧
    (¬ (t.size ≠ 4 ∨ t.off % 4 ≠ 0 ∨ (0x1000 ≤ t.off ∧ t.off < 0x10000) ∨
      (0x10000 + s.cmax + 68 ≤ t.off ∧ t.off < 0x20000) ∨ 0x20000 + s.cmax ≤ t.off) →
      ∃ s', transact t s = .next s')

/-- No read has a side effect, and read again after any number of other reads the word is the same (R113). `busOut`,
the response itself, is the model's own field. -/
def Obligations.ReadsHaveNoSideEffect : Prop :=
  ∀ (s t : State) (off : Nat), transact (.read 4 off) s = .next t →
    t = { s with busOut := t.busOut } ∧
    ∀ o : Option BusResponse, transact (.read 4 off) { t with busOut := o } = .next t

/-- Every write but a write to CMD is idempotent, while idle and while BUSY (R114). -/
def Obligations.WritesAreIdempotent : Prop :=
  ∀ (s t : State) (off : Nat) (v : Word), s.msgbuf.wf = true → s.ptbuf.wf = true → off ≠ 0x008 →
    transact (.write 4 off v) s = .next t → transact (.write 4 off v) t = .next t

/-- While BUSY a transaction leaves every input of the command in flight, and every output, as it stood at accept;
only DONE, WBUSY and IRQ_EN can change (R117, R119). -/
def Obligations.BusyTransactionsKeepInputs : Prop :=
  ∀ (s s' : State) (t : Transaction), s.busy = true → transact t s = .next s' →
    s' = { s with done := s'.done, wbusy := s'.wbusy, irqEn := s'.irqEn, busOut := s'.busOut }

/-- Writes while BUSY: inputs are dropped with WBUSY set, STATUS and IRQ_EN take effect, read-only and reserved
offsets ignore the write (R117). -/
def Obligations.WritesWhileBusy : Prop :=
  ∀ (s : State) (off : Nat) (v : Word), s.busy = true → off % 4 = 0 →
    (off = 0x008 ∨ off = 0x01C ∨ off = 0x020 ∨ (0x040 ≤ off ∧ off < 0x0A0) ∨
      (0x10000 ≤ off ∧ off < 0x10000 + s.cmax + 68) ∨ (0x20000 ≤ off ∧ off < 0x20000 + s.cmax) →
      transact (.write 4 off v) s = .next { s with wbusy := true, busOut := some .ack }) ∧
    (off = 0x00C → transact (.write 4 off v) s
      = .next { s with done := s.done && !v.getLsbD 1, wbusy := s.wbusy && !v.getLsbD 5,
                       busOut := some .ack }) ∧
    (off = 0x014 → transact (.write 4 off v) s
      = .next { s with irqEn := v.getLsbD 0, busOut := some .ack }) ∧
    (off = 0x000 ∨ off = 0x004 ∨ off = 0x010 ∨ off = 0x018 ∨ (0x024 ≤ off ∧ off < 0x040) ∨
      (0x0A0 ≤ off ∧ off < 0x1000) →
      transact (.write 4 off v) s = .next { s with busOut := some .ack })

/-- The MSGBUF window (R107): big-endian lanes, the PARSED latch cleared by a write, 0 read while BUSY. -/
def Obligations.MsgbufWindow : Prop :=
  ∀ (s : State) (j : Nat) (v : Word), s.msgbuf.wf = true → 4 * j < s.cmax + 68 →
    (s.busy = false →
      transact (.read 4 (0x10000 + 4 * j)) s
        = .next { s with busOut := some (.data (s.msgbuf.read (4 * j) ++ s.msgbuf.read (4 * j + 1)
            ++ s.msgbuf.read (4 * j + 2) ++ s.msgbuf.read (4 * j + 3))) } ∧
      ∃ t, transact (.write 4 (0x10000 + 4 * j) v) s = .next t ∧
        t = { s with parsed := false, pmode := false, busOut := some .ack, msgbuf := t.msgbuf } ∧
        t.msgbuf.read (4 * j) = v.extractLsb' 24 8 ∧ t.msgbuf.read (4 * j + 1) = v.extractLsb' 16 8 ∧
        t.msgbuf.read (4 * j + 2) = v.extractLsb' 8 8 ∧ t.msgbuf.read (4 * j + 3) = v.extractLsb' 0 8 ∧
        (∀ a, a < 4 * j ∨ 4 * j + 4 ≤ a → t.msgbuf.read a = s.msgbuf.read a) ∧
        transact (.read 4 (0x10000 + 4 * j)) t = .next { t with busOut := some (.data v) }) ∧
    (s.busy = true →
      transact (.read 4 (0x10000 + 4 * j)) s = .next { s with busOut := some (.data 0) } ∧
      transact (.write 4 (0x10000 + 4 * j) v) s = .next { s with wbusy := true, busOut := some .ack })

/-- The PTBUF window (R108): as the MSGBUF window, but a write leaves the PARSED latch alone. -/
def Obligations.PtbufWindow : Prop :=
  ∀ (s : State) (j : Nat) (v : Word), s.ptbuf.wf = true → 4 * j < s.cmax →
    (s.busy = false →
      transact (.read 4 (0x20000 + 4 * j)) s
        = .next { s with busOut := some (.data (s.ptbuf.read (4 * j) ++ s.ptbuf.read (4 * j + 1)
            ++ s.ptbuf.read (4 * j + 2) ++ s.ptbuf.read (4 * j + 3))) } ∧
      ∃ t, transact (.write 4 (0x20000 + 4 * j) v) s = .next t ∧
        t = { s with busOut := some .ack, ptbuf := t.ptbuf } ∧
        t.ptbuf.read (4 * j) = v.extractLsb' 24 8 ∧ t.ptbuf.read (4 * j + 1) = v.extractLsb' 16 8 ∧
        t.ptbuf.read (4 * j + 2) = v.extractLsb' 8 8 ∧ t.ptbuf.read (4 * j + 3) = v.extractLsb' 0 8 ∧
        (∀ a, a < 4 * j ∨ 4 * j + 4 ≤ a → t.ptbuf.read a = s.ptbuf.read a) ∧
        transact (.read 4 (0x20000 + 4 * j)) t = .next { t with busOut := some (.data v) }) ∧
    (s.busy = true →
      transact (.read 4 (0x20000 + 4 * j)) s = .next { s with busOut := some (.data 0) } ∧
      transact (.write 4 (0x20000 + 4 * j) v) s = .next { s with wbusy := true, busOut := some .ack })

/-- KEY_ENC and KEY_MAC words while idle: the word stored, its mask bit set, nothing else; they read 0 always
(R63, R64, R71). -/
def Obligations.KeyWordAccess : Prop :=
  ∀ (s : State) (i : Fin 8) (v : Word),
    (s.busy = false →
      transact (.write 4 (0x040 + 4 * i) v) s
        = .next { s with kEnc := s.kEnc.set i v, mkEnc := s.mkEnc ||| (1#8 <<< i.val),
                         busOut := some .ack } ∧
      transact (.write 4 (0x060 + 4 * i) v) s
        = .next { s with kMac := s.kMac.set i v, mkMac := s.mkMac ||| (1#8 <<< i.val),
                         busOut := some .ack }) ∧
    transact (.read 4 (0x040 + 4 * i)) s = .next { s with busOut := some (.data 0) } ∧
    transact (.read 4 (0x060 + 4 * i)) s = .next { s with busOut := some (.data 0) }

/-- IV, ESALT and HSALT words: while idle a write stores the word, sets its mask bit and clears the PARSED latch; a
read returns the stored word in any phase (R65, R66, R67). -/
def Obligations.IvAndSaltAccess : Prop :=
  (∀ (s : State) (i : Fin 4) (v : Word),
    (s.busy = false → transact (.write 4 (0x080 + 4 * i) v) s
      = .next { s with iv := s.iv.set i v, mkIv := s.mkIv ||| (1#4 <<< i.val),
                       parsed := false, pmode := false, busOut := some .ack }) ∧
    transact (.read 4 (0x080 + 4 * i)) s = .next { s with busOut := some (.data s.iv[i]) }) ∧
  (∀ (s : State) (i : Fin 2) (v : Word),
    (s.busy = false →
      transact (.write 4 (0x090 + 4 * i) v) s
        = .next { s with esalt := s.esalt.set i v, mkEsalt := s.mkEsalt ||| (1#2 <<< i.val),
                         parsed := false, pmode := false, busOut := some .ack } ∧
      transact (.write 4 (0x098 + 4 * i) v) s
        = .next { s with hsalt := s.hsalt.set i v, mkHsalt := s.mkHsalt ||| (1#2 <<< i.val),
                         parsed := false, pmode := false, busOut := some .ack }) ∧
    transact (.read 4 (0x090 + 4 * i)) s = .next { s with busOut := some (.data s.esalt[i]) } ∧
    transact (.read 4 (0x098 + 4 * i)) s = .next { s with busOut := some (.data s.hsalt[i]) })

/-- PT_LEN, MSG_LEN and IRQ_EN while idle: every value is writable and reads back, MSG_LEN clears the PARSED latch,
only bit 0 of IRQ_EN is kept (R57, R59, R60). -/
def Obligations.LengthAndEnableAccess : Prop :=
  ∀ (s : State) (v : Word),
    (s.busy = false →
      transact (.write 4 0x01C v) s = .next { s with ptLen := v, busOut := some .ack } ∧
      transact (.write 4 0x020 v) s
        = .next { s with msgLen := v, parsed := false, pmode := false, busOut := some .ack }) ∧
    transact (.write 4 0x014 v) s = .next { s with irqEn := v.getLsbD 0, busOut := some .ack } ∧
    transact (.read 4 0x01C) s = .next { s with busOut := some (.data s.ptLen) } ∧
    transact (.read 4 0x020) s = .next { s with busOut := some (.data s.msgLen) } ∧
    transact (.read 4 0x014) s = .next { s with busOut := some (.data (if s.irqEn then 1 else 0)) }

/-- The fields of STATUS at their places (R48, R51), and what a write to it does, in any phase. -/
def Obligations.StatusLayout : Prop :=
  ∀ (s : State) (v : Word),
    transact (.read 4 0x00C) s
      = .next { s with busOut := some (.data (BitVec.ofNat 32
          (s.busy.toNat + 2 * s.done.toNat + 4 * (if s.errCode = 0 then 0 else 1) + 8 * s.parsed.toNat
            + 16 * s.pmode.toNat + 32 * s.wbusy.toNat + 64 * s.outValid.toNat))) } ∧
    transact (.write 4 0x00C v) s
      = .next { s with done := s.done && !v.getLsbD 1, wbusy := s.wbusy && !v.getLsbD 5,
                       busOut := some .ack }

/-- LOADED shows each full mask, and a write to it does nothing (R58). -/
def Obligations.LoadedShowsFullMasks : Prop :=
  ∀ (s : State) (v : Word),
    transact (.read 4 0x018) s
      = .next { s with busOut := some (.data (BitVec.ofNat 32
          ((if s.mkEnc = 0xFF then 1 else 0) + (if s.mkMac = 0xFF then 2 else 0)
            + (if s.mkIv = 0xF then 4 else 0) + (if s.mkEsalt = 0x3 then 8 else 0)
            + (if s.mkHsalt = 0x3 then 16 else 0)))) } ∧
    transact (.write 4 0x018 v) s = .next { s with busOut := some .ack }

/-- The read-only registers: ID and CAPS are constants, ERR_CODE, VERSION and OPTIONS show their field alone, the
reserved offsets read 0, and a write to any of them does nothing, in any phase (R45, R46, R56, R61, R62, R68). -/
def Obligations.ReadOnlyRegisters : Prop :=
  ∀ (s : State) (off : Nat) (v : Word),
    transact (.read 4 0x000) s = .next { s with busOut := some (.data 0x524E4333) } ∧
    transact (.read 4 0x004) s = .next { s with busOut := some (.data (BitVec.ofNat 32 s.cmax)) } ∧
    (∃ x : Word, transact (.read 4 0x010) s = .next { s with busOut := some (.data x) } ∧
      x.toNat = s.errCode.toNat) ∧
    (∃ x : Word, transact (.read 4 0x024) s = .next { s with busOut := some (.data x) } ∧
      x.toNat = s.version.toNat) ∧
    (∃ x : Word, transact (.read 4 0x028) s = .next { s with busOut := some (.data x) } ∧
      x.toNat = s.options.toNat) ∧
    (off % 4 = 0 → (0x02C ≤ off ∧ off < 0x040) ∨ (0x0A0 ≤ off ∧ off < 0x1000) →
      transact (.read 4 off) s = .next { s with busOut := some (.data 0) }) ∧
    (off % 4 = 0 → off = 0x000 ∨ off = 0x004 ∨ off = 0x010 ∨ off = 0x018 ∨ (0x024 ≤ off ∧ off < 0x040) ∨
      (0x0A0 ≤ off ∧ off < 0x1000) →
      transact (.write 4 off v) s = .next { s with busOut := some .ack })

/-! ## The datapath (40_datapath.md) -/

/-- The S-box is the affine map of the field inverse, with inv(0) = 0, and INV_SBOX inverts it (R203, R204). -/
def Obligations.SboxFormula : Prop :=
  ∀ x : Byte, invSbox (sbox x) = x ∧
    ∃ y : Byte, ((x = 0 ∧ y = 0) ∨ gfMul x y = 1) ∧
      sbox x = y ^^^ y.rotateLeft 1 ^^^ y.rotateLeft 2 ^^^ y.rotateLeft 3 ^^^ y.rotateLeft 4 ^^^ 0x63

/-- AES256_Dec inverts AES256_Enc under every key (R209). -/
def Obligations.AesDecryptInvertsEncrypt : Prop :=
  ∀ k b : List Byte, k.length = 32 → b.length = 16 → aes256Dec k (aes256Enc k b) = b

/-- CBC_Dec inverts CBC_Enc on every input of whole blocks, and the ciphertext has the length of the input (R210,
R211). -/
def Obligations.CbcDecryptInvertsEncrypt : Prop :=
  ∀ k iv p : List Byte, k.length = 32 → iv.length = 16 → p.length % 16 = 0 →
    (cbcEnc k iv p).length = p.length ∧ cbcDec k iv (cbcEnc k iv p) = p

/-- Unpadding a padded plaintext gives it back, the empty one included, and the padded length is N(L) (R152, R212 to
R216). -/
def Obligations.UnpadInvertsPad : Prop :=
  ∀ pt : List Byte, (padInput pt).length = 16 * (pt.length / 16) + 16 ∧ unpad (padInput pt) = (true, pt)

/-- The padding verdict is strict: valid exactly when the last byte p is 1 to 16 and each of the last p bytes is p
(R216). -/
def Obligations.UnpadIsStrict : Prop :=
  ∀ x : List Byte, x.length ≠ 0 → x.length % 16 = 0 →
    let n := x.length
    let p := (x.getD (n - 1) 0).toNat
    ((1 ≤ p ∧ p ≤ 16 ∧ ∀ j, n - p ≤ j → j < n → x.getD j 0 = x.getD (n - 1) 0) →
      unpad x = (true, x.take (n - p))) ∧
    (¬ (1 ≤ p ∧ p ≤ 16 ∧ ∀ j, n - p ≤ j → j < n → x.getD j 0 = x.getD (n - 1) 0) → unpad x = (false, []))

/-- The two padding modes agree on the empty plaintext: its ciphertext is one block, and decrypting and unpadding
that block gives the empty plaintext (R215). -/
def Obligations.PaddingModesAgreeOnEmpty : Prop :=
  fixedPadBlock = pkcs7 [] ∧ padInput [] = fixedPadBlock ∧ fixedPadBlock = List.replicate 16 0x10 ∧
  ∀ k iv : List Byte, k.length = 32 → iv.length = 16 →
    cbcEnc k iv (padInput []) = aes256Enc k (xorBytes (List.replicate 16 0x10) iv) ∧
    unpad (cbcDec k iv (cbcEnc k iv (padInput []))) = (true, [])

/-- A digest and a tag are 32 bytes for every input, and preprocessing fills whole 64-byte blocks (R218, R220,
R221). -/
def Obligations.DigestLengths : Prop :=
  (∀ m : List Byte, (shaPad m).length % 64 = 0 ∧ (shaPad m).length ≤ m.length + 72 ∧
    (shaPad m).take (m.length + 1) = m ++ [0x80]) ∧
  (∀ m : List Byte, (sha256 m).length = 32) ∧ (∀ k m : List Byte, (hmacSha256 k m).length = 32)

/-- The comparator reports equality of its two 32-byte operands, and agrees with the XOR-and-OR form (R224). -/
def Obligations.ComparatorIsEquality : Prop :=
  ∀ a b : List Byte, a.length = 32 → b.length = 32 →
    (cteq32 a b = true ↔ a = b) ∧
    (cteq32 a b = true ↔ (xorBytes a b).foldl (fun acc x => acc ||| x) 0 = 0)

/-! ## The whole block -/

/-- The round trip (R413): a message that ENCP (or ENCK) made in `s`, put in MSGBUF of any receiving state `r`, then
PARSEP (or PARSEK), the same keys, DEC: the plaintext comes back, the empty one included. `m` is any contents of
MSGBUF that begin with the message. -/
def Obligations.EncryptDecryptRoundTrip : Prop :=
  ∀ (s r : State) (m : Memory), s.msgbuf.wf = true → r.cmaxBlocks = s.cmaxBlocks →
    s.mkEnc = 0xFF → s.mkMac = 0xFF → s.mkIv = 0xF → s.ptLen.toNat ≤ s.cmax - 1 →
    (s.mkEsalt = 0x3 → s.mkHsalt = 0x3 →
      ∃ t, exec .encp s = .next t ∧ t.errCode = 0 ∧
        ((∀ a, a < t.msgLen.toNat → m.read a = t.msgbuf.read a) →
          ∃ u v, exec .parsep { r with msgbuf := m, msgLen := t.msgLen } = .next u ∧ u.errCode = 0 ∧
            exec .dec { u with kEnc := s.kEnc, kMac := s.kMac, mkEnc := 0xFF, mkMac := 0xFF } = .next v ∧
            v.errCode = 0 ∧ v.ptLen = s.ptLen ∧
            ∀ a, a < s.ptLen.toNat → v.ptbuf.read a = s.ptbuf.read a)) ∧
    (∃ t, exec .enck s = .next t ∧ t.errCode = 0 ∧
        ((∀ a, a < t.msgLen.toNat → m.read a = t.msgbuf.read a) →
          ∃ u v, exec .parsek { r with msgbuf := m, msgLen := t.msgLen } = .next u ∧ u.errCode = 0 ∧
            exec .dec { u with kEnc := s.kEnc, kMac := s.kMac, mkEnc := 0xFF, mkMac := 0xFF } = .next v ∧
            v.errCode = 0 ∧ v.ptLen = s.ptLen ∧
            ∀ a, a < s.ptLen.toNat → v.ptbuf.read a = s.ptbuf.read a))

/-- A message DEC accepts, with one byte of its tag changed, gives TAG_MISMATCH and no plaintext (R412). -/
def Obligations.TamperedTagIsRejected : Prop :=
  ∀ (s t : State) (a : Nat) (b : Byte), s.msgbuf.wf = true → exec .dec s = .next t → t.errCode = 0 →
    s.msgLen.toNat - 32 ≤ a → a < s.msgLen.toNat → b ≠ s.msgbuf.read a →
    ∃ t', exec .dec { s with msgbuf := s.msgbuf.write a b } = .next t' ∧ t'.errCode = 7 ∧ t'.ptLen = 0 ∧
      ∀ j, t'.ptbuf.read j = 0

/-- The version and options bytes of the message do not enter DEC: with any others in their place DEC ends in the
same state, but for those two bytes of MSGBUF themselves (R407, R412). -/
def Obligations.VersionAndOptionsNormalised : Prop :=
  ∀ (s : State) (b0 b1 : Byte),
    ∃ t, exec .dec s = .next t ∧
      exec .dec { s with msgbuf := (s.msgbuf.write 0 b0).write 1 b1 }
        = .next { t with msgbuf := (t.msgbuf.write 0 b0).write 1 b1 }

/-- No failed DEC leaves plaintext: PTBUF reads 0 everywhere, PT_LEN is 0 and OUT_VALID is 0 (R408). -/
def Obligations.RejectBeforeReveal : Prop :=
  ∀ s t : State, exec .dec s = .next t → t.errCode ≠ 0 →
    (∀ a, t.ptbuf.read a = 0) ∧ t.ptLen = 0 ∧ t.outValid = false ∧ t.msgbuf = s.msgbuf ∧
      t.msgLen = s.msgLen

/-- A DEC that fails with TAG_MISMATCH ends in the same state for every decryption key: neither the candidate nor its
padding shows (R406, R408). -/
def Obligations.TagMismatchHidesCandidate : Prop :=
  ∀ s1 s2 t : State, s1.withoutCipherKey = s2.withoutCipherKey → exec .dec s1 = .next t →
    t.errCode = 7 → exec .dec s2 = .next t

/-- No bus transaction tells two states apart that differ in their keys only, and they go on differing in their
keys only (R63, R64, R620). -/
def Obligations.KeysAreUnobservable : Prop :=
  ∀ (s1 s2 : State) (t : Transaction), s1.withoutKeys = s2.withoutKeys →
    (∃ r, transact t s1 = .fault r ∧ transact t s2 = .fault r) ∨
    (∃ u1 u2, transact t s1 = .next u1 ∧ transact t s2 = .next u2 ∧ u1.busOut = u2.busOut ∧
      u1.withoutKeys = u2.withoutKeys)

/-- ENCP and ENCK are functions of their operands alone: two states that agree on those end with the same code and
the same message, ENCK whatever the salts (R303, R145). -/
def Obligations.EncryptionIsDeterministic : Prop :=
  ∀ s1 s2 : State, s1.msgbuf.wf = true → s2.msgbuf.wf = true → s1.cmaxBlocks = s2.cmaxBlocks →
    s1.kEnc = s2.kEnc → s1.kMac = s2.kMac → s1.iv = s2.iv → s1.ptLen = s2.ptLen →
    s1.mkEnc = s2.mkEnc → s1.mkMac = s2.mkMac → s1.mkIv = s2.mkIv →
    (∀ a, a < s1.ptLen.toNat → s1.ptbuf.read a = s2.ptbuf.read a) →
    (∃ t1 t2, exec .enck s1 = .next t1 ∧ exec .enck s2 = .next t2 ∧ t1.errCode = t2.errCode ∧
      (t1.errCode = 0 → t1.msgLen = t2.msgLen ∧
        ∀ a, a < t1.msgLen.toNat → t1.msgbuf.read a = t2.msgbuf.read a)) ∧
    (s1.esalt = s2.esalt → s1.hsalt = s2.hsalt → s1.mkEsalt = s2.mkEsalt → s1.mkHsalt = s2.mkHsalt →
      ∃ t1 t2, exec .encp s1 = .next t1 ∧ exec .encp s2 = .next t2 ∧ t1.errCode = t2.errCode ∧
        (t1.errCode = 0 → t1.msgLen = t2.msgLen ∧
          ∀ a, a < t1.msgLen.toNat → t1.msgbuf.read a = t2.msgbuf.read a))

/-- Single use: right after any ENCP, ENCK, DEC or ZEROIZE the keys are gone, so an encryption fails with NOT_LOADED;
right after any command but a good parse, DEC fails with SEQUENCE (R306, R608, R707). -/
def Obligations.KeysAndParseAreSingleUse : Prop :=
  ∀ (i : Instr) (s t : State), exec i s = .next t →
    (i = .encp ∨ i = .enck ∨ i = .dec ∨ i = .zeroize →
      (∃ u, exec .encp t = .next u ∧ u.errCode = 3) ∧ (∃ u, exec .enck t = .next u ∧ u.errCode = 3)) ∧
    (¬ ((i = .parsep ∨ i = .parsek) ∧ t.errCode = 0) → ∃ u, exec .dec t = .next u ∧ u.errCode = 2)

/-- The latency of a command past its fail-fast checks is the same in any two states with the same length (and, for
DEC, the same mode): no key, data, tag or pad byte enters it (R714, R715, R716). -/
def Obligations.LatencyHidesData : Prop :=
  ∀ s1 s2 : State, s1.cmaxBlocks = s2.cmaxBlocks →
    (decryptCheck s1 = none → decryptCheck s2 = none → s1.pmode = s2.pmode → s1.msgLen = s2.msgLen →
      latency .dec s1 = latency .dec s2) ∧
    (encryptCheck true s1 = none → encryptCheck true s2 = none → s1.ptLen = s2.ptLen →
      latency .encp s1 = latency .encp s2) ∧
    (encryptCheck false s1 = none → encryptCheck false s2 = none → s1.ptLen = s2.ptLen →
      latency .enck s1 = latency .enck s2) ∧
    (s1.msgLen = s2.msgLen →
      latency .parsep s1 = latency .parsep s2 ∧ latency .parsek s1 = latency .parsek s2) ∧
    latency .tagcmp s1 = latency .tagcmp s2

/-- Every latency is at least one cycle and at most the implementation's bound (R713, R718). -/
def Obligations.LatencyIsBounded : Prop :=
  ∀ (i : Instr) (s : State), 1 ≤ latency i s ∧ latency i s ≤ Config.latMax s.cmaxBlocks

/-- A sequence of idle writes in either order leaves the same inputs: MSG_LEN and a MSGBUF word, PT_LEN and a PTBUF
word (R711). -/
def Obligations.BufferAndLengthOrderIsFree : Prop :=
  ∀ (s : State) (j : Nat) (v w : Word), s.busy = false →
    (4 * j < s.cmax + 68 → ∃ a b c, transact (.write 4 0x020 v) s = .next a ∧
      transact (.write 4 (0x10000 + 4 * j) w) a = .next c ∧
      transact (.write 4 (0x10000 + 4 * j) w) s = .next b ∧ transact (.write 4 0x020 v) b = .next c) ∧
    (4 * j < s.cmax → ∃ a b c, transact (.write 4 0x01C v) s = .next a ∧
      transact (.write 4 (0x20000 + 4 * j) w) a = .next c ∧
      transact (.write 4 (0x20000 + 4 * j) w) s = .next b ∧ transact (.write 4 0x01C v) b = .next c)
end

