-- ==== Sys2Proof/Laws/State.lean ====
section
/-! SUPPORT. For each update of the state, the value of every field after it, by definition. Later proofs rewrite with these and never unfold an update. -/

namespace Sys2Proof.Machine

/-! ### accept -/

@[simp] theorem accept_busy (w : Word) (s : State) : (accept w s).busy = true := rfl
@[simp] theorem accept_done (w : Word) (s : State) : (accept w s).done = false := rfl
@[simp] theorem accept_wbusy (w : Word) (s : State) : (accept w s).wbusy = s.wbusy := rfl
@[simp] theorem accept_outValid (w : Word) (s : State) : (accept w s).outValid = s.outValid := rfl
@[simp] theorem accept_errCode (w : Word) (s : State) : (accept w s).errCode = 0 := rfl
@[simp] theorem accept_irqEn (w : Word) (s : State) : (accept w s).irqEn = s.irqEn := rfl
@[simp] theorem accept_ptLen (w : Word) (s : State) : (accept w s).ptLen = s.ptLen := rfl
@[simp] theorem accept_msgLen (w : Word) (s : State) : (accept w s).msgLen = s.msgLen := rfl
@[simp] theorem accept_version (w : Word) (s : State) : (accept w s).version = s.version := rfl
@[simp] theorem accept_options (w : Word) (s : State) : (accept w s).options = s.options := rfl
@[simp] theorem accept_kEnc (w : Word) (s : State) : (accept w s).kEnc = s.kEnc := rfl
@[simp] theorem accept_kMac (w : Word) (s : State) : (accept w s).kMac = s.kMac := rfl
@[simp] theorem accept_iv (w : Word) (s : State) : (accept w s).iv = s.iv := rfl
@[simp] theorem accept_esalt (w : Word) (s : State) : (accept w s).esalt = s.esalt := rfl
@[simp] theorem accept_hsalt (w : Word) (s : State) : (accept w s).hsalt = s.hsalt := rfl
@[simp] theorem accept_mkEnc (w : Word) (s : State) : (accept w s).mkEnc = s.mkEnc := rfl
@[simp] theorem accept_mkMac (w : Word) (s : State) : (accept w s).mkMac = s.mkMac := rfl
@[simp] theorem accept_mkIv (w : Word) (s : State) : (accept w s).mkIv = s.mkIv := rfl
@[simp] theorem accept_mkEsalt (w : Word) (s : State) : (accept w s).mkEsalt = s.mkEsalt := rfl
@[simp] theorem accept_mkHsalt (w : Word) (s : State) : (accept w s).mkHsalt = s.mkHsalt := rfl
@[simp] theorem accept_parsed (w : Word) (s : State) : (accept w s).parsed = s.parsed := rfl
@[simp] theorem accept_pmode (w : Word) (s : State) : (accept w s).pmode = s.pmode := rfl
@[simp] theorem accept_latched (w : Word) (s : State) : (accept w s).latched = some w := rfl
@[simp] theorem accept_msgbuf (w : Word) (s : State) : (accept w s).msgbuf = s.msgbuf := rfl
@[simp] theorem accept_ptbuf (w : Word) (s : State) : (accept w s).ptbuf = s.ptbuf := rfl
@[simp] theorem accept_cmaxBlocks (w : Word) (s : State) : (accept w s).cmaxBlocks = s.cmaxBlocks := rfl
@[simp] theorem accept_inbox (w : Word) (s : State) : (accept w s).inbox = s.inbox := rfl
@[simp] theorem accept_busOut (w : Word) (s : State) : (accept w s).busOut = s.busOut := rfl
@[simp] theorem accept_cmax (w : Word) (s : State) : (accept w s).cmax = s.cmax := rfl

/-! ### clearParsed -/

@[simp] theorem clearParsed_busy (s : State) : (clearParsed s).busy = s.busy := rfl
@[simp] theorem clearParsed_done (s : State) : (clearParsed s).done = s.done := rfl
@[simp] theorem clearParsed_wbusy (s : State) : (clearParsed s).wbusy = s.wbusy := rfl
@[simp] theorem clearParsed_outValid (s : State) : (clearParsed s).outValid = s.outValid := rfl
@[simp] theorem clearParsed_errCode (s : State) : (clearParsed s).errCode = s.errCode := rfl
@[simp] theorem clearParsed_irqEn (s : State) : (clearParsed s).irqEn = s.irqEn := rfl
@[simp] theorem clearParsed_ptLen (s : State) : (clearParsed s).ptLen = s.ptLen := rfl
@[simp] theorem clearParsed_msgLen (s : State) : (clearParsed s).msgLen = s.msgLen := rfl
@[simp] theorem clearParsed_version (s : State) : (clearParsed s).version = s.version := rfl
@[simp] theorem clearParsed_options (s : State) : (clearParsed s).options = s.options := rfl
@[simp] theorem clearParsed_kEnc (s : State) : (clearParsed s).kEnc = s.kEnc := rfl
@[simp] theorem clearParsed_kMac (s : State) : (clearParsed s).kMac = s.kMac := rfl
@[simp] theorem clearParsed_iv (s : State) : (clearParsed s).iv = s.iv := rfl
@[simp] theorem clearParsed_esalt (s : State) : (clearParsed s).esalt = s.esalt := rfl
@[simp] theorem clearParsed_hsalt (s : State) : (clearParsed s).hsalt = s.hsalt := rfl
@[simp] theorem clearParsed_mkEnc (s : State) : (clearParsed s).mkEnc = s.mkEnc := rfl
@[simp] theorem clearParsed_mkMac (s : State) : (clearParsed s).mkMac = s.mkMac := rfl
@[simp] theorem clearParsed_mkIv (s : State) : (clearParsed s).mkIv = s.mkIv := rfl
@[simp] theorem clearParsed_mkEsalt (s : State) : (clearParsed s).mkEsalt = s.mkEsalt := rfl
@[simp] theorem clearParsed_mkHsalt (s : State) : (clearParsed s).mkHsalt = s.mkHsalt := rfl
@[simp] theorem clearParsed_parsed (s : State) : (clearParsed s).parsed = false := rfl
@[simp] theorem clearParsed_pmode (s : State) : (clearParsed s).pmode = false := rfl
@[simp] theorem clearParsed_latched (s : State) : (clearParsed s).latched = s.latched := rfl
@[simp] theorem clearParsed_msgbuf (s : State) : (clearParsed s).msgbuf = s.msgbuf := rfl
@[simp] theorem clearParsed_ptbuf (s : State) : (clearParsed s).ptbuf = s.ptbuf := rfl
@[simp] theorem clearParsed_cmaxBlocks (s : State) : (clearParsed s).cmaxBlocks = s.cmaxBlocks := rfl
@[simp] theorem clearParsed_inbox (s : State) : (clearParsed s).inbox = s.inbox := rfl
@[simp] theorem clearParsed_busOut (s : State) : (clearParsed s).busOut = s.busOut := rfl
@[simp] theorem clearParsed_cmax (s : State) : (clearParsed s).cmax = s.cmax := rfl

/-! ### dropWrite -/

@[simp] theorem dropWrite_busy (s : State) : (dropWrite s).busy = s.busy := rfl
@[simp] theorem dropWrite_done (s : State) : (dropWrite s).done = s.done := rfl
@[simp] theorem dropWrite_wbusy (s : State) : (dropWrite s).wbusy = true := rfl
@[simp] theorem dropWrite_outValid (s : State) : (dropWrite s).outValid = s.outValid := rfl
@[simp] theorem dropWrite_errCode (s : State) : (dropWrite s).errCode = s.errCode := rfl
@[simp] theorem dropWrite_irqEn (s : State) : (dropWrite s).irqEn = s.irqEn := rfl
@[simp] theorem dropWrite_ptLen (s : State) : (dropWrite s).ptLen = s.ptLen := rfl
@[simp] theorem dropWrite_msgLen (s : State) : (dropWrite s).msgLen = s.msgLen := rfl
@[simp] theorem dropWrite_version (s : State) : (dropWrite s).version = s.version := rfl
@[simp] theorem dropWrite_options (s : State) : (dropWrite s).options = s.options := rfl
@[simp] theorem dropWrite_kEnc (s : State) : (dropWrite s).kEnc = s.kEnc := rfl
@[simp] theorem dropWrite_kMac (s : State) : (dropWrite s).kMac = s.kMac := rfl
@[simp] theorem dropWrite_iv (s : State) : (dropWrite s).iv = s.iv := rfl
@[simp] theorem dropWrite_esalt (s : State) : (dropWrite s).esalt = s.esalt := rfl
@[simp] theorem dropWrite_hsalt (s : State) : (dropWrite s).hsalt = s.hsalt := rfl
@[simp] theorem dropWrite_mkEnc (s : State) : (dropWrite s).mkEnc = s.mkEnc := rfl
@[simp] theorem dropWrite_mkMac (s : State) : (dropWrite s).mkMac = s.mkMac := rfl
@[simp] theorem dropWrite_mkIv (s : State) : (dropWrite s).mkIv = s.mkIv := rfl
@[simp] theorem dropWrite_mkEsalt (s : State) : (dropWrite s).mkEsalt = s.mkEsalt := rfl
@[simp] theorem dropWrite_mkHsalt (s : State) : (dropWrite s).mkHsalt = s.mkHsalt := rfl
@[simp] theorem dropWrite_parsed (s : State) : (dropWrite s).parsed = s.parsed := rfl
@[simp] theorem dropWrite_pmode (s : State) : (dropWrite s).pmode = s.pmode := rfl
@[simp] theorem dropWrite_latched (s : State) : (dropWrite s).latched = s.latched := rfl
@[simp] theorem dropWrite_msgbuf (s : State) : (dropWrite s).msgbuf = s.msgbuf := rfl
@[simp] theorem dropWrite_ptbuf (s : State) : (dropWrite s).ptbuf = s.ptbuf := rfl
@[simp] theorem dropWrite_cmaxBlocks (s : State) : (dropWrite s).cmaxBlocks = s.cmaxBlocks := rfl
@[simp] theorem dropWrite_inbox (s : State) : (dropWrite s).inbox = s.inbox := rfl
@[simp] theorem dropWrite_busOut (s : State) : (dropWrite s).busOut = s.busOut := rfl
@[simp] theorem dropWrite_cmax (s : State) : (dropWrite s).cmax = s.cmax := rfl

/-! ### writeStatus -/

@[simp] theorem writeStatus_busy (v : Word) (s : State) : (writeStatus v s).busy = s.busy := rfl
@[simp] theorem writeStatus_done (v : Word) (s : State) : (writeStatus v s).done = (s.done && !v.getLsbD 1) := rfl
@[simp] theorem writeStatus_wbusy (v : Word) (s : State) : (writeStatus v s).wbusy = (s.wbusy && !v.getLsbD 5) := rfl
@[simp] theorem writeStatus_outValid (v : Word) (s : State) : (writeStatus v s).outValid = s.outValid := rfl
@[simp] theorem writeStatus_errCode (v : Word) (s : State) : (writeStatus v s).errCode = s.errCode := rfl
@[simp] theorem writeStatus_irqEn (v : Word) (s : State) : (writeStatus v s).irqEn = s.irqEn := rfl
@[simp] theorem writeStatus_ptLen (v : Word) (s : State) : (writeStatus v s).ptLen = s.ptLen := rfl
@[simp] theorem writeStatus_msgLen (v : Word) (s : State) : (writeStatus v s).msgLen = s.msgLen := rfl
@[simp] theorem writeStatus_version (v : Word) (s : State) : (writeStatus v s).version = s.version := rfl
@[simp] theorem writeStatus_options (v : Word) (s : State) : (writeStatus v s).options = s.options := rfl
@[simp] theorem writeStatus_kEnc (v : Word) (s : State) : (writeStatus v s).kEnc = s.kEnc := rfl
@[simp] theorem writeStatus_kMac (v : Word) (s : State) : (writeStatus v s).kMac = s.kMac := rfl
@[simp] theorem writeStatus_iv (v : Word) (s : State) : (writeStatus v s).iv = s.iv := rfl
@[simp] theorem writeStatus_esalt (v : Word) (s : State) : (writeStatus v s).esalt = s.esalt := rfl
@[simp] theorem writeStatus_hsalt (v : Word) (s : State) : (writeStatus v s).hsalt = s.hsalt := rfl
@[simp] theorem writeStatus_mkEnc (v : Word) (s : State) : (writeStatus v s).mkEnc = s.mkEnc := rfl
@[simp] theorem writeStatus_mkMac (v : Word) (s : State) : (writeStatus v s).mkMac = s.mkMac := rfl
@[simp] theorem writeStatus_mkIv (v : Word) (s : State) : (writeStatus v s).mkIv = s.mkIv := rfl
@[simp] theorem writeStatus_mkEsalt (v : Word) (s : State) : (writeStatus v s).mkEsalt = s.mkEsalt := rfl
@[simp] theorem writeStatus_mkHsalt (v : Word) (s : State) : (writeStatus v s).mkHsalt = s.mkHsalt := rfl
@[simp] theorem writeStatus_parsed (v : Word) (s : State) : (writeStatus v s).parsed = s.parsed := rfl
@[simp] theorem writeStatus_pmode (v : Word) (s : State) : (writeStatus v s).pmode = s.pmode := rfl
@[simp] theorem writeStatus_latched (v : Word) (s : State) : (writeStatus v s).latched = s.latched := rfl
@[simp] theorem writeStatus_msgbuf (v : Word) (s : State) : (writeStatus v s).msgbuf = s.msgbuf := rfl
@[simp] theorem writeStatus_ptbuf (v : Word) (s : State) : (writeStatus v s).ptbuf = s.ptbuf := rfl
@[simp] theorem writeStatus_cmaxBlocks (v : Word) (s : State) : (writeStatus v s).cmaxBlocks = s.cmaxBlocks := rfl
@[simp] theorem writeStatus_inbox (v : Word) (s : State) : (writeStatus v s).inbox = s.inbox := rfl
@[simp] theorem writeStatus_busOut (v : Word) (s : State) : (writeStatus v s).busOut = s.busOut := rfl
@[simp] theorem writeStatus_cmax (v : Word) (s : State) : (writeStatus v s).cmax = s.cmax := rfl

/-! ### writeIrqEn -/

@[simp] theorem writeIrqEn_busy (v : Word) (s : State) : (writeIrqEn v s).busy = s.busy := rfl
@[simp] theorem writeIrqEn_done (v : Word) (s : State) : (writeIrqEn v s).done = s.done := rfl
@[simp] theorem writeIrqEn_wbusy (v : Word) (s : State) : (writeIrqEn v s).wbusy = s.wbusy := rfl
@[simp] theorem writeIrqEn_outValid (v : Word) (s : State) : (writeIrqEn v s).outValid = s.outValid := rfl
@[simp] theorem writeIrqEn_errCode (v : Word) (s : State) : (writeIrqEn v s).errCode = s.errCode := rfl
@[simp] theorem writeIrqEn_irqEn (v : Word) (s : State) : (writeIrqEn v s).irqEn = v.getLsbD 0 := rfl
@[simp] theorem writeIrqEn_ptLen (v : Word) (s : State) : (writeIrqEn v s).ptLen = s.ptLen := rfl
@[simp] theorem writeIrqEn_msgLen (v : Word) (s : State) : (writeIrqEn v s).msgLen = s.msgLen := rfl
@[simp] theorem writeIrqEn_version (v : Word) (s : State) : (writeIrqEn v s).version = s.version := rfl
@[simp] theorem writeIrqEn_options (v : Word) (s : State) : (writeIrqEn v s).options = s.options := rfl
@[simp] theorem writeIrqEn_kEnc (v : Word) (s : State) : (writeIrqEn v s).kEnc = s.kEnc := rfl
@[simp] theorem writeIrqEn_kMac (v : Word) (s : State) : (writeIrqEn v s).kMac = s.kMac := rfl
@[simp] theorem writeIrqEn_iv (v : Word) (s : State) : (writeIrqEn v s).iv = s.iv := rfl
@[simp] theorem writeIrqEn_esalt (v : Word) (s : State) : (writeIrqEn v s).esalt = s.esalt := rfl
@[simp] theorem writeIrqEn_hsalt (v : Word) (s : State) : (writeIrqEn v s).hsalt = s.hsalt := rfl
@[simp] theorem writeIrqEn_mkEnc (v : Word) (s : State) : (writeIrqEn v s).mkEnc = s.mkEnc := rfl
@[simp] theorem writeIrqEn_mkMac (v : Word) (s : State) : (writeIrqEn v s).mkMac = s.mkMac := rfl
@[simp] theorem writeIrqEn_mkIv (v : Word) (s : State) : (writeIrqEn v s).mkIv = s.mkIv := rfl
@[simp] theorem writeIrqEn_mkEsalt (v : Word) (s : State) : (writeIrqEn v s).mkEsalt = s.mkEsalt := rfl
@[simp] theorem writeIrqEn_mkHsalt (v : Word) (s : State) : (writeIrqEn v s).mkHsalt = s.mkHsalt := rfl
@[simp] theorem writeIrqEn_parsed (v : Word) (s : State) : (writeIrqEn v s).parsed = s.parsed := rfl
@[simp] theorem writeIrqEn_pmode (v : Word) (s : State) : (writeIrqEn v s).pmode = s.pmode := rfl
@[simp] theorem writeIrqEn_latched (v : Word) (s : State) : (writeIrqEn v s).latched = s.latched := rfl
@[simp] theorem writeIrqEn_msgbuf (v : Word) (s : State) : (writeIrqEn v s).msgbuf = s.msgbuf := rfl
@[simp] theorem writeIrqEn_ptbuf (v : Word) (s : State) : (writeIrqEn v s).ptbuf = s.ptbuf := rfl
@[simp] theorem writeIrqEn_cmaxBlocks (v : Word) (s : State) : (writeIrqEn v s).cmaxBlocks = s.cmaxBlocks := rfl
@[simp] theorem writeIrqEn_inbox (v : Word) (s : State) : (writeIrqEn v s).inbox = s.inbox := rfl
@[simp] theorem writeIrqEn_busOut (v : Word) (s : State) : (writeIrqEn v s).busOut = s.busOut := rfl
@[simp] theorem writeIrqEn_cmax (v : Word) (s : State) : (writeIrqEn v s).cmax = s.cmax := rfl

/-! ### writePtLen -/

@[simp] theorem writePtLen_busy (v : Word) (s : State) : (writePtLen v s).busy = s.busy := rfl
@[simp] theorem writePtLen_done (v : Word) (s : State) : (writePtLen v s).done = s.done := rfl
@[simp] theorem writePtLen_wbusy (v : Word) (s : State) : (writePtLen v s).wbusy = s.wbusy := rfl
@[simp] theorem writePtLen_outValid (v : Word) (s : State) : (writePtLen v s).outValid = s.outValid := rfl
@[simp] theorem writePtLen_errCode (v : Word) (s : State) : (writePtLen v s).errCode = s.errCode := rfl
@[simp] theorem writePtLen_irqEn (v : Word) (s : State) : (writePtLen v s).irqEn = s.irqEn := rfl
@[simp] theorem writePtLen_ptLen (v : Word) (s : State) : (writePtLen v s).ptLen = v := rfl
@[simp] theorem writePtLen_msgLen (v : Word) (s : State) : (writePtLen v s).msgLen = s.msgLen := rfl
@[simp] theorem writePtLen_version (v : Word) (s : State) : (writePtLen v s).version = s.version := rfl
@[simp] theorem writePtLen_options (v : Word) (s : State) : (writePtLen v s).options = s.options := rfl
@[simp] theorem writePtLen_kEnc (v : Word) (s : State) : (writePtLen v s).kEnc = s.kEnc := rfl
@[simp] theorem writePtLen_kMac (v : Word) (s : State) : (writePtLen v s).kMac = s.kMac := rfl
@[simp] theorem writePtLen_iv (v : Word) (s : State) : (writePtLen v s).iv = s.iv := rfl
@[simp] theorem writePtLen_esalt (v : Word) (s : State) : (writePtLen v s).esalt = s.esalt := rfl
@[simp] theorem writePtLen_hsalt (v : Word) (s : State) : (writePtLen v s).hsalt = s.hsalt := rfl
@[simp] theorem writePtLen_mkEnc (v : Word) (s : State) : (writePtLen v s).mkEnc = s.mkEnc := rfl
@[simp] theorem writePtLen_mkMac (v : Word) (s : State) : (writePtLen v s).mkMac = s.mkMac := rfl
@[simp] theorem writePtLen_mkIv (v : Word) (s : State) : (writePtLen v s).mkIv = s.mkIv := rfl
@[simp] theorem writePtLen_mkEsalt (v : Word) (s : State) : (writePtLen v s).mkEsalt = s.mkEsalt := rfl
@[simp] theorem writePtLen_mkHsalt (v : Word) (s : State) : (writePtLen v s).mkHsalt = s.mkHsalt := rfl
@[simp] theorem writePtLen_parsed (v : Word) (s : State) : (writePtLen v s).parsed = s.parsed := rfl
@[simp] theorem writePtLen_pmode (v : Word) (s : State) : (writePtLen v s).pmode = s.pmode := rfl
@[simp] theorem writePtLen_latched (v : Word) (s : State) : (writePtLen v s).latched = s.latched := rfl
@[simp] theorem writePtLen_msgbuf (v : Word) (s : State) : (writePtLen v s).msgbuf = s.msgbuf := rfl
@[simp] theorem writePtLen_ptbuf (v : Word) (s : State) : (writePtLen v s).ptbuf = s.ptbuf := rfl
@[simp] theorem writePtLen_cmaxBlocks (v : Word) (s : State) : (writePtLen v s).cmaxBlocks = s.cmaxBlocks := rfl
@[simp] theorem writePtLen_inbox (v : Word) (s : State) : (writePtLen v s).inbox = s.inbox := rfl
@[simp] theorem writePtLen_busOut (v : Word) (s : State) : (writePtLen v s).busOut = s.busOut := rfl
@[simp] theorem writePtLen_cmax (v : Word) (s : State) : (writePtLen v s).cmax = s.cmax := rfl

/-! ### writeMsgLen -/

@[simp] theorem writeMsgLen_busy (v : Word) (s : State) : (writeMsgLen v s).busy = s.busy := rfl
@[simp] theorem writeMsgLen_done (v : Word) (s : State) : (writeMsgLen v s).done = s.done := rfl
@[simp] theorem writeMsgLen_wbusy (v : Word) (s : State) : (writeMsgLen v s).wbusy = s.wbusy := rfl
@[simp] theorem writeMsgLen_outValid (v : Word) (s : State) : (writeMsgLen v s).outValid = s.outValid := rfl
@[simp] theorem writeMsgLen_errCode (v : Word) (s : State) : (writeMsgLen v s).errCode = s.errCode := rfl
@[simp] theorem writeMsgLen_irqEn (v : Word) (s : State) : (writeMsgLen v s).irqEn = s.irqEn := rfl
@[simp] theorem writeMsgLen_ptLen (v : Word) (s : State) : (writeMsgLen v s).ptLen = s.ptLen := rfl
@[simp] theorem writeMsgLen_msgLen (v : Word) (s : State) : (writeMsgLen v s).msgLen = v := rfl
@[simp] theorem writeMsgLen_version (v : Word) (s : State) : (writeMsgLen v s).version = s.version := rfl
@[simp] theorem writeMsgLen_options (v : Word) (s : State) : (writeMsgLen v s).options = s.options := rfl
@[simp] theorem writeMsgLen_kEnc (v : Word) (s : State) : (writeMsgLen v s).kEnc = s.kEnc := rfl
@[simp] theorem writeMsgLen_kMac (v : Word) (s : State) : (writeMsgLen v s).kMac = s.kMac := rfl
@[simp] theorem writeMsgLen_iv (v : Word) (s : State) : (writeMsgLen v s).iv = s.iv := rfl
@[simp] theorem writeMsgLen_esalt (v : Word) (s : State) : (writeMsgLen v s).esalt = s.esalt := rfl
@[simp] theorem writeMsgLen_hsalt (v : Word) (s : State) : (writeMsgLen v s).hsalt = s.hsalt := rfl
@[simp] theorem writeMsgLen_mkEnc (v : Word) (s : State) : (writeMsgLen v s).mkEnc = s.mkEnc := rfl
@[simp] theorem writeMsgLen_mkMac (v : Word) (s : State) : (writeMsgLen v s).mkMac = s.mkMac := rfl
@[simp] theorem writeMsgLen_mkIv (v : Word) (s : State) : (writeMsgLen v s).mkIv = s.mkIv := rfl
@[simp] theorem writeMsgLen_mkEsalt (v : Word) (s : State) : (writeMsgLen v s).mkEsalt = s.mkEsalt := rfl
@[simp] theorem writeMsgLen_mkHsalt (v : Word) (s : State) : (writeMsgLen v s).mkHsalt = s.mkHsalt := rfl
@[simp] theorem writeMsgLen_parsed (v : Word) (s : State) : (writeMsgLen v s).parsed = false := rfl
@[simp] theorem writeMsgLen_pmode (v : Word) (s : State) : (writeMsgLen v s).pmode = false := rfl
@[simp] theorem writeMsgLen_latched (v : Word) (s : State) : (writeMsgLen v s).latched = s.latched := rfl
@[simp] theorem writeMsgLen_msgbuf (v : Word) (s : State) : (writeMsgLen v s).msgbuf = s.msgbuf := rfl
@[simp] theorem writeMsgLen_ptbuf (v : Word) (s : State) : (writeMsgLen v s).ptbuf = s.ptbuf := rfl
@[simp] theorem writeMsgLen_cmaxBlocks (v : Word) (s : State) : (writeMsgLen v s).cmaxBlocks = s.cmaxBlocks := rfl
@[simp] theorem writeMsgLen_inbox (v : Word) (s : State) : (writeMsgLen v s).inbox = s.inbox := rfl
@[simp] theorem writeMsgLen_busOut (v : Word) (s : State) : (writeMsgLen v s).busOut = s.busOut := rfl
@[simp] theorem writeMsgLen_cmax (v : Word) (s : State) : (writeMsgLen v s).cmax = s.cmax := rfl

/-! ### writeKeyEnc -/

@[simp] theorem writeKeyEnc_busy (i : Fin 8) (v : Word) (s : State) : (writeKeyEnc i v s).busy = s.busy := rfl
@[simp] theorem writeKeyEnc_done (i : Fin 8) (v : Word) (s : State) : (writeKeyEnc i v s).done = s.done := rfl
@[simp] theorem writeKeyEnc_wbusy (i : Fin 8) (v : Word) (s : State) : (writeKeyEnc i v s).wbusy = s.wbusy := rfl
@[simp] theorem writeKeyEnc_outValid (i : Fin 8) (v : Word) (s : State) :
    (writeKeyEnc i v s).outValid = s.outValid := rfl
@[simp] theorem writeKeyEnc_errCode (i : Fin 8) (v : Word) (s : State) :
    (writeKeyEnc i v s).errCode = s.errCode := rfl
@[simp] theorem writeKeyEnc_irqEn (i : Fin 8) (v : Word) (s : State) : (writeKeyEnc i v s).irqEn = s.irqEn := rfl
@[simp] theorem writeKeyEnc_ptLen (i : Fin 8) (v : Word) (s : State) : (writeKeyEnc i v s).ptLen = s.ptLen := rfl
@[simp] theorem writeKeyEnc_msgLen (i : Fin 8) (v : Word) (s : State) : (writeKeyEnc i v s).msgLen = s.msgLen := rfl
@[simp] theorem writeKeyEnc_version (i : Fin 8) (v : Word) (s : State) :
    (writeKeyEnc i v s).version = s.version := rfl
@[simp] theorem writeKeyEnc_options (i : Fin 8) (v : Word) (s : State) :
    (writeKeyEnc i v s).options = s.options := rfl
@[simp] theorem writeKeyEnc_kEnc (i : Fin 8) (v : Word) (s : State) : (writeKeyEnc i v s).kEnc = s.kEnc.set i v := rfl
@[simp] theorem writeKeyEnc_kMac (i : Fin 8) (v : Word) (s : State) : (writeKeyEnc i v s).kMac = s.kMac := rfl
@[simp] theorem writeKeyEnc_iv (i : Fin 8) (v : Word) (s : State) : (writeKeyEnc i v s).iv = s.iv := rfl
@[simp] theorem writeKeyEnc_esalt (i : Fin 8) (v : Word) (s : State) : (writeKeyEnc i v s).esalt = s.esalt := rfl
@[simp] theorem writeKeyEnc_hsalt (i : Fin 8) (v : Word) (s : State) : (writeKeyEnc i v s).hsalt = s.hsalt := rfl
@[simp] theorem writeKeyEnc_mkEnc (i : Fin 8) (v : Word) (s : State) :
    (writeKeyEnc i v s).mkEnc = s.mkEnc ||| BitVec.twoPow 8 i := rfl
@[simp] theorem writeKeyEnc_mkMac (i : Fin 8) (v : Word) (s : State) : (writeKeyEnc i v s).mkMac = s.mkMac := rfl
@[simp] theorem writeKeyEnc_mkIv (i : Fin 8) (v : Word) (s : State) : (writeKeyEnc i v s).mkIv = s.mkIv := rfl
@[simp] theorem writeKeyEnc_mkEsalt (i : Fin 8) (v : Word) (s : State) :
    (writeKeyEnc i v s).mkEsalt = s.mkEsalt := rfl
@[simp] theorem writeKeyEnc_mkHsalt (i : Fin 8) (v : Word) (s : State) :
    (writeKeyEnc i v s).mkHsalt = s.mkHsalt := rfl
@[simp] theorem writeKeyEnc_parsed (i : Fin 8) (v : Word) (s : State) : (writeKeyEnc i v s).parsed = s.parsed := rfl
@[simp] theorem writeKeyEnc_pmode (i : Fin 8) (v : Word) (s : State) : (writeKeyEnc i v s).pmode = s.pmode := rfl
@[simp] theorem writeKeyEnc_latched (i : Fin 8) (v : Word) (s : State) :
    (writeKeyEnc i v s).latched = s.latched := rfl
@[simp] theorem writeKeyEnc_msgbuf (i : Fin 8) (v : Word) (s : State) : (writeKeyEnc i v s).msgbuf = s.msgbuf := rfl
@[simp] theorem writeKeyEnc_ptbuf (i : Fin 8) (v : Word) (s : State) : (writeKeyEnc i v s).ptbuf = s.ptbuf := rfl
@[simp] theorem writeKeyEnc_cmaxBlocks (i : Fin 8) (v : Word) (s : State) :
    (writeKeyEnc i v s).cmaxBlocks = s.cmaxBlocks := rfl
@[simp] theorem writeKeyEnc_inbox (i : Fin 8) (v : Word) (s : State) : (writeKeyEnc i v s).inbox = s.inbox := rfl
@[simp] theorem writeKeyEnc_busOut (i : Fin 8) (v : Word) (s : State) : (writeKeyEnc i v s).busOut = s.busOut := rfl
@[simp] theorem writeKeyEnc_cmax (i : Fin 8) (v : Word) (s : State) : (writeKeyEnc i v s).cmax = s.cmax := rfl

/-! ### writeKeyMac -/

@[simp] theorem writeKeyMac_busy (i : Fin 8) (v : Word) (s : State) : (writeKeyMac i v s).busy = s.busy := rfl
@[simp] theorem writeKeyMac_done (i : Fin 8) (v : Word) (s : State) : (writeKeyMac i v s).done = s.done := rfl
@[simp] theorem writeKeyMac_wbusy (i : Fin 8) (v : Word) (s : State) : (writeKeyMac i v s).wbusy = s.wbusy := rfl
@[simp] theorem writeKeyMac_outValid (i : Fin 8) (v : Word) (s : State) :
    (writeKeyMac i v s).outValid = s.outValid := rfl
@[simp] theorem writeKeyMac_errCode (i : Fin 8) (v : Word) (s : State) :
    (writeKeyMac i v s).errCode = s.errCode := rfl
@[simp] theorem writeKeyMac_irqEn (i : Fin 8) (v : Word) (s : State) : (writeKeyMac i v s).irqEn = s.irqEn := rfl
@[simp] theorem writeKeyMac_ptLen (i : Fin 8) (v : Word) (s : State) : (writeKeyMac i v s).ptLen = s.ptLen := rfl
@[simp] theorem writeKeyMac_msgLen (i : Fin 8) (v : Word) (s : State) : (writeKeyMac i v s).msgLen = s.msgLen := rfl
@[simp] theorem writeKeyMac_version (i : Fin 8) (v : Word) (s : State) :
    (writeKeyMac i v s).version = s.version := rfl
@[simp] theorem writeKeyMac_options (i : Fin 8) (v : Word) (s : State) :
    (writeKeyMac i v s).options = s.options := rfl
@[simp] theorem writeKeyMac_kEnc (i : Fin 8) (v : Word) (s : State) : (writeKeyMac i v s).kEnc = s.kEnc := rfl
@[simp] theorem writeKeyMac_kMac (i : Fin 8) (v : Word) (s : State) : (writeKeyMac i v s).kMac = s.kMac.set i v := rfl
@[simp] theorem writeKeyMac_iv (i : Fin 8) (v : Word) (s : State) : (writeKeyMac i v s).iv = s.iv := rfl
@[simp] theorem writeKeyMac_esalt (i : Fin 8) (v : Word) (s : State) : (writeKeyMac i v s).esalt = s.esalt := rfl
@[simp] theorem writeKeyMac_hsalt (i : Fin 8) (v : Word) (s : State) : (writeKeyMac i v s).hsalt = s.hsalt := rfl
@[simp] theorem writeKeyMac_mkEnc (i : Fin 8) (v : Word) (s : State) : (writeKeyMac i v s).mkEnc = s.mkEnc := rfl
@[simp] theorem writeKeyMac_mkMac (i : Fin 8) (v : Word) (s : State) :
    (writeKeyMac i v s).mkMac = s.mkMac ||| BitVec.twoPow 8 i := rfl
@[simp] theorem writeKeyMac_mkIv (i : Fin 8) (v : Word) (s : State) : (writeKeyMac i v s).mkIv = s.mkIv := rfl
@[simp] theorem writeKeyMac_mkEsalt (i : Fin 8) (v : Word) (s : State) :
    (writeKeyMac i v s).mkEsalt = s.mkEsalt := rfl
@[simp] theorem writeKeyMac_mkHsalt (i : Fin 8) (v : Word) (s : State) :
    (writeKeyMac i v s).mkHsalt = s.mkHsalt := rfl
@[simp] theorem writeKeyMac_parsed (i : Fin 8) (v : Word) (s : State) : (writeKeyMac i v s).parsed = s.parsed := rfl
@[simp] theorem writeKeyMac_pmode (i : Fin 8) (v : Word) (s : State) : (writeKeyMac i v s).pmode = s.pmode := rfl
@[simp] theorem writeKeyMac_latched (i : Fin 8) (v : Word) (s : State) :
    (writeKeyMac i v s).latched = s.latched := rfl
@[simp] theorem writeKeyMac_msgbuf (i : Fin 8) (v : Word) (s : State) : (writeKeyMac i v s).msgbuf = s.msgbuf := rfl
@[simp] theorem writeKeyMac_ptbuf (i : Fin 8) (v : Word) (s : State) : (writeKeyMac i v s).ptbuf = s.ptbuf := rfl
@[simp] theorem writeKeyMac_cmaxBlocks (i : Fin 8) (v : Word) (s : State) :
    (writeKeyMac i v s).cmaxBlocks = s.cmaxBlocks := rfl
@[simp] theorem writeKeyMac_inbox (i : Fin 8) (v : Word) (s : State) : (writeKeyMac i v s).inbox = s.inbox := rfl
@[simp] theorem writeKeyMac_busOut (i : Fin 8) (v : Word) (s : State) : (writeKeyMac i v s).busOut = s.busOut := rfl
@[simp] theorem writeKeyMac_cmax (i : Fin 8) (v : Word) (s : State) : (writeKeyMac i v s).cmax = s.cmax := rfl

/-! ### writeIv -/

@[simp] theorem writeIv_busy (i : Fin 4) (v : Word) (s : State) : (writeIv i v s).busy = s.busy := rfl
@[simp] theorem writeIv_done (i : Fin 4) (v : Word) (s : State) : (writeIv i v s).done = s.done := rfl
@[simp] theorem writeIv_wbusy (i : Fin 4) (v : Word) (s : State) : (writeIv i v s).wbusy = s.wbusy := rfl
@[simp] theorem writeIv_outValid (i : Fin 4) (v : Word) (s : State) : (writeIv i v s).outValid = s.outValid := rfl
@[simp] theorem writeIv_errCode (i : Fin 4) (v : Word) (s : State) : (writeIv i v s).errCode = s.errCode := rfl
@[simp] theorem writeIv_irqEn (i : Fin 4) (v : Word) (s : State) : (writeIv i v s).irqEn = s.irqEn := rfl
@[simp] theorem writeIv_ptLen (i : Fin 4) (v : Word) (s : State) : (writeIv i v s).ptLen = s.ptLen := rfl
@[simp] theorem writeIv_msgLen (i : Fin 4) (v : Word) (s : State) : (writeIv i v s).msgLen = s.msgLen := rfl
@[simp] theorem writeIv_version (i : Fin 4) (v : Word) (s : State) : (writeIv i v s).version = s.version := rfl
@[simp] theorem writeIv_options (i : Fin 4) (v : Word) (s : State) : (writeIv i v s).options = s.options := rfl
@[simp] theorem writeIv_kEnc (i : Fin 4) (v : Word) (s : State) : (writeIv i v s).kEnc = s.kEnc := rfl
@[simp] theorem writeIv_kMac (i : Fin 4) (v : Word) (s : State) : (writeIv i v s).kMac = s.kMac := rfl
@[simp] theorem writeIv_iv (i : Fin 4) (v : Word) (s : State) : (writeIv i v s).iv = s.iv.set i v := rfl
@[simp] theorem writeIv_esalt (i : Fin 4) (v : Word) (s : State) : (writeIv i v s).esalt = s.esalt := rfl
@[simp] theorem writeIv_hsalt (i : Fin 4) (v : Word) (s : State) : (writeIv i v s).hsalt = s.hsalt := rfl
@[simp] theorem writeIv_mkEnc (i : Fin 4) (v : Word) (s : State) : (writeIv i v s).mkEnc = s.mkEnc := rfl
@[simp] theorem writeIv_mkMac (i : Fin 4) (v : Word) (s : State) : (writeIv i v s).mkMac = s.mkMac := rfl
@[simp] theorem writeIv_mkIv (i : Fin 4) (v : Word) (s : State) :
    (writeIv i v s).mkIv = s.mkIv ||| BitVec.twoPow 4 i := rfl
@[simp] theorem writeIv_mkEsalt (i : Fin 4) (v : Word) (s : State) : (writeIv i v s).mkEsalt = s.mkEsalt := rfl
@[simp] theorem writeIv_mkHsalt (i : Fin 4) (v : Word) (s : State) : (writeIv i v s).mkHsalt = s.mkHsalt := rfl
@[simp] theorem writeIv_parsed (i : Fin 4) (v : Word) (s : State) : (writeIv i v s).parsed = false := rfl
@[simp] theorem writeIv_pmode (i : Fin 4) (v : Word) (s : State) : (writeIv i v s).pmode = false := rfl
@[simp] theorem writeIv_latched (i : Fin 4) (v : Word) (s : State) : (writeIv i v s).latched = s.latched := rfl
@[simp] theorem writeIv_msgbuf (i : Fin 4) (v : Word) (s : State) : (writeIv i v s).msgbuf = s.msgbuf := rfl
@[simp] theorem writeIv_ptbuf (i : Fin 4) (v : Word) (s : State) : (writeIv i v s).ptbuf = s.ptbuf := rfl
@[simp] theorem writeIv_cmaxBlocks (i : Fin 4) (v : Word) (s : State) :
    (writeIv i v s).cmaxBlocks = s.cmaxBlocks := rfl
@[simp] theorem writeIv_inbox (i : Fin 4) (v : Word) (s : State) : (writeIv i v s).inbox = s.inbox := rfl
@[simp] theorem writeIv_busOut (i : Fin 4) (v : Word) (s : State) : (writeIv i v s).busOut = s.busOut := rfl
@[simp] theorem writeIv_cmax (i : Fin 4) (v : Word) (s : State) : (writeIv i v s).cmax = s.cmax := rfl

/-! ### writeEsalt -/

@[simp] theorem writeEsalt_busy (i : Fin 2) (v : Word) (s : State) : (writeEsalt i v s).busy = s.busy := rfl
@[simp] theorem writeEsalt_done (i : Fin 2) (v : Word) (s : State) : (writeEsalt i v s).done = s.done := rfl
@[simp] theorem writeEsalt_wbusy (i : Fin 2) (v : Word) (s : State) : (writeEsalt i v s).wbusy = s.wbusy := rfl
@[simp] theorem writeEsalt_outValid (i : Fin 2) (v : Word) (s : State) :
    (writeEsalt i v s).outValid = s.outValid := rfl
@[simp] theorem writeEsalt_errCode (i : Fin 2) (v : Word) (s : State) : (writeEsalt i v s).errCode = s.errCode := rfl
@[simp] theorem writeEsalt_irqEn (i : Fin 2) (v : Word) (s : State) : (writeEsalt i v s).irqEn = s.irqEn := rfl
@[simp] theorem writeEsalt_ptLen (i : Fin 2) (v : Word) (s : State) : (writeEsalt i v s).ptLen = s.ptLen := rfl
@[simp] theorem writeEsalt_msgLen (i : Fin 2) (v : Word) (s : State) : (writeEsalt i v s).msgLen = s.msgLen := rfl
@[simp] theorem writeEsalt_version (i : Fin 2) (v : Word) (s : State) : (writeEsalt i v s).version = s.version := rfl
@[simp] theorem writeEsalt_options (i : Fin 2) (v : Word) (s : State) : (writeEsalt i v s).options = s.options := rfl
@[simp] theorem writeEsalt_kEnc (i : Fin 2) (v : Word) (s : State) : (writeEsalt i v s).kEnc = s.kEnc := rfl
@[simp] theorem writeEsalt_kMac (i : Fin 2) (v : Word) (s : State) : (writeEsalt i v s).kMac = s.kMac := rfl
@[simp] theorem writeEsalt_iv (i : Fin 2) (v : Word) (s : State) : (writeEsalt i v s).iv = s.iv := rfl
@[simp] theorem writeEsalt_esalt (i : Fin 2) (v : Word) (s : State) :
    (writeEsalt i v s).esalt = s.esalt.set i v := rfl
@[simp] theorem writeEsalt_hsalt (i : Fin 2) (v : Word) (s : State) : (writeEsalt i v s).hsalt = s.hsalt := rfl
@[simp] theorem writeEsalt_mkEnc (i : Fin 2) (v : Word) (s : State) : (writeEsalt i v s).mkEnc = s.mkEnc := rfl
@[simp] theorem writeEsalt_mkMac (i : Fin 2) (v : Word) (s : State) : (writeEsalt i v s).mkMac = s.mkMac := rfl
@[simp] theorem writeEsalt_mkIv (i : Fin 2) (v : Word) (s : State) : (writeEsalt i v s).mkIv = s.mkIv := rfl
@[simp] theorem writeEsalt_mkEsalt (i : Fin 2) (v : Word) (s : State) :
    (writeEsalt i v s).mkEsalt = s.mkEsalt ||| BitVec.twoPow 2 i := rfl
@[simp] theorem writeEsalt_mkHsalt (i : Fin 2) (v : Word) (s : State) : (writeEsalt i v s).mkHsalt = s.mkHsalt := rfl
@[simp] theorem writeEsalt_parsed (i : Fin 2) (v : Word) (s : State) : (writeEsalt i v s).parsed = false := rfl
@[simp] theorem writeEsalt_pmode (i : Fin 2) (v : Word) (s : State) : (writeEsalt i v s).pmode = false := rfl
@[simp] theorem writeEsalt_latched (i : Fin 2) (v : Word) (s : State) : (writeEsalt i v s).latched = s.latched := rfl
@[simp] theorem writeEsalt_msgbuf (i : Fin 2) (v : Word) (s : State) : (writeEsalt i v s).msgbuf = s.msgbuf := rfl
@[simp] theorem writeEsalt_ptbuf (i : Fin 2) (v : Word) (s : State) : (writeEsalt i v s).ptbuf = s.ptbuf := rfl
@[simp] theorem writeEsalt_cmaxBlocks (i : Fin 2) (v : Word) (s : State) :
    (writeEsalt i v s).cmaxBlocks = s.cmaxBlocks := rfl
@[simp] theorem writeEsalt_inbox (i : Fin 2) (v : Word) (s : State) : (writeEsalt i v s).inbox = s.inbox := rfl
@[simp] theorem writeEsalt_busOut (i : Fin 2) (v : Word) (s : State) : (writeEsalt i v s).busOut = s.busOut := rfl
@[simp] theorem writeEsalt_cmax (i : Fin 2) (v : Word) (s : State) : (writeEsalt i v s).cmax = s.cmax := rfl

/-! ### writeHsalt -/

@[simp] theorem writeHsalt_busy (i : Fin 2) (v : Word) (s : State) : (writeHsalt i v s).busy = s.busy := rfl
@[simp] theorem writeHsalt_done (i : Fin 2) (v : Word) (s : State) : (writeHsalt i v s).done = s.done := rfl
@[simp] theorem writeHsalt_wbusy (i : Fin 2) (v : Word) (s : State) : (writeHsalt i v s).wbusy = s.wbusy := rfl
@[simp] theorem writeHsalt_outValid (i : Fin 2) (v : Word) (s : State) :
    (writeHsalt i v s).outValid = s.outValid := rfl
@[simp] theorem writeHsalt_errCode (i : Fin 2) (v : Word) (s : State) : (writeHsalt i v s).errCode = s.errCode := rfl
@[simp] theorem writeHsalt_irqEn (i : Fin 2) (v : Word) (s : State) : (writeHsalt i v s).irqEn = s.irqEn := rfl
@[simp] theorem writeHsalt_ptLen (i : Fin 2) (v : Word) (s : State) : (writeHsalt i v s).ptLen = s.ptLen := rfl
@[simp] theorem writeHsalt_msgLen (i : Fin 2) (v : Word) (s : State) : (writeHsalt i v s).msgLen = s.msgLen := rfl
@[simp] theorem writeHsalt_version (i : Fin 2) (v : Word) (s : State) : (writeHsalt i v s).version = s.version := rfl
@[simp] theorem writeHsalt_options (i : Fin 2) (v : Word) (s : State) : (writeHsalt i v s).options = s.options := rfl
@[simp] theorem writeHsalt_kEnc (i : Fin 2) (v : Word) (s : State) : (writeHsalt i v s).kEnc = s.kEnc := rfl
@[simp] theorem writeHsalt_kMac (i : Fin 2) (v : Word) (s : State) : (writeHsalt i v s).kMac = s.kMac := rfl
@[simp] theorem writeHsalt_iv (i : Fin 2) (v : Word) (s : State) : (writeHsalt i v s).iv = s.iv := rfl
@[simp] theorem writeHsalt_esalt (i : Fin 2) (v : Word) (s : State) : (writeHsalt i v s).esalt = s.esalt := rfl
@[simp] theorem writeHsalt_hsalt (i : Fin 2) (v : Word) (s : State) :
    (writeHsalt i v s).hsalt = s.hsalt.set i v := rfl
@[simp] theorem writeHsalt_mkEnc (i : Fin 2) (v : Word) (s : State) : (writeHsalt i v s).mkEnc = s.mkEnc := rfl
@[simp] theorem writeHsalt_mkMac (i : Fin 2) (v : Word) (s : State) : (writeHsalt i v s).mkMac = s.mkMac := rfl
@[simp] theorem writeHsalt_mkIv (i : Fin 2) (v : Word) (s : State) : (writeHsalt i v s).mkIv = s.mkIv := rfl
@[simp] theorem writeHsalt_mkEsalt (i : Fin 2) (v : Word) (s : State) : (writeHsalt i v s).mkEsalt = s.mkEsalt := rfl
@[simp] theorem writeHsalt_mkHsalt (i : Fin 2) (v : Word) (s : State) :
    (writeHsalt i v s).mkHsalt = s.mkHsalt ||| BitVec.twoPow 2 i := rfl
@[simp] theorem writeHsalt_parsed (i : Fin 2) (v : Word) (s : State) : (writeHsalt i v s).parsed = false := rfl
@[simp] theorem writeHsalt_pmode (i : Fin 2) (v : Word) (s : State) : (writeHsalt i v s).pmode = false := rfl
@[simp] theorem writeHsalt_latched (i : Fin 2) (v : Word) (s : State) : (writeHsalt i v s).latched = s.latched := rfl
@[simp] theorem writeHsalt_msgbuf (i : Fin 2) (v : Word) (s : State) : (writeHsalt i v s).msgbuf = s.msgbuf := rfl
@[simp] theorem writeHsalt_ptbuf (i : Fin 2) (v : Word) (s : State) : (writeHsalt i v s).ptbuf = s.ptbuf := rfl
@[simp] theorem writeHsalt_cmaxBlocks (i : Fin 2) (v : Word) (s : State) :
    (writeHsalt i v s).cmaxBlocks = s.cmaxBlocks := rfl
@[simp] theorem writeHsalt_inbox (i : Fin 2) (v : Word) (s : State) : (writeHsalt i v s).inbox = s.inbox := rfl
@[simp] theorem writeHsalt_busOut (i : Fin 2) (v : Word) (s : State) : (writeHsalt i v s).busOut = s.busOut := rfl
@[simp] theorem writeHsalt_cmax (i : Fin 2) (v : Word) (s : State) : (writeHsalt i v s).cmax = s.cmax := rfl

/-! ### writeMsgWord -/

@[simp] theorem writeMsgWord_busy (j : Nat) (v : Word) (s : State) : (writeMsgWord j v s).busy = s.busy := rfl
@[simp] theorem writeMsgWord_done (j : Nat) (v : Word) (s : State) : (writeMsgWord j v s).done = s.done := rfl
@[simp] theorem writeMsgWord_wbusy (j : Nat) (v : Word) (s : State) : (writeMsgWord j v s).wbusy = s.wbusy := rfl
@[simp] theorem writeMsgWord_outValid (j : Nat) (v : Word) (s : State) :
    (writeMsgWord j v s).outValid = s.outValid := rfl
@[simp] theorem writeMsgWord_errCode (j : Nat) (v : Word) (s : State) :
    (writeMsgWord j v s).errCode = s.errCode := rfl
@[simp] theorem writeMsgWord_irqEn (j : Nat) (v : Word) (s : State) : (writeMsgWord j v s).irqEn = s.irqEn := rfl
@[simp] theorem writeMsgWord_ptLen (j : Nat) (v : Word) (s : State) : (writeMsgWord j v s).ptLen = s.ptLen := rfl
@[simp] theorem writeMsgWord_msgLen (j : Nat) (v : Word) (s : State) : (writeMsgWord j v s).msgLen = s.msgLen := rfl
@[simp] theorem writeMsgWord_version (j : Nat) (v : Word) (s : State) :
    (writeMsgWord j v s).version = s.version := rfl
@[simp] theorem writeMsgWord_options (j : Nat) (v : Word) (s : State) :
    (writeMsgWord j v s).options = s.options := rfl
@[simp] theorem writeMsgWord_kEnc (j : Nat) (v : Word) (s : State) : (writeMsgWord j v s).kEnc = s.kEnc := rfl
@[simp] theorem writeMsgWord_kMac (j : Nat) (v : Word) (s : State) : (writeMsgWord j v s).kMac = s.kMac := rfl
@[simp] theorem writeMsgWord_iv (j : Nat) (v : Word) (s : State) : (writeMsgWord j v s).iv = s.iv := rfl
@[simp] theorem writeMsgWord_esalt (j : Nat) (v : Word) (s : State) : (writeMsgWord j v s).esalt = s.esalt := rfl
@[simp] theorem writeMsgWord_hsalt (j : Nat) (v : Word) (s : State) : (writeMsgWord j v s).hsalt = s.hsalt := rfl
@[simp] theorem writeMsgWord_mkEnc (j : Nat) (v : Word) (s : State) : (writeMsgWord j v s).mkEnc = s.mkEnc := rfl
@[simp] theorem writeMsgWord_mkMac (j : Nat) (v : Word) (s : State) : (writeMsgWord j v s).mkMac = s.mkMac := rfl
@[simp] theorem writeMsgWord_mkIv (j : Nat) (v : Word) (s : State) : (writeMsgWord j v s).mkIv = s.mkIv := rfl
@[simp] theorem writeMsgWord_mkEsalt (j : Nat) (v : Word) (s : State) :
    (writeMsgWord j v s).mkEsalt = s.mkEsalt := rfl
@[simp] theorem writeMsgWord_mkHsalt (j : Nat) (v : Word) (s : State) :
    (writeMsgWord j v s).mkHsalt = s.mkHsalt := rfl
@[simp] theorem writeMsgWord_parsed (j : Nat) (v : Word) (s : State) : (writeMsgWord j v s).parsed = false := rfl
@[simp] theorem writeMsgWord_pmode (j : Nat) (v : Word) (s : State) : (writeMsgWord j v s).pmode = false := rfl
@[simp] theorem writeMsgWord_latched (j : Nat) (v : Word) (s : State) :
    (writeMsgWord j v s).latched = s.latched := rfl
@[simp] theorem writeMsgWord_msgbuf (j : Nat) (v : Word) (s : State) :
    (writeMsgWord j v s).msgbuf = s.msgbuf.writeWord j v := rfl
@[simp] theorem writeMsgWord_ptbuf (j : Nat) (v : Word) (s : State) : (writeMsgWord j v s).ptbuf = s.ptbuf := rfl
@[simp] theorem writeMsgWord_cmaxBlocks (j : Nat) (v : Word) (s : State) :
    (writeMsgWord j v s).cmaxBlocks = s.cmaxBlocks := rfl
@[simp] theorem writeMsgWord_inbox (j : Nat) (v : Word) (s : State) : (writeMsgWord j v s).inbox = s.inbox := rfl
@[simp] theorem writeMsgWord_busOut (j : Nat) (v : Word) (s : State) : (writeMsgWord j v s).busOut = s.busOut := rfl
@[simp] theorem writeMsgWord_cmax (j : Nat) (v : Word) (s : State) : (writeMsgWord j v s).cmax = s.cmax := rfl

/-! ### writePtWord -/

@[simp] theorem writePtWord_busy (j : Nat) (v : Word) (s : State) : (writePtWord j v s).busy = s.busy := rfl
@[simp] theorem writePtWord_done (j : Nat) (v : Word) (s : State) : (writePtWord j v s).done = s.done := rfl
@[simp] theorem writePtWord_wbusy (j : Nat) (v : Word) (s : State) : (writePtWord j v s).wbusy = s.wbusy := rfl
@[simp] theorem writePtWord_outValid (j : Nat) (v : Word) (s : State) :
    (writePtWord j v s).outValid = s.outValid := rfl
@[simp] theorem writePtWord_errCode (j : Nat) (v : Word) (s : State) : (writePtWord j v s).errCode = s.errCode := rfl
@[simp] theorem writePtWord_irqEn (j : Nat) (v : Word) (s : State) : (writePtWord j v s).irqEn = s.irqEn := rfl
@[simp] theorem writePtWord_ptLen (j : Nat) (v : Word) (s : State) : (writePtWord j v s).ptLen = s.ptLen := rfl
@[simp] theorem writePtWord_msgLen (j : Nat) (v : Word) (s : State) : (writePtWord j v s).msgLen = s.msgLen := rfl
@[simp] theorem writePtWord_version (j : Nat) (v : Word) (s : State) : (writePtWord j v s).version = s.version := rfl
@[simp] theorem writePtWord_options (j : Nat) (v : Word) (s : State) : (writePtWord j v s).options = s.options := rfl
@[simp] theorem writePtWord_kEnc (j : Nat) (v : Word) (s : State) : (writePtWord j v s).kEnc = s.kEnc := rfl
@[simp] theorem writePtWord_kMac (j : Nat) (v : Word) (s : State) : (writePtWord j v s).kMac = s.kMac := rfl
@[simp] theorem writePtWord_iv (j : Nat) (v : Word) (s : State) : (writePtWord j v s).iv = s.iv := rfl
@[simp] theorem writePtWord_esalt (j : Nat) (v : Word) (s : State) : (writePtWord j v s).esalt = s.esalt := rfl
@[simp] theorem writePtWord_hsalt (j : Nat) (v : Word) (s : State) : (writePtWord j v s).hsalt = s.hsalt := rfl
@[simp] theorem writePtWord_mkEnc (j : Nat) (v : Word) (s : State) : (writePtWord j v s).mkEnc = s.mkEnc := rfl
@[simp] theorem writePtWord_mkMac (j : Nat) (v : Word) (s : State) : (writePtWord j v s).mkMac = s.mkMac := rfl
@[simp] theorem writePtWord_mkIv (j : Nat) (v : Word) (s : State) : (writePtWord j v s).mkIv = s.mkIv := rfl
@[simp] theorem writePtWord_mkEsalt (j : Nat) (v : Word) (s : State) : (writePtWord j v s).mkEsalt = s.mkEsalt := rfl
@[simp] theorem writePtWord_mkHsalt (j : Nat) (v : Word) (s : State) : (writePtWord j v s).mkHsalt = s.mkHsalt := rfl
@[simp] theorem writePtWord_parsed (j : Nat) (v : Word) (s : State) : (writePtWord j v s).parsed = s.parsed := rfl
@[simp] theorem writePtWord_pmode (j : Nat) (v : Word) (s : State) : (writePtWord j v s).pmode = s.pmode := rfl
@[simp] theorem writePtWord_latched (j : Nat) (v : Word) (s : State) : (writePtWord j v s).latched = s.latched := rfl
@[simp] theorem writePtWord_msgbuf (j : Nat) (v : Word) (s : State) : (writePtWord j v s).msgbuf = s.msgbuf := rfl
@[simp] theorem writePtWord_ptbuf (j : Nat) (v : Word) (s : State) :
    (writePtWord j v s).ptbuf = s.ptbuf.writeWord j v := rfl
@[simp] theorem writePtWord_cmaxBlocks (j : Nat) (v : Word) (s : State) :
    (writePtWord j v s).cmaxBlocks = s.cmaxBlocks := rfl
@[simp] theorem writePtWord_inbox (j : Nat) (v : Word) (s : State) : (writePtWord j v s).inbox = s.inbox := rfl
@[simp] theorem writePtWord_busOut (j : Nat) (v : Word) (s : State) : (writePtWord j v s).busOut = s.busOut := rfl
@[simp] theorem writePtWord_cmax (j : Nat) (v : Word) (s : State) : (writePtWord j v s).cmax = s.cmax := rfl

/-! ### respond -/

@[simp] theorem respond_busy (r : BusResponse) (s : State) : (respond r s).busy = s.busy := rfl
@[simp] theorem respond_done (r : BusResponse) (s : State) : (respond r s).done = s.done := rfl
@[simp] theorem respond_wbusy (r : BusResponse) (s : State) : (respond r s).wbusy = s.wbusy := rfl
@[simp] theorem respond_outValid (r : BusResponse) (s : State) : (respond r s).outValid = s.outValid := rfl
@[simp] theorem respond_errCode (r : BusResponse) (s : State) : (respond r s).errCode = s.errCode := rfl
@[simp] theorem respond_irqEn (r : BusResponse) (s : State) : (respond r s).irqEn = s.irqEn := rfl
@[simp] theorem respond_ptLen (r : BusResponse) (s : State) : (respond r s).ptLen = s.ptLen := rfl
@[simp] theorem respond_msgLen (r : BusResponse) (s : State) : (respond r s).msgLen = s.msgLen := rfl
@[simp] theorem respond_version (r : BusResponse) (s : State) : (respond r s).version = s.version := rfl
@[simp] theorem respond_options (r : BusResponse) (s : State) : (respond r s).options = s.options := rfl
@[simp] theorem respond_kEnc (r : BusResponse) (s : State) : (respond r s).kEnc = s.kEnc := rfl
@[simp] theorem respond_kMac (r : BusResponse) (s : State) : (respond r s).kMac = s.kMac := rfl
@[simp] theorem respond_iv (r : BusResponse) (s : State) : (respond r s).iv = s.iv := rfl
@[simp] theorem respond_esalt (r : BusResponse) (s : State) : (respond r s).esalt = s.esalt := rfl
@[simp] theorem respond_hsalt (r : BusResponse) (s : State) : (respond r s).hsalt = s.hsalt := rfl
@[simp] theorem respond_mkEnc (r : BusResponse) (s : State) : (respond r s).mkEnc = s.mkEnc := rfl
@[simp] theorem respond_mkMac (r : BusResponse) (s : State) : (respond r s).mkMac = s.mkMac := rfl
@[simp] theorem respond_mkIv (r : BusResponse) (s : State) : (respond r s).mkIv = s.mkIv := rfl
@[simp] theorem respond_mkEsalt (r : BusResponse) (s : State) : (respond r s).mkEsalt = s.mkEsalt := rfl
@[simp] theorem respond_mkHsalt (r : BusResponse) (s : State) : (respond r s).mkHsalt = s.mkHsalt := rfl
@[simp] theorem respond_parsed (r : BusResponse) (s : State) : (respond r s).parsed = s.parsed := rfl
@[simp] theorem respond_pmode (r : BusResponse) (s : State) : (respond r s).pmode = s.pmode := rfl
@[simp] theorem respond_latched (r : BusResponse) (s : State) : (respond r s).latched = s.latched := rfl
@[simp] theorem respond_msgbuf (r : BusResponse) (s : State) : (respond r s).msgbuf = s.msgbuf := rfl
@[simp] theorem respond_ptbuf (r : BusResponse) (s : State) : (respond r s).ptbuf = s.ptbuf := rfl
@[simp] theorem respond_cmaxBlocks (r : BusResponse) (s : State) : (respond r s).cmaxBlocks = s.cmaxBlocks := rfl
@[simp] theorem respond_inbox (r : BusResponse) (s : State) : (respond r s).inbox = s.inbox := rfl
@[simp] theorem respond_busOut (r : BusResponse) (s : State) : (respond r s).busOut = some r := rfl
@[simp] theorem respond_cmax (r : BusResponse) (s : State) : (respond r s).cmax = s.cmax := rfl

/-! ### takeEvent -/

@[simp] theorem takeEvent_busy (s : State) : (takeEvent s).busy = s.busy := rfl
@[simp] theorem takeEvent_done (s : State) : (takeEvent s).done = s.done := rfl
@[simp] theorem takeEvent_wbusy (s : State) : (takeEvent s).wbusy = s.wbusy := rfl
@[simp] theorem takeEvent_outValid (s : State) : (takeEvent s).outValid = s.outValid := rfl
@[simp] theorem takeEvent_errCode (s : State) : (takeEvent s).errCode = s.errCode := rfl
@[simp] theorem takeEvent_irqEn (s : State) : (takeEvent s).irqEn = s.irqEn := rfl
@[simp] theorem takeEvent_ptLen (s : State) : (takeEvent s).ptLen = s.ptLen := rfl
@[simp] theorem takeEvent_msgLen (s : State) : (takeEvent s).msgLen = s.msgLen := rfl
@[simp] theorem takeEvent_version (s : State) : (takeEvent s).version = s.version := rfl
@[simp] theorem takeEvent_options (s : State) : (takeEvent s).options = s.options := rfl
@[simp] theorem takeEvent_kEnc (s : State) : (takeEvent s).kEnc = s.kEnc := rfl
@[simp] theorem takeEvent_kMac (s : State) : (takeEvent s).kMac = s.kMac := rfl
@[simp] theorem takeEvent_iv (s : State) : (takeEvent s).iv = s.iv := rfl
@[simp] theorem takeEvent_esalt (s : State) : (takeEvent s).esalt = s.esalt := rfl
@[simp] theorem takeEvent_hsalt (s : State) : (takeEvent s).hsalt = s.hsalt := rfl
@[simp] theorem takeEvent_mkEnc (s : State) : (takeEvent s).mkEnc = s.mkEnc := rfl
@[simp] theorem takeEvent_mkMac (s : State) : (takeEvent s).mkMac = s.mkMac := rfl
@[simp] theorem takeEvent_mkIv (s : State) : (takeEvent s).mkIv = s.mkIv := rfl
@[simp] theorem takeEvent_mkEsalt (s : State) : (takeEvent s).mkEsalt = s.mkEsalt := rfl
@[simp] theorem takeEvent_mkHsalt (s : State) : (takeEvent s).mkHsalt = s.mkHsalt := rfl
@[simp] theorem takeEvent_parsed (s : State) : (takeEvent s).parsed = s.parsed := rfl
@[simp] theorem takeEvent_pmode (s : State) : (takeEvent s).pmode = s.pmode := rfl
@[simp] theorem takeEvent_latched (s : State) : (takeEvent s).latched = s.latched := rfl
@[simp] theorem takeEvent_msgbuf (s : State) : (takeEvent s).msgbuf = s.msgbuf := rfl
@[simp] theorem takeEvent_ptbuf (s : State) : (takeEvent s).ptbuf = s.ptbuf := rfl
@[simp] theorem takeEvent_cmaxBlocks (s : State) : (takeEvent s).cmaxBlocks = s.cmaxBlocks := rfl
@[simp] theorem takeEvent_inbox (s : State) : (takeEvent s).inbox = s.inbox.tail := rfl
@[simp] theorem takeEvent_busOut (s : State) : (takeEvent s).busOut = s.busOut := rfl
@[simp] theorem takeEvent_cmax (s : State) : (takeEvent s).cmax = s.cmax := rfl

/-! ### applyReset -/

@[simp] theorem applyReset_busy (s : State) : (applyReset s).busy = false := rfl
@[simp] theorem applyReset_done (s : State) : (applyReset s).done = false := rfl
@[simp] theorem applyReset_wbusy (s : State) : (applyReset s).wbusy = false := rfl
@[simp] theorem applyReset_outValid (s : State) : (applyReset s).outValid = false := rfl
@[simp] theorem applyReset_errCode (s : State) : (applyReset s).errCode = 0 := rfl
@[simp] theorem applyReset_irqEn (s : State) : (applyReset s).irqEn = false := rfl
@[simp] theorem applyReset_ptLen (s : State) : (applyReset s).ptLen = 0 := rfl
@[simp] theorem applyReset_msgLen (s : State) : (applyReset s).msgLen = 0 := rfl
@[simp] theorem applyReset_version (s : State) : (applyReset s).version = 0 := rfl
@[simp] theorem applyReset_options (s : State) : (applyReset s).options = 0 := rfl
@[simp] theorem applyReset_kEnc (s : State) : (applyReset s).kEnc = Vector.replicate 8 0 := rfl
@[simp] theorem applyReset_kMac (s : State) : (applyReset s).kMac = Vector.replicate 8 0 := rfl
@[simp] theorem applyReset_iv (s : State) : (applyReset s).iv = Vector.replicate 4 0 := rfl
@[simp] theorem applyReset_esalt (s : State) : (applyReset s).esalt = Vector.replicate 2 0 := rfl
@[simp] theorem applyReset_hsalt (s : State) : (applyReset s).hsalt = Vector.replicate 2 0 := rfl
@[simp] theorem applyReset_mkEnc (s : State) : (applyReset s).mkEnc = 0 := rfl
@[simp] theorem applyReset_mkMac (s : State) : (applyReset s).mkMac = 0 := rfl
@[simp] theorem applyReset_mkIv (s : State) : (applyReset s).mkIv = 0 := rfl
@[simp] theorem applyReset_mkEsalt (s : State) : (applyReset s).mkEsalt = 0 := rfl
@[simp] theorem applyReset_mkHsalt (s : State) : (applyReset s).mkHsalt = 0 := rfl
@[simp] theorem applyReset_parsed (s : State) : (applyReset s).parsed = false := rfl
@[simp] theorem applyReset_pmode (s : State) : (applyReset s).pmode = false := rfl
@[simp] theorem applyReset_latched (s : State) : (applyReset s).latched = none := rfl
@[simp] theorem applyReset_msgbuf (s : State) : (applyReset s).msgbuf = [] := rfl
@[simp] theorem applyReset_ptbuf (s : State) : (applyReset s).ptbuf = [] := rfl
@[simp] theorem applyReset_cmaxBlocks (s : State) : (applyReset s).cmaxBlocks = s.cmaxBlocks := rfl
@[simp] theorem applyReset_inbox (s : State) : (applyReset s).inbox = s.inbox := rfl
@[simp] theorem applyReset_busOut (s : State) : (applyReset s).busOut = none := rfl
@[simp] theorem applyReset_cmax (s : State) : (applyReset s).cmax = s.cmax := rfl

/-! ### presentCommand -/

@[simp] theorem presentCommand_busy (w : Word) (s : State) : (presentCommand w s).busy = true := rfl
@[simp] theorem presentCommand_done (w : Word) (s : State) : (presentCommand w s).done = false := rfl
@[simp] theorem presentCommand_wbusy (w : Word) (s : State) : (presentCommand w s).wbusy = s.wbusy := rfl
@[simp] theorem presentCommand_outValid (w : Word) (s : State) : (presentCommand w s).outValid = s.outValid := rfl
@[simp] theorem presentCommand_errCode (w : Word) (s : State) : (presentCommand w s).errCode = 0 := rfl
@[simp] theorem presentCommand_irqEn (w : Word) (s : State) : (presentCommand w s).irqEn = s.irqEn := rfl
@[simp] theorem presentCommand_ptLen (w : Word) (s : State) : (presentCommand w s).ptLen = s.ptLen := rfl
@[simp] theorem presentCommand_msgLen (w : Word) (s : State) : (presentCommand w s).msgLen = s.msgLen := rfl
@[simp] theorem presentCommand_version (w : Word) (s : State) : (presentCommand w s).version = s.version := rfl
@[simp] theorem presentCommand_options (w : Word) (s : State) : (presentCommand w s).options = s.options := rfl
@[simp] theorem presentCommand_kEnc (w : Word) (s : State) : (presentCommand w s).kEnc = s.kEnc := rfl
@[simp] theorem presentCommand_kMac (w : Word) (s : State) : (presentCommand w s).kMac = s.kMac := rfl
@[simp] theorem presentCommand_iv (w : Word) (s : State) : (presentCommand w s).iv = s.iv := rfl
@[simp] theorem presentCommand_esalt (w : Word) (s : State) : (presentCommand w s).esalt = s.esalt := rfl
@[simp] theorem presentCommand_hsalt (w : Word) (s : State) : (presentCommand w s).hsalt = s.hsalt := rfl
@[simp] theorem presentCommand_mkEnc (w : Word) (s : State) : (presentCommand w s).mkEnc = s.mkEnc := rfl
@[simp] theorem presentCommand_mkMac (w : Word) (s : State) : (presentCommand w s).mkMac = s.mkMac := rfl
@[simp] theorem presentCommand_mkIv (w : Word) (s : State) : (presentCommand w s).mkIv = s.mkIv := rfl
@[simp] theorem presentCommand_mkEsalt (w : Word) (s : State) : (presentCommand w s).mkEsalt = s.mkEsalt := rfl
@[simp] theorem presentCommand_mkHsalt (w : Word) (s : State) : (presentCommand w s).mkHsalt = s.mkHsalt := rfl
@[simp] theorem presentCommand_parsed (w : Word) (s : State) : (presentCommand w s).parsed = s.parsed := rfl
@[simp] theorem presentCommand_pmode (w : Word) (s : State) : (presentCommand w s).pmode = s.pmode := rfl
@[simp] theorem presentCommand_latched (w : Word) (s : State) : (presentCommand w s).latched = some w := rfl
@[simp] theorem presentCommand_msgbuf (w : Word) (s : State) : (presentCommand w s).msgbuf = s.msgbuf := rfl
@[simp] theorem presentCommand_ptbuf (w : Word) (s : State) : (presentCommand w s).ptbuf = s.ptbuf := rfl
@[simp] theorem presentCommand_cmaxBlocks (w : Word) (s : State) :
    (presentCommand w s).cmaxBlocks = s.cmaxBlocks := rfl
@[simp] theorem presentCommand_inbox (w : Word) (s : State) :
    (presentCommand w s).inbox = .engineTurn :: s.inbox := rfl
@[simp] theorem presentCommand_busOut (w : Word) (s : State) : (presentCommand w s).busOut = s.busOut := rfl
@[simp] theorem presentCommand_cmax (w : Word) (s : State) : (presentCommand w s).cmax = s.cmax := rfl

/-! ### commit -/

@[simp] theorem commit_busy (c : Instr) (code : ResultCode) (s : State) : (commit c code s).busy = false := rfl
@[simp] theorem commit_done (c : Instr) (code : ResultCode) (s : State) : (commit c code s).done = true := rfl
@[simp] theorem commit_wbusy (c : Instr) (code : ResultCode) (s : State) : (commit c code s).wbusy = s.wbusy := rfl
@[simp] theorem commit_outValid (c : Instr) (code : ResultCode) (s : State) :
    (commit c code s).outValid = (makesOutput c && code == .ok) := rfl
@[simp] theorem commit_errCode (c : Instr) (code : ResultCode) (s : State) :
    (commit c code s).errCode = code.bits := rfl
@[simp] theorem commit_irqEn (c : Instr) (code : ResultCode) (s : State) : (commit c code s).irqEn = s.irqEn := rfl
@[simp] theorem commit_ptLen (c : Instr) (code : ResultCode) (s : State) : (commit c code s).ptLen = s.ptLen := rfl
@[simp] theorem commit_msgLen (c : Instr) (code : ResultCode) (s : State) : (commit c code s).msgLen = s.msgLen := rfl
@[simp] theorem commit_version (c : Instr) (code : ResultCode) (s : State) :
    (commit c code s).version = s.version := rfl
@[simp] theorem commit_options (c : Instr) (code : ResultCode) (s : State) :
    (commit c code s).options = s.options := rfl
@[simp] theorem commit_kEnc (c : Instr) (code : ResultCode) (s : State) :
    (commit c code s).kEnc = if singleUseKeys c then Vector.replicate 8 0 else s.kEnc := rfl
@[simp] theorem commit_kMac (c : Instr) (code : ResultCode) (s : State) :
    (commit c code s).kMac = if singleUseKeys c then Vector.replicate 8 0 else s.kMac := rfl
@[simp] theorem commit_iv (c : Instr) (code : ResultCode) (s : State) : (commit c code s).iv = s.iv := rfl
@[simp] theorem commit_esalt (c : Instr) (code : ResultCode) (s : State) : (commit c code s).esalt = s.esalt := rfl
@[simp] theorem commit_hsalt (c : Instr) (code : ResultCode) (s : State) : (commit c code s).hsalt = s.hsalt := rfl
@[simp] theorem commit_mkEnc (c : Instr) (code : ResultCode) (s : State) :
    (commit c code s).mkEnc = if singleUseKeys c then 0 else s.mkEnc := rfl
@[simp] theorem commit_mkMac (c : Instr) (code : ResultCode) (s : State) :
    (commit c code s).mkMac = if singleUseKeys c then 0 else s.mkMac := rfl
@[simp] theorem commit_mkIv (c : Instr) (code : ResultCode) (s : State) :
    (commit c code s).mkIv = if singleUseIv c then 0 else s.mkIv := rfl
@[simp] theorem commit_mkEsalt (c : Instr) (code : ResultCode) (s : State) :
    (commit c code s).mkEsalt = if singleUseIv c then 0 else s.mkEsalt := rfl
@[simp] theorem commit_mkHsalt (c : Instr) (code : ResultCode) (s : State) :
    (commit c code s).mkHsalt = if singleUseIv c then 0 else s.mkHsalt := rfl
@[simp] theorem commit_parsed (c : Instr) (code : ResultCode) (s : State) :
    (commit c code s).parsed = (isParse c && code == .ok) := rfl
@[simp] theorem commit_pmode (c : Instr) (code : ResultCode) (s : State) :
    (commit c code s).pmode = (isPasswordParse c && code == .ok) := rfl
@[simp] theorem commit_latched (c : Instr) (code : ResultCode) (s : State) : (commit c code s).latched = none := rfl
@[simp] theorem commit_msgbuf (c : Instr) (code : ResultCode) (s : State) : (commit c code s).msgbuf = s.msgbuf := rfl
@[simp] theorem commit_ptbuf (c : Instr) (code : ResultCode) (s : State) : (commit c code s).ptbuf = s.ptbuf := rfl
@[simp] theorem commit_cmaxBlocks (c : Instr) (code : ResultCode) (s : State) :
    (commit c code s).cmaxBlocks = s.cmaxBlocks := rfl
@[simp] theorem commit_inbox (c : Instr) (code : ResultCode) (s : State) : (commit c code s).inbox = s.inbox := rfl
@[simp] theorem commit_busOut (c : Instr) (code : ResultCode) (s : State) : (commit c code s).busOut = s.busOut := rfl
@[simp] theorem commit_cmax (c : Instr) (code : ResultCode) (s : State) : (commit c code s).cmax = s.cmax := rfl

/-! ### resetWith -/

@[simp] theorem resetWith_busy (b : CmaxBlocks) : (State.resetWith b).busy = false := rfl
@[simp] theorem resetWith_done (b : CmaxBlocks) : (State.resetWith b).done = false := rfl
@[simp] theorem resetWith_wbusy (b : CmaxBlocks) : (State.resetWith b).wbusy = false := rfl
@[simp] theorem resetWith_outValid (b : CmaxBlocks) : (State.resetWith b).outValid = false := rfl
@[simp] theorem resetWith_errCode (b : CmaxBlocks) : (State.resetWith b).errCode = 0 := rfl
@[simp] theorem resetWith_irqEn (b : CmaxBlocks) : (State.resetWith b).irqEn = false := rfl
@[simp] theorem resetWith_ptLen (b : CmaxBlocks) : (State.resetWith b).ptLen = 0 := rfl
@[simp] theorem resetWith_msgLen (b : CmaxBlocks) : (State.resetWith b).msgLen = 0 := rfl
@[simp] theorem resetWith_version (b : CmaxBlocks) : (State.resetWith b).version = 0 := rfl
@[simp] theorem resetWith_options (b : CmaxBlocks) : (State.resetWith b).options = 0 := rfl
@[simp] theorem resetWith_kEnc (b : CmaxBlocks) : (State.resetWith b).kEnc = Vector.replicate 8 0 := rfl
@[simp] theorem resetWith_kMac (b : CmaxBlocks) : (State.resetWith b).kMac = Vector.replicate 8 0 := rfl
@[simp] theorem resetWith_iv (b : CmaxBlocks) : (State.resetWith b).iv = Vector.replicate 4 0 := rfl
@[simp] theorem resetWith_esalt (b : CmaxBlocks) : (State.resetWith b).esalt = Vector.replicate 2 0 := rfl
@[simp] theorem resetWith_hsalt (b : CmaxBlocks) : (State.resetWith b).hsalt = Vector.replicate 2 0 := rfl
@[simp] theorem resetWith_mkEnc (b : CmaxBlocks) : (State.resetWith b).mkEnc = 0 := rfl
@[simp] theorem resetWith_mkMac (b : CmaxBlocks) : (State.resetWith b).mkMac = 0 := rfl
@[simp] theorem resetWith_mkIv (b : CmaxBlocks) : (State.resetWith b).mkIv = 0 := rfl
@[simp] theorem resetWith_mkEsalt (b : CmaxBlocks) : (State.resetWith b).mkEsalt = 0 := rfl
@[simp] theorem resetWith_mkHsalt (b : CmaxBlocks) : (State.resetWith b).mkHsalt = 0 := rfl
@[simp] theorem resetWith_parsed (b : CmaxBlocks) : (State.resetWith b).parsed = false := rfl
@[simp] theorem resetWith_pmode (b : CmaxBlocks) : (State.resetWith b).pmode = false := rfl
@[simp] theorem resetWith_latched (b : CmaxBlocks) : (State.resetWith b).latched = none := rfl
@[simp] theorem resetWith_msgbuf (b : CmaxBlocks) : (State.resetWith b).msgbuf = [] := rfl
@[simp] theorem resetWith_ptbuf (b : CmaxBlocks) : (State.resetWith b).ptbuf = [] := rfl
@[simp] theorem resetWith_cmaxBlocks (b : CmaxBlocks) : (State.resetWith b).cmaxBlocks = b := rfl
@[simp] theorem resetWith_inbox (b : CmaxBlocks) : (State.resetWith b).inbox = [] := rfl
@[simp] theorem resetWith_busOut (b : CmaxBlocks) : (State.resetWith b).busOut = none := rfl

end Sys2Proof.Machine
end

