-- ==== Sys2Proof/Laws/Memory.lean ====
section
/-! SUPPORT. The laws of buffers: read after write, the canonical form, sizes, and slices. -/

namespace Sys2Proof.Machine

/-! ## One byte -/

@[simp] theorem Memory.read_nil (a : Nat) : Memory.read [] a = 0 := rfl

@[simp] theorem Memory.read_zeroed (a : Nat) : Memory.zeroed.read a = 0 := rfl

/-- Every listed index of a canonical tail lies above the head. -/
theorem Memory.wf_cons (k : Nat) (b : Byte) (m : Memory) :
    Memory.wf ((k, b) :: m) = true ↔
      b ≠ 0 ∧ (∀ c ∈ m, k < c.1) ∧ Memory.wf m = true := by
  simp [Memory.wf, unlistedByte, and_assoc]

/-- An index at or below every listed one, and not listed, reads the unlisted byte. -/
theorem Memory.read_of_lt (m : Memory) (a : Nat) (h : ∀ c ∈ m, a < c.1) : m.read a = 0 := by
  induction m with
  | nil => rfl
  | cons c m ih =>
    have hc := h c (by simp)
    simp only [Memory.read]
    rw [if_neg (by omega)]
    exact ih fun d hd => h d (by simp [hd])

/-- A read after a write to another index. -/
theorem Memory.read_write_other (m : Memory) (a b : Nat) (v : Byte) (h : b ≠ a) :
    (m.write a v).read b = m.read b := by
  induction m with
  | nil =>
    simp only [Memory.write]
    split <;> simp [Memory.read, unlistedByte, h]
  | cons c m ih =>
    obtain ⟨k, x⟩ := c
    simp only [Memory.write]
    split_ifs with h1 h2 h3 h4
    · rfl
    · simp [Memory.read, h]
    · subst h3; simp [Memory.read, h]
    · subst h3; simp [Memory.read, h]
    · simp only [Memory.read, ih]

/-- A read after a write to the same index of a canonical buffer. -/
theorem Memory.read_write_same (m : Memory) (a : Nat) (v : Byte) (hm : m.wf = true) :
    (m.write a v).read a = v := by
  induction m with
  | nil =>
    simp only [Memory.write]
    split_ifs with h
    · simp [Memory.read, h]
    · simp [Memory.read]
  | cons c m ih =>
    obtain ⟨k, x⟩ := c
    obtain ⟨-, hk, hw⟩ := (Memory.wf_cons k x m).1 hm
    simp only [Memory.write]
    split_ifs with h1 h2 h3 h4
    · rw [h2]
      refine Memory.read_of_lt _ a ?_
      intro d hd
      rcases List.mem_cons.1 hd with rfl | hd
      · exact h1
      · exact Nat.lt_trans h1 (hk d hd)
    · simp [Memory.read]
    · subst h3
      rw [h4]
      exact Memory.read_of_lt _ a hk
    · simp [Memory.read, h3]
    · simp only [Memory.read, if_neg h3, ih hw]

/-- The indices listed after a write are the ones listed before, or the one written. -/
theorem Memory.mem_write (m : Memory) (a : Nat) (v : Byte) (c : Host.Cell) (h : c ∈ m.write a v) :
    c ∈ m ∨ c.1 = a := by
  induction m with
  | nil =>
    simp only [Memory.write] at h
    split_ifs at h <;> simp_all
  | cons d m ih =>
    obtain ⟨k, x⟩ := d
    simp only [Memory.write] at h
    split_ifs at h with h1 h2 h3 h4
    · exact .inl h
    · rcases List.mem_cons.1 h with rfl | h
      · exact .inr rfl
      · exact .inl h
    · exact .inl (List.mem_cons_of_mem _ h)
    · rcases List.mem_cons.1 h with rfl | h
      · exact .inr h3.symm
      · exact .inl (List.mem_cons_of_mem _ h)
    · rcases List.mem_cons.1 h with rfl | h
      · exact .inl (by simp)
      · rcases ih h with h | h
        · exact .inl (List.mem_cons_of_mem _ h)
        · exact .inr h

/-- A write keeps the canonical form. -/
theorem Memory.wf_write (m : Memory) (a : Nat) (v : Byte) (hm : m.wf = true) :
    (m.write a v).wf = true := by
  induction m with
  | nil =>
    simp only [Memory.write]
    split_ifs with h
    · rfl
    · exact (Memory.wf_cons a v []).2 ⟨h, by simp, rfl⟩
  | cons c m ih =>
    obtain ⟨k, x⟩ := c
    obtain ⟨hx, hk, hw⟩ := (Memory.wf_cons k x m).1 hm
    simp only [Memory.write]
    split_ifs with h1 h2 h3 h4
    · exact hm
    · refine (Memory.wf_cons a v _).2 ⟨h2, ?_, hm⟩
      intro d hd
      rcases List.mem_cons.1 hd with rfl | hd
      · exact h1
      · exact Nat.lt_trans h1 (hk d hd)
    · exact hw
    · exact (Memory.wf_cons k v m).2 ⟨h4, hk, hw⟩
    · refine (Memory.wf_cons k x _).2 ⟨hx, ?_, ih hw⟩
      intro d hd
      rcases Memory.mem_write m a v d hd with hd | hd
      · exact hk d hd
      · omega

/-- A write below the size keeps the size. -/
theorem Memory.below_write (n : Nat) (m : Memory) (a : Nat) (v : Byte) (ha : a < n)
    (hm : m.below n = true) : (m.write a v).below n = true := by
  simp only [Memory.below, List.all_eq_true, decide_eq_true_eq] at hm ⊢
  intro c hc
  rcases Memory.mem_write m a v c hc with h | h
  · exact hm c h
  · omega

/-- An index at or above the size reads 0. -/
theorem Memory.read_of_below (n : Nat) (m : Memory) (a : Nat) (ha : n ≤ a) (hm : m.below n = true) :
    m.read a = 0 := by
  induction m with
  | nil => rfl
  | cons c m ih =>
    simp only [Memory.below, List.all_cons, Bool.and_eq_true, decide_eq_true_eq] at hm
    simp only [Memory.read]
    rw [if_neg (by omega)]
    exact ih (by simpa [Memory.below] using hm.2)

/-! ## Byte strings -/

/-- Bytes outside the stored ones are unchanged. -/
theorem Memory.read_writeBytes_other (bs : List Byte) :
    ∀ (m : Memory) (a b : Nat), b < a ∨ a + bs.length ≤ b → (m.writeBytes a bs).read b = m.read b := by
  induction bs with
  | nil => intros; rfl
  | cons x bs ih =>
    intro m a b h
    simp only [List.length_cons] at h
    rw [Memory.writeBytes, ih _ _ _ (by omega), Memory.read_write_other _ _ _ _ (by omega)]

/-- The stored bytes read back. -/
theorem Memory.read_writeBytes (bs : List Byte) :
    ∀ (m : Memory) (a i : Nat), m.wf = true → i < bs.length →
      (m.writeBytes a bs).read (a + i) = bs.getD i 0 := by
  induction bs with
  | nil => intro m a i _ h; simp at h
  | cons x bs ih =>
    intro m a i hm h
    rw [Memory.writeBytes]
    cases i with
    | zero =>
      rw [Memory.read_writeBytes_other _ _ _ _ (by omega)]
      simpa using Memory.read_write_same m a x hm
    | succ i =>
      have h' := ih (m.write a x) (a + 1) i (Memory.wf_write _ _ _ hm) (by simpa using h)
      rw [show a + (i + 1) = a + 1 + i by omega, h']
      simp

/-- Storing a byte string keeps the canonical form. -/
theorem Memory.wf_writeBytes (bs : List Byte) :
    ∀ (m : Memory) (a : Nat), m.wf = true → (m.writeBytes a bs).wf = true := by
  induction bs with
  | nil => intro m a h; exact h
  | cons x bs ih => intro m a h; exact ih _ _ (Memory.wf_write _ _ _ h)

/-- Storing a byte string below the size keeps the size. -/
theorem Memory.below_writeBytes (n : Nat) (bs : List Byte) :
    ∀ (m : Memory) (a : Nat), a + bs.length ≤ n → m.below n = true →
      (m.writeBytes a bs).below n = true := by
  induction bs with
  | nil => intro m a _ h; exact h
  | cons x bs ih =>
    intro m a hn h
    simp only [List.length_cons] at hn
    exact ih _ _ (by omega) (Memory.below_write _ _ _ _ (by omega) h)

@[simp] theorem Memory.length_readBytes (m : Memory) (a n : Nat) : (m.readBytes a n).length = n := by
  induction n generalizing a with
  | zero => rfl
  | succ n ih => simp [Memory.readBytes, ih]

@[simp] theorem Memory.length_slice (m : Memory) (a b : Nat) : (m.slice a b).length = b - a := by
  simp [Memory.slice]

/-- A byte of a slice, by its position. -/
theorem Memory.getD_readBytes (m : Memory) (a n i : Nat) (h : i < n) :
    (m.readBytes a n).getD i 0 = m.read (a + i) := by
  induction n generalizing a i with
  | zero => omega
  | succ n ih =>
    cases i with
    | zero => simp [Memory.readBytes]
    | succ i =>
      simp only [Memory.readBytes, List.getD_cons_succ]
      rw [ih (a + 1) i (by omega), show a + 1 + i = a + (i + 1) by omega]

/-- Two buffers that agree on the bytes of a slice have the same slice. -/
theorem Memory.readBytes_congr (m m' : Memory) (a n : Nat)
    (h : ∀ i, a ≤ i → i < a + n → m.read i = m'.read i) : m.readBytes a n = m'.readBytes a n := by
  induction n generalizing a with
  | zero => rfl
  | succ n ih =>
    simp only [Memory.readBytes]
    rw [h a (by omega) (by omega), ih (a + 1) fun i h1 h2 => h i (by omega) (by omega)]

/-- Storing a slice's worth of bytes makes that slice. -/
theorem Memory.readBytes_writeBytes (bs : List Byte) (m : Memory) (a : Nat) (hm : m.wf = true) :
    (m.writeBytes a bs).readBytes a bs.length = bs := by
  refine List.ext_getElem (by simp) fun i h1 h2 => ?_
  have h := Memory.getD_readBytes (m.writeBytes a bs) a bs.length i h2
  rw [Memory.read_writeBytes bs m a i hm h2] at h
  simpa [List.getD_eq_getElem?_getD, h1, h2] using h

@[simp] theorem Memory.wf_zeroed : Memory.zeroed.wf = true := rfl

@[simp] theorem Memory.below_zeroed (n : Nat) : Memory.zeroed.below n = true := rfl

/-- A buffer of its size with a word stored in it is still one. -/
theorem Memory.fits_writeWord (n : Nat) (m : Memory) (j : Nat) (v : Word) (hj : 4 * j + 4 ≤ n)
    (hm : m.fits n = true) : (m.writeWord j v).fits n = true := by
  simp only [Memory.fits, Bool.and_eq_true] at hm ⊢
  exact ⟨Memory.wf_writeBytes _ _ _ hm.1,
    Memory.below_writeBytes _ _ _ _ (by simpa [bytesBe32] using hj) hm.2⟩

end Sys2Proof.Machine
end

