-- ==== Sys2Proof/Laws/Bytes.lean ====
section
/-! SUPPORT. The laws of byte strings, lanes, blocks and their groupings. -/

namespace Sys2Proof.Machine

/-! ## Lanes -/

@[simp] theorem length_bytesBe32 (w : Word) : (bytesBe32 w).length = 4 := rfl

@[simp] theorem length_rowWords (r : BitVec 256) : (rowWords r).length = 8 := by simp [rowWords]

@[simp] theorem length_shaK : shaK.length = 64 := by simp [shaK, shaKRows]

/-- The lanes of a word put together from bytes are those bytes. -/
theorem bytesBe32_be32 (a b c d : Byte) : bytesBe32 (be32 a b c d) = [a, b, c, d] := by
  simp only [bytesBe32, be32, List.cons.injEq, and_true]
  refine ⟨?_, ?_, ?_, ?_⟩ <;>
    · apply BitVec.eq_of_getLsbD_eq
      intro i hi
      simp only [BitVec.getLsbD_extractLsb', BitVec.getLsbD_append]
      interval_cases i <;> simp

/-- A word put together from its own lanes is itself. -/
theorem be32_lanes (w : Word) :
    be32 (w.extractLsb' 24 8) (w.extractLsb' 16 8) (w.extractLsb' 8 8) (w.extractLsb' 0 8) = w := by
  apply BitVec.eq_of_getLsbD_eq
  intro i hi
  simp only [be32, BitVec.getLsbD_append, BitVec.getLsbD_extractLsb']
  interval_cases i <;> simp

@[simp] theorem length_bytesOfWords (ws : List Word) : (bytesOfWords ws).length = 4 * ws.length := by
  induction ws with
  | nil => rfl
  | cons w ws ih =>
    simp only [bytesOfWords, List.flatMap_cons, List.length_append] at ih ⊢
    rw [ih]; simp; omega

/-- Four bytes at a time, a byte string of 4 n bytes is the one its n words hold. -/
theorem bytesOfWords_ofFn (n : Nat) :
    ∀ bs : List Byte, bs.length = 4 * n →
      bytesOfWords (List.ofFn fun i : Fin n =>
        be32 (bs.getD (4 * i.val) 0) (bs.getD (4 * i.val + 1) 0)
          (bs.getD (4 * i.val + 2) 0) (bs.getD (4 * i.val + 3) 0)) = bs := by
  induction n with
  | zero => intro bs h; simpa [bytesOfWords] using (List.length_eq_zero_iff.1 (by omega : bs.length = 0)).symm
  | succ n ih =>
    intro bs h
    match bs, h with
    | a :: b :: c :: d :: rest, h =>
      have hr : rest.length = 4 * n := by simp only [List.length_cons] at h; omega
      have key := ih rest hr
      simp only [bytesOfWords, List.ofFn_succ, List.flatMap_cons] at key ⊢
      rw [show bytesBe32 (be32 ((a :: b :: c :: d :: rest).getD (4 * (0 : Fin (n + 1)).val) 0)
          ((a :: b :: c :: d :: rest).getD (4 * (0 : Fin (n + 1)).val + 1) 0)
          ((a :: b :: c :: d :: rest).getD (4 * (0 : Fin (n + 1)).val + 2) 0)
          ((a :: b :: c :: d :: rest).getD (4 * (0 : Fin (n + 1)).val + 3) 0)) = [a, b, c, d] from by
        simp [bytesBe32_be32]]
      have hshift : ∀ i : Fin n, ∀ k, (a :: b :: c :: d :: rest).getD (4 * i.succ.val + k) 0
          = rest.getD (4 * i.val + k) 0 := by
        intro i k
        rw [show 4 * i.succ.val + k = 4 * i.val + k + 4 by simp [Fin.val_succ]; omega]
        simp
      have h0 : ∀ i : Fin n, (a :: b :: c :: d :: rest).getD (4 * i.succ.val) 0
          = rest.getD (4 * i.val) 0 := fun i => hshift i 0
      simp only [hshift, h0, key]
      rfl

/-- The words of a byte string hold that byte string. -/
theorem bytesOfWords_wordsOfBytes (n : Nat) (bs : List Byte) (h : bs.length = 4 * n) :
    bytesOfWords (wordsOfBytes n bs).toList = bs := by
  have := bytesOfWords_ofFn n bs h
  simpa [wordsOfBytes, Vector.toList_ofFn] using this

@[simp] theorem length_zeros (n : Nat) : (zeros n).length = n := by simp [zeros, bytesN]

@[simp] theorem length_bytesN (n : Nat) (v : Byte) : (bytesN n v).length = n := by simp [bytesN]

/-! ## Blocks -/

@[simp] theorem Block.length_bytes (x : Block) : x.bytes.length = 16 := rfl

@[simp] theorem blockOfBytes_bytes (x : Block) : blockOfBytes x.bytes = x := rfl

/-- A byte string of 16 bytes, loaded and read out. -/
theorem bytes_blockOfBytes (bs : List Byte) (h : bs.length = 16) : (blockOfBytes bs).bytes = bs := by
  match bs, h with
  | [_, _, _, _, _, _, _, _, _, _, _, _, _, _, _, _], _ => rfl

@[simp] theorem length_bytesOfBlocks (xs : List Block) : (bytesOfBlocks xs).length = 16 * xs.length := by
  induction xs with
  | nil => rfl
  | cons x xs ih =>
    simp only [bytesOfBlocks, List.flatMap_cons, List.length_append] at ih ⊢
    rw [ih]; simp; omega

@[simp] theorem length_chunks (n k : Nat) (bs : List Byte) : (chunks n k bs).length = k := by
  induction k generalizing bs with
  | zero => rfl
  | succ k ih => simp [chunks, ih]

/-- The blocks of the bytes of blocks are those blocks. -/
theorem blocksOf_bytesOfBlocks (xs : List Block) : blocksOf (bytesOfBlocks xs) = xs := by
  have hlen : (bytesOfBlocks xs).length / 16 = xs.length := by simp
  rw [blocksOf, hlen]
  induction xs with
  | nil => rfl
  | cons x xs ih =>
    have ih' := ih (by simp)
    simp only [bytesOfBlocks, List.flatMap_cons, List.length_cons, chunks, List.map_cons] at ih' ⊢
    rw [List.take_left' (Block.length_bytes x), List.drop_left' (Block.length_bytes x)]
    simp [ih']

/-- The bytes of the blocks of whole blocks are those bytes. -/
theorem bytesOfBlocks_blocksOf (bs : List Byte) (h : bs.length % 16 = 0) :
    bytesOfBlocks (blocksOf bs) = bs := by
  obtain ⟨k, hk⟩ : ∃ k, bs.length = 16 * k := ⟨bs.length / 16, by omega⟩
  have : bs.length / 16 = k := by omega
  rw [blocksOf, this]
  clear this h
  induction k generalizing bs with
  | zero => simp [List.length_eq_zero_iff.1 (by omega : bs.length = 0), chunks, bytesOfBlocks]
  | succ k ih =>
    have ih' := ih (bs.drop 16) (by simp; omega)
    simp only [chunks, List.map_cons, bytesOfBlocks, List.flatMap_cons] at ih' ⊢
    rw [ih', bytes_blockOfBytes _ (by simp; omega), List.take_append_drop]

@[simp] theorem length_blocksOf (bs : List Byte) : (blocksOf bs).length = bs.length / 16 := by
  simp [blocksOf]

@[simp] theorem length_cbcEncBlocks (ks : List Block) (prev : Block) (ps : List Block) :
    (cbcEncBlocks ks prev ps).length = ps.length := by
  induction ps generalizing prev with
  | nil => rfl
  | cons p ps ih => simp [cbcEncBlocks, ih]

@[simp] theorem length_cbcDecBlocks (ks : List Block) (prev : Block) (cs : List Block) :
    (cbcDecBlocks ks prev cs).length = cs.length := by
  induction cs generalizing prev with
  | nil => rfl
  | cons c cs ih => simp [cbcDecBlocks, ih]

/-- A candidate is as long as its ciphertext of whole blocks. -/
theorem length_cbcDec (k iv c : List Byte) (h : c.length % 16 = 0) : (cbcDec k iv c).length = c.length := by
  simp [cbcDec]; omega

/-- The exclusive-or of a block with another, twice, is the block. -/
theorem Block.xor_xor_self (x y : Block) : (x.xor y).xor y = x := by
  simp [Block.xor, Column.xor]

end Sys2Proof.Machine
end

