-- ==== Sys2Proof/Laws/Ops.lean ====
section
/-! SUPPORT. For each shared operation, what it can do, said once: the address map, transactions, the checks, the bodies of the commands, the commit, the step. -/

namespace Sys2Proof.Machine

/-! ## The parameter -/

theorem State.cmax_def (s : State) : s.cmax = 16 * (s.cmaxBlocks.val + 1) := rfl

/-- CMAX is in the range of 00_scope.md R11. -/
theorem State.cmax_bounds (s : State) : 16 ≤ s.cmax ∧ s.cmax ≤ 65456 ∧ s.cmax % 16 = 0 := by
  have := s.cmaxBlocks.isLt
  rw [State.cmax_def]
  omega

/-- The size of MSGBUF in bytes. -/
theorem msgWords_bytes (b : CmaxBlocks) : 4 * msgWords b = cmaxOf b + 68 := by
  simp only [msgWords, cmaxOf]; omega

/-- The size of PTBUF in bytes. -/
theorem ptWords_bytes (b : CmaxBlocks) : 4 * ptWords b = cmaxOf b := by
  simp only [ptWords, cmaxOf]; omega

/-- BASE is aligned to 0x40000, so every offset of the window keeps BASE's high bits (00_scope.md R13). -/
theorem Config.busAddress_div (off : Nat) (h : off < 0x30000) :
    Config.busAddress off / 0x40000 = Config.baseIndex := by
  simp only [Config.busAddress, Config.base]; omega

/-! ## The address map -/

/-- What a mapped offset reaches. -/
theorem targetAt_cases (b : CmaxBlocks) (off : Nat) (g : Target) (h : targetAt b off = some g) :
    off % 4 = 0 ∧
    ((off < 0x1000 ∧ g = .reg (regAt off)) ∨
     (∃ j, j < msgWords b ∧ off = 0x10000 + 4 * j ∧ g = .msgWord j) ∨
     (∃ j, j < ptWords b ∧ off = 0x20000 + 4 * j ∧ g = .ptWord j)) := by
  unfold targetAt at h
  split_ifs at h with h1 h2 h3 h4 h5 h6
  · exact ⟨by omega, .inl ⟨h2, (Option.some.inj h).symm⟩⟩
  · exact ⟨by omega, .inr (.inl ⟨_, by omega, by omega, (Option.some.inj h).symm⟩)⟩
  · exact ⟨by omega, .inr (.inr ⟨_, by omega, by omega, (Option.some.inj h).symm⟩)⟩

/-- A word of MSGBUF at its offset (20_memory.md R104, R107). -/
theorem targetAt_msgWord (b : CmaxBlocks) (j : Nat) (h : j < msgWords b) :
    targetAt b (0x10000 + 4 * j) = some (.msgWord j) := by
  unfold targetAt
  rw [if_neg (by omega), if_neg (by omega), if_neg (by omega), if_pos (by omega)]
  congr 2; omega

/-- A word of PTBUF at its offset (R104, R108). -/
theorem targetAt_ptWord (b : CmaxBlocks) (j : Nat) (h : j < ptWords b) :
    targetAt b (0x20000 + 4 * j) = some (.ptWord j) := by
  have h1 := msgWords_bytes b
  have h2 : cmaxOf b ≤ 65456 := by have := b.isLt; simp only [cmaxOf]; omega
  unfold targetAt
  rw [if_neg (by omega), if_neg (by omega), if_neg (by omega), if_neg (by omega), if_neg (by omega),
    if_pos (by omega)]
  congr 2; omega

/-- An aligned offset of the register page reaches its register (R105). -/
theorem targetAt_reg (b : CmaxBlocks) (off : Nat) (h : off < 0x1000) (h4 : off % 4 = 0) :
    targetAt b off = some (.reg (regAt off)) := by
  unfold targetAt
  rw [if_neg (by omega), if_pos h]

/-! ## Transactions -/

@[simp] theorem whenIdle_busy (f : State → State) (s : State) (h : s.busy = true) :
    whenIdle f s = dropWrite s := by simp [whenIdle, h]

@[simp] theorem whenIdle_idle (f : State → State) (s : State) (h : s.busy = false) :
    whenIdle f s = f s := by simp [whenIdle, h]

/-- A transaction that does not fault is served at its target, and there is no other next state. -/
theorem transact_next (t : Transaction) (s s' : State) :
    transact t s = .next s' ↔ ∃ g, t.target s.cmaxBlocks = some g ∧ s' = serve t g s := by
  unfold transact
  cases t.target s.cmaxBlocks <;> simp [eq_comm]

/-- A transaction at a target is served there. -/
theorem transact_of_target (t : Transaction) (s : State) (g : Target)
    (h : t.target s.cmaxBlocks = some g) : transact t s = .next (serve t g s) := by
  simp [transact, h]

/-- A transaction with no target ends in `bus_error`. -/
theorem transact_of_none (t : Transaction) (s : State) (h : t.target s.cmaxBlocks = none) :
    transact t s = .fault (.busError t.size t.off) := by
  simp [transact, h]

/-- Everything a write can do: nothing, STATUS or IRQ_EN, a drop while BUSY, or one input while idle. -/
theorem writeTarget_cases (g : Target) (v : Word) (s : State) :
    writeTarget g v s = s ∨ writeTarget g v s = writeStatus v s ∨ writeTarget g v s = writeIrqEn v s ∨
    (s.busy = true ∧ writeTarget g v s = dropWrite s) ∨
    (s.busy = false ∧
      (writeTarget g v s = accept v s ∨ writeTarget g v s = writePtLen v s ∨
       writeTarget g v s = writeMsgLen v s ∨
       (∃ i, writeTarget g v s = writeKeyEnc i v s) ∨ (∃ i, writeTarget g v s = writeKeyMac i v s) ∨
       (∃ i, writeTarget g v s = writeIv i v s) ∨ (∃ i, writeTarget g v s = writeEsalt i v s) ∨
       (∃ i, writeTarget g v s = writeHsalt i v s) ∨
       (∃ j, g = .msgWord j ∧ writeTarget g v s = writeMsgWord j v s) ∨
       (∃ j, g = .ptWord j ∧ writeTarget g v s = writePtWord j v s))) := by
  cases hb : s.busy
  · rcases g with r | j | j
    · cases r
      case keyEnc i =>
        exact .inr (.inr (.inr (.inr ⟨rfl, .inr (.inr (.inr (.inl ⟨i, whenIdle_idle _ s hb⟩)))⟩)))
      case keyMac i =>
        exact .inr (.inr (.inr (.inr ⟨rfl, .inr (.inr (.inr (.inr (.inl ⟨i, whenIdle_idle _ s hb⟩))))⟩)))
      case iv i =>
        exact .inr (.inr (.inr (.inr ⟨rfl, .inr (.inr (.inr (.inr (.inr (.inl
          ⟨i, whenIdle_idle _ s hb⟩)))))⟩)))
      case esalt i =>
        exact .inr (.inr (.inr (.inr ⟨rfl, .inr (.inr (.inr (.inr (.inr (.inr (.inl
          ⟨i, whenIdle_idle _ s hb⟩))))))⟩)))
      case hsalt i =>
        exact .inr (.inr (.inr (.inr ⟨rfl, .inr (.inr (.inr (.inr (.inr (.inr (.inr (.inl
          ⟨i, whenIdle_idle _ s hb⟩)))))))⟩)))
      all_goals simp [writeTarget, writeReg, hb]
    · simp [writeTarget, hb]
    · simp [writeTarget, hb]
  · rcases g with r | j | j
    · cases r <;> simp [writeTarget, writeReg, hb]
    · simp [writeTarget, hb]
    · simp [writeTarget, hb]

/-! ## The bodies of the commands -/

/-- ENCP and ENCK pass their checks exactly when the groups they need are loaded and the plaintext fits. -/
theorem encryptCheck_none (pw : Bool) (s : State) :
    encryptCheck pw s = none ↔
      s.kEncLoaded = true ∧ s.kMacLoaded = true ∧ s.ivLoaded = true ∧
      (pw = true → s.esaltLoaded = true ∧ s.hsaltLoaded = true) ∧ s.ptLen.toNat ≤ s.cmax - 1 := by
  unfold encryptCheck
  split_ifs <;> grind

/-- What Encrypt can do: fail with NOT_LOADED or LENGTH and write nothing, or write the message. -/
theorem encrypt_cases (pw : Bool) (s : State) :
    encrypt pw s = (.notLoaded, s) ∨ encrypt pw s = (.length, s) ∨
    (encryptCheck pw s = none ∧
      encrypt pw s = (.ok, { s with
        msgbuf := s.msgbuf.writeBytes 0 (s.message pw)
        msgLen := BitVec.ofNat 32 (s.message pw).length })) := by
  unfold encrypt
  cases h : encryptCheck pw s with
  | none => simp
  | some code =>
    unfold encryptCheck at h
    split_ifs at h <;> simp_all

/-- PARSEP and PARSEK pass their checks exactly when the length is in range. -/
theorem parseCheck_none (pw : Bool) (s : State) :
    parseCheck pw s = none ↔
      headerLen pw + tagLen ≤ s.msgLen.toNat ∧ s.msgLen.toNat ≤ headerLen pw + s.cmax + tagLen := by
  unfold parseCheck
  split_ifs <;> simp <;> omega

/-- What Parse can do: fail with LENGTH or INSUFFICIENT_INPUT and write nothing, or write the fields. -/
theorem parse_cases (pw : Bool) (s : State) :
    parse pw s = (.length, s) ∨ parse pw s = (.insufficientInput, s) ∨
    (parseCheck pw s = none ∧
      parse pw s = (.ok, { s with
        version := s.msgbuf.read 0
        options := s.msgbuf.read 1
        esalt := wordsOfBytes 2 (parsedEsalt pw s)
        hsalt := wordsOfBytes 2 (parsedHsalt pw s)
        iv := wordsOfBytes 4 (parsedIv pw s)
        mkIv := 0
        mkEsalt := 0
        mkHsalt := 0 })) := by
  unfold parse
  cases h : parseCheck pw s with
  | none => simp
  | some code =>
    unfold parseCheck at h
    split_ifs at h <;> simp_all

/-- DEC passes its fail-fast checks exactly when a message is parsed, both keys are loaded and the ciphertext is
whole blocks, at least one. -/
theorem decryptCheck_none (s : State) :
    decryptCheck s = none ↔
      s.parsed = true ∧ s.kEncLoaded = true ∧ s.kMacLoaded = true ∧ s.cLen ≠ 0 ∧ s.cLen % 16 = 0 := by
  unfold decryptCheck
  split_ifs with h1 h2 h3 <;> simp_all <;> grind

/-- What Decrypt can do: fail with one of its codes and scrub, or release the unpadded candidate. -/
theorem decrypt_cases (s : State) :
    (∃ code, (code = .sequence ∨ code = .notLoaded ∨ code = .cipherFailed ∨ code = .tagMismatch) ∧
      decrypt s = decryptFail code s) ∨
    (decryptCheck s = none ∧ macOk s = true ∧ (unpad (candidate s)).1 = true ∧
      decrypt s = release (unpad (candidate s)).2 s) := by
  unfold decrypt
  cases h : decryptCheck s with
  | none =>
    by_cases hm : macOk s = true
    · by_cases hp : (unpad (candidate s)).1 = true
      · exact .inr ⟨rfl, hm, hp, by simp [hm, hp]⟩
      · exact .inl ⟨.cipherFailed, by simp, by simp [hm, hp]⟩
    · exact .inl ⟨.tagMismatch, by simp, by simp [hm]⟩
  | some code =>
    left
    refine ⟨code, ?_, rfl⟩
    unfold decryptCheck at h
    split_ifs at h <;> simp_all

/-! ## The commit and the step -/

/-- Every meaning is the common completion of a code and a state: exec never faults and never refuses. -/
theorem exec_commit (i : Instr) (s : State) : ∃ code s', exec i s = .next (commit i code s') := by
  cases i <;> exact ⟨_, _, rfl⟩

/-- What a step can do: serve a transaction, commit the command in flight, idle, or reset. -/
theorem step_cases (s t : State) (h : step s = .next t) :
    (∃ tr, nextEvent s = .bus tr ∧ transact tr (takeEvent s) = .next t) ∨
    (∃ w, nextEvent s = .engineTurn ∧ s.busy = true ∧ s.latched = some w ∧
      exec (decode w) (takeEvent s) = .next t) ∨
    (nextEvent s = .engineTurn ∧ s.busy = false ∧ t = takeEvent s) ∨
    (nextEvent s = .reset ∧ t = applyReset (takeEvent s)) := by
  unfold step at h
  cases he : nextEvent s with
  | bus tr => exact .inl ⟨tr, rfl, by simpa [he] using h⟩
  | reset => exact .inr (.inr (.inr ⟨rfl, by simpa [he, eq_comm] using h⟩))
  | engineTurn =>
    simp only [he, engineStep, commandInFlight, takeEvent_busy, takeEvent_latched] at h
    cases hb : s.busy
    · simp only [hb] at h
      exact .inr (.inr (.inl ⟨rfl, rfl, by simpa [eq_comm] using h⟩))
    · cases hl : s.latched with
      | none => simp [hb, hl] at h
      | some w => exact .inr (.inl ⟨w, rfl, rfl, rfl, by simpa [hb, hl] using h⟩)

end Sys2Proof.Machine
end

