-- ==== Sys2Proof/Laws/PerInstr.lean ====
section
/-! SUPPORT. Laws of every command, one lemma per constructor of `Instr`: the fields of its encoded word. -/

namespace Sys2Proof.Laws.EncodedFields

open Sys2Proof

/-- The OP and RSV fields of the encoded word are those of the opcode map (30_encoding.md R141, R142); an `illegal`
term keeps its own. -/
def Statement : Instr → Prop
  | .encp => opField (encode .encp) = 1 ∧ rsvField (encode .encp) = 0
  | .enck => opField (encode .enck) = 2 ∧ rsvField (encode .enck) = 0
  | .parsep => opField (encode .parsep) = 3 ∧ rsvField (encode .parsep) = 0
  | .parsek => opField (encode .parsek) = 4 ∧ rsvField (encode .parsek) = 0
  | .dec => opField (encode .dec) = 5 ∧ rsvField (encode .dec) = 0
  | .tagcmp => opField (encode .tagcmp) = 6 ∧ rsvField (encode .tagcmp) = 0
  | .zeroize => opField (encode .zeroize) = 7 ∧ rsvField (encode .zeroize) = 0
  | .illegal op rsv => opField (encode (.illegal op rsv)) = op ∧ rsvField (encode (.illegal op rsv)) = rsv

theorem encp : Statement .encp := ⟨rfl, rfl⟩

theorem enck : Statement .enck := ⟨rfl, rfl⟩

theorem parsep : Statement .parsep := ⟨rfl, rfl⟩

theorem parsek : Statement .parsek := ⟨rfl, rfl⟩

theorem dec : Statement .dec := ⟨rfl, rfl⟩

theorem tagcmp : Statement .tagcmp := ⟨rfl, rfl⟩

theorem zeroize : Statement .zeroize := ⟨rfl, rfl⟩

theorem illegal (op : BitVec 4) (rsv : BitVec 28) : Statement (.illegal op rsv) := by
  have bit : ∀ j, BitVec.getLsbD (encode (.illegal op rsv)) j
      = if j < 4 then op.getLsbD j else rsv.getLsbD (j - 4) := fun j => by
    rw [← BitVec.getLsbD_append]; rfl
  refine ⟨?_, ?_⟩
  · apply BitVec.eq_of_getLsbD_eq
    intro i hi
    simp [opField, bit, hi]
  · apply BitVec.eq_of_getLsbD_eq
    intro i hi
    simp [rsvField, bit, hi]

end Sys2Proof.Laws.EncodedFields
end

