-- ==== Sys2Proof/Tests/Slice0.lean ====
section
/-! SUPPORT. Tests of the model: well-formedness, decoding, one step per command on the vectors of 95_test_vectors.md, and for each statement with hypotheses a concrete state that meets them. -/

namespace Sys2Proof.Tests

set_option Elab.async false

open Sys2Proof Sys2Proof.Machine

/-! ## Helpers -/

/-- What a predicate says of the next state; false of a fault or a refusal. -/
def check (o : Host.Outcome State Fault Refusal) (p : State → Bool) : Bool :=
  match o with
  | .next t => p t
  | .fault _ => false
  | .refused _ => false

/-- The reset state with CMAX = 16 (V3.12 to V3.16, V4.14 to V4.16). -/
def smallest : State := State.resetWith 0

/-- The reset state with every group written with zeros, as LOADK, LOADIV, LOADES and LOADHS leave it. -/
def loaded : State :=
  { State.reset with mkEnc := 0xFF, mkMac := 0xFF, mkIv := 0xF, mkEsalt := 0x3, mkHsalt := 0x3 }

/-- `loaded` with the inputs of V1.2. -/
def inputV12 : State :=
  { loaded with
    kEnc := #v[0xc3a6bc6b, 0x9d9b7ed4, 0x298d0480, 0xe43096e3, 0x848a740c, 0xe1cf9b21, 0x9ae552f1, 0x2a09297b]
    kMac := #v[0x211e8161, 0x1f669639, 0xf7e12d99, 0xd0092789, 0x4efe591d, 0xe13cde46, 0x0af2ed0d, 0x441be5d0]
    iv := #v[0x02030405, 0x06070809, 0x0a0b0c0d, 0x0e0f0001]
    esalt := #v[0x00010203, 0x04050607]
    hsalt := #v[0x01020304, 0x05060708]
    ptLen := 1
    ptbuf := [(0, 1)] }

/-- The message of V1.1, as the source prints it: 66 bytes and two of padding to a word. -/
def messageV11 : List Byte :=
  bytesOfWords [0x03000000, 0x00000000, 0x00000000, 0x00000000, 0x00001f78, 0x8fe6d86c, 0x31754969, 0x7fbf0c07,
    0xfa436384, 0xac0ef35b, 0x860b2ddb, 0x2aba2fff, 0x816b1fb3, 0xa9c180f7, 0xb43650ae, 0xc0d2b5f8, 0x8e330000]

/-- The message of V1.2: 82 bytes and two of padding to a word. -/
def messageV12 : List Byte :=
  bytesOfWords [0x03010001, 0x02030405, 0x06070102, 0x03040506, 0x07080203, 0x04050607, 0x08090a0b, 0x0c0d0e0f,
    0x0001a1f8, 0x730e0bf4, 0x80eb7b70, 0xf690abf2, 0x1e029514, 0x164ad3c4, 0x74a51b30, 0xc7eaa1ca, 0x545b7de3,
    0xde5b010a, 0xcbad0a9a, 0x13857df6, 0x96a80000]

/-- The message of V4.25, with a good tag and bad padding. -/
def messageBadPad : List Byte :=
  bytesOfWords [0x03000000, 0x00000000, 0x00000000, 0x00000000, 0x0000dc95, 0xc078a240, 0x8989ad48, 0xa2149284,
    0x20876b12, 0x503df00b, 0xc3a5a79e, 0x4566de97, 0x734cd6c1, 0x05926e69, 0x6ff2af17, 0x61e1a10b, 0x1fc50000]

/-- The reset state with a message in MSGBUF and its length in MSG_LEN. -/
def received (m : List Byte) (len : Word) : State :=
  { State.reset with msgbuf := Memory.writeBytes [] 0 m, msgLen := len }

/-- A key-based message of 66 bytes with an IV of zeros, parsed, and zero keys loaded. -/
def parsedKeyed (m : List Byte) : State :=
  { received m 66 with parsed := true, pmode := false, version := 3, mkEnc := 0xFF, mkMac := 0xFF }

/-- The reset state with a command word accepted. -/
def busyWith (w : Word) : State := accept w State.reset

/-- `a` bytes 00, 01, 02, … -/
def rising (a : Nat) : List Byte := (List.range a).map (BitVec.ofNat 8)

/-! ## Well-formedness and decoding -/

/-- An `illegal` term with the fields of a legal word is refused, at both ends of the range of OP (R143). -/
theorem test_wellFormed_refuses_legal_fields :
    (Instr.illegal 1 0).wellFormed = false ∧ (Instr.illegal 7 0).wellFormed = false := by decide

/-- The fields next to that range are accepted. -/
theorem test_wellFormed_accepts :
    (Instr.illegal 0 0).wellFormed = true ∧ (Instr.illegal 8 0).wellFormed = true ∧
      (Instr.illegal 1 1).wellFormed = true ∧ Instr.encp.wellFormed = true := by decide

/-- RSV of 28 bits, then OP of 4, written out from R141 and R142. -/
theorem test_decode_encp : decode 0b0000000000000000000000000000_0001#32 = .encp := by decide
theorem test_decode_enck : decode 0b0000000000000000000000000000_0010#32 = .enck := by decide
theorem test_decode_parsep : decode 0b0000000000000000000000000000_0011#32 = .parsep := by decide
theorem test_decode_parsek : decode 0b0000000000000000000000000000_0100#32 = .parsek := by decide
theorem test_decode_dec : decode 0b0000000000000000000000000000_0101#32 = .dec := by decide
theorem test_decode_tagcmp : decode 0b0000000000000000000000000000_0110#32 = .tagcmp := by decide
theorem test_decode_zeroize : decode 0b0000000000000000000000000000_0111#32 = .zeroize := by decide
theorem test_decode_illegal_op : decode 0b0000000000000000000000000000_1000#32 = .illegal 8 0 := by decide
theorem test_decode_illegal_rsv :
    decode 0b1000000000000000000000000000_0101#32 = .illegal 5 0x8000000 := by decide

/-- No form longer than 32 bits exists (R140). -/
theorem test_decode_too_long : decodeTableWord 40 1 = none := by decide

/-- The first step after reset runs the word presented (R601): here ZEROIZE, and an illegal word. -/
theorem test_first_step_runs_word :
    check (step (State.reset.withFetchWord 32 7)) (fun t => t.done && t.errCode == 0) = true ∧
      check (step (State.reset.withFetchWord 32 0x11)) (fun t => t.done && t.errCode == 1) = true := by
  decide +kernel

/-! ## The datapath -/

/-- FIPS-197 C.3 (V2.1). -/
theorem test_aes_c3 :
    aes256Enc (rising 32) (bytesOfWords [0x00112233, 0x44556677, 0x8899aabb, 0xccddeeff])
      = bytesOfWords [0x8ea2b7ca, 0x516745bf, 0xeafc4990, 0x4b496089] := by decide +kernel

/-- The SHA-256 digest of "abc" (V2.6). -/
theorem test_sha_abc :
    sha256 [0x61, 0x62, 0x63] = bytesOfWords [0xba7816bf, 0x8f01cfea, 0x414140de, 0x5dae2223, 0xb00361a3,
      0x96177a9c, 0xb410ff61, 0xf20015ad] := by decide +kernel

/-- The primes below a bound (for R219, which takes its constants from the first 64 primes). -/
def primesBelow (n : Nat) : List Nat :=
  (List.range n).filter fun p => decide (2 ≤ p) && (List.range p).all fun d => decide (d < 2) || p % d != 0

/-- A number to the third power. -/
def cube (n : Nat) : Nat := n * n * n

/-- `k` is the first 32 bits of the fraction of the cube root of `p`: for the whole part c of that root,
c · 2^32 + k is the cube root of p · 2^96, rounded down. -/
def isCubeRootFraction (p k : Nat) : Bool :=
  (List.range 8).any fun c =>
    Nat.ble (cube (c * 0x100000000 + k)) (p * cube 0x100000000) &&
      Nat.blt (p * cube 0x100000000) (cube (c * 0x100000000 + k + 1))

/-- The constants are what R219 says: word i belongs to the cube root of prime i, for the first 64 primes. -/
theorem test_sha_constants :
    (primesBelow 312).length = 64 ∧
      ((primesBelow 312).zip shaK).all (fun pk => isCubeRootFraction pk.1 pk.2.toNat) = true := by decide +kernel

/-- V2.4: …0202 is valid, …0302 and …00 are not. -/
theorem test_unpad :
    (unpad (bytesN 14 0x55 ++ [0x02, 0x02])).1 = true ∧ (unpad (bytesN 14 0x55 ++ [0x03, 0x02])).1 = false ∧
      (unpad (bytesN 15 0x55 ++ [0x00])).1 = false ∧ unpad (bytesN 16 0x10) = (true, []) := by decide +kernel

/-! ## The commands -/

/-- V1.2. -/
theorem test_encp_v12 :
    check (exec .encp inputV12) (fun t =>
      t.msgbuf.slice 0 82 == messageV12.take 82 && t.msgLen == 82 && t.statusWord == 0x42) = true := by
  decide +kernel

/-- V3.6: HSALT not written. -/
theorem test_encp_no_hsalt :
    check (exec .encp { loaded with mkHsalt := 1 }) (fun t =>
      t.errCode == 3 && t.statusWord == 0x06 && t.loadedWord == 0) = true := by decide +kernel

/-- V1.1, with WBUSY set by a dropped write (program P5): STATUS reads 0x62. -/
theorem test_enck_v11 :
    check (exec .enck { loaded with wbusy := true }) (fun t =>
      t.msgbuf.slice 0 66 == messageV11.take 66 && t.msgLen == 66 && t.statusWord == 0x62) = true := by
  decide +kernel

/-- V3.12: CMAX = 16, PT_LEN = 16. -/
theorem test_enck_length :
    check (exec .enck { smallest with mkEnc := 0xFF, mkMac := 0xFF, mkIv := 0xF, ptLen := 16 }) (fun t =>
      t.errCode == 4 && t.ptLen == 16 && t.mkIv == 0) = true := by decide +kernel

/-- V4.1. -/
theorem test_parsep_v12 :
    check (exec .parsep (received messageV12 82)) (fun t =>
      t.statusWord == 0x1A && t.iv == inputV12.iv && t.esalt == inputV12.esalt && t.hsalt == inputV12.hsalt) = true := by
  decide +kernel

/-- V4.14: CMAX = 16, MSG_LEN = 83. -/
theorem test_parsep_length : check (exec .parsep { smallest with msgLen := 83 }) (fun t => t.errCode == 4) = true := by
  decide +kernel

/-- V4.23: V1.2 parsed as key-based; the salts become 0. -/
theorem test_parsek_v12 :
    check (exec .parsek { received messageV12 82 with esalt := inputV12.esalt }) (fun t =>
      t.statusWord == 0x0A && t.options == 1 && t.iv == #v[0x00010203, 0x04050607, 0x01020304, 0x05060708] &&
      t.esalt == #v[0, 0]) = true := by decide +kernel

/-- V4.29. -/
theorem test_parsek_short : check (exec .parsek (received messageV11 49)) (fun t =>
    t.errCode == 5 && t.version == 0) = true := by decide +kernel

/-- V4.2 after V4.1, with stale data in PTBUF word 1. -/
theorem test_dec_v12 :
    check (exec .dec { inputV12 with
        msgbuf := Memory.writeBytes [] 0 messageV12, msgLen := 82, parsed := true, pmode := true,
        ptbuf := [(4, 0xAA)] }) (fun t =>
      t.statusWord == 0x42 && t.ptLen == 1 && t.ptbuf == [(0, 1)]) = true := by decide +kernel

/-- V4.25: the tag is good and the padding is not. -/
theorem test_dec_bad_padding :
    check (exec .dec (parsedKeyed messageBadPad)) (fun t =>
      t.errCode == 6 && t.ptbuf == [] && t.mkEnc == 0) = true := by decide +kernel

/-- V5.2 and V5.4. -/
theorem test_tagcmp :
    check (exec .tagcmp (received (rising 32 ++ rising 32) 0)) (fun t => t.statusWord == 0x02) = true ∧
      check (exec .tagcmp (received (rising 32 ++ rising 31 ++ [0x1E]) 0)) (fun t => t.errCode == 7) = true := by
  decide +kernel

/-- V5.9, with WBUSY and IRQ_EN kept. -/
theorem test_zeroize :
    check (exec .zeroize { inputV12 with wbusy := true, irqEn := true, msgLen := 5 }) (fun t =>
      t.statusWord == 0x22 && t.irq && t.kEnc == smallest.kEnc && t.ptbuf == [] && t.iv == smallest.iv) = true := by
  decide +kernel

/-- V5.7: keys and masks stay. -/
theorem test_illegal :
    check (exec (decode 0x11) inputV12) (fun t =>
      t.statusWord == 0x06 && t.kEnc == inputV12.kEnc && t.mkEnc == 0xFF) = true := by decide +kernel

/-! ## The bus -/

/-- V5.12: key words are write-only, and LOADED shows the mask when it fills. -/
theorem test_key_write_only :
    check (transact (.write 4 0x05C 5) { State.reset with mkEnc := 0x7F }) (fun t =>
      t.loadedWord == 1 && check (transact (.read 4 0x05C) t) (fun u => u.busOut == some (.data 0))) = true := by
  decide +kernel

/-- V5.14 and V5.15. -/
theorem test_bus_errors :
    transact (.read 4 0x00002) State.reset = .fault (.busError 4 0x00002) ∧
      transact (.read 4 0x11044) State.reset = .fault (.busError 4 0x11044) ∧
      transact (.read 4 0x21000) State.reset = .fault (.busError 4 0x21000) := ⟨rfl, rfl, rfl⟩

/-- P5, transactions 23 to 25: a busy write is dropped and a busy buffer read gives 0. -/
theorem test_busy_write :
    check (transact (.write 4 0x01C 5) (busyWith 2)) (fun t => t.ptLen == 0 && t.wbusy &&
      check (transact (.read 4 0x10000) { t with msgbuf := [(0, 3)] }) (fun u => u.busOut == some (.data 0))) = true := by
  decide +kernel

/-- V4.18: a write to MSGBUF clears the PARSED latch. -/
theorem test_write_clears_parsed :
    check (transact (.write 4 0x10000 0x03010001) (parsedKeyed messageV11)) (fun t =>
      !t.parsed && t.msgbuf.readWord 0 == 0x03010001) = true := by decide +kernel

/-! ## Witnesses: for each statement of Certificates/Slice0/Obligations.lean with hypotheses, states that meet them -/

theorem witness_DecodeEncodeAgree :
    (Instr.illegal 0 0).wellFormed = true ∧ (Instr.illegal 15 0xFFFFFFF).wellFormed = true ∧
      Instr.zeroize.wellFormed = true := by decide

/-- Both clauses, with an empty inbox and with the engine's turn at its head. -/
theorem witness_StepRunsDecodedCommand :
    ((busyWith 7).inbox = [] ∧ (busyWith 7).busy = true ∧ (busyWith 7).latched = some 7 ∧
      decode 7 = .zeroize ∧ Instr.zeroize.wellFormed = true) ∧
    ({ busyWith 0 with inbox := [.engineTurn, .reset] }.inbox = .engineTurn :: [.reset] ∧
      { busyWith 0 with inbox := [.engineTurn, .reset] }.latched = some 0 ∧
      decode 0 = .illegal 0 0 ∧ (Instr.illegal 0 0).wellFormed = true) ∧
    State.reset.inbox = [] ∧ State.reset.busy = false := by decide +kernel

theorem witness_PresentedWordRunsNext :
    decodeTableWord 32 0xFFFFFFFF = some (.illegal 15 0xFFFFFFF) ∧ decodeTableWord 0 1 = some (.illegal 0 0) ∧
      decodeTableWord 32 1 = some .encp := by decide

theorem witness_StepServesHostEvents :
    { busyWith 5 with inbox := [.bus (.read 4 0x00C)] }.inbox = .bus (.read 4 0x00C) :: [] ∧
      { State.reset with inbox := [.reset, .engineTurn] }.inbox = .reset :: [.engineTurn] := ⟨rfl, rfl⟩

theorem witness_ResetLeavesZeros : { busyWith 5 with inbox := [.reset] }.inbox = .reset :: [] := rfl

/-- At PT_LEN 0 and at PT_LEN = CMAX - 1. -/
theorem witness_EncpFormatsMessage :
    (loaded.msgbuf.wf = true ∧ loaded.mkEnc = 0xFF ∧ loaded.mkMac = 0xFF ∧ loaded.mkIv = 0xF ∧
      loaded.mkEsalt = 0x3 ∧ loaded.mkHsalt = 0x3 ∧ loaded.ptLen.toNat ≤ loaded.cmax - 1) ∧
    { loaded with ptLen := 4095 }.ptLen.toNat ≤ { loaded with ptLen := 4095 }.cmax - 1 := by decide +kernel

/-- The salts need not be loaded. -/
theorem witness_EnckFormatsMessage :
    { loaded with mkEsalt := 1, mkHsalt := 0, ptLen := 4095 }.msgbuf.wf = true ∧
    { loaded with mkEsalt := 1, mkHsalt := 0, ptLen := 4095 }.mkIv = 0xF ∧
    { loaded with mkEsalt := 1, mkHsalt := 0, ptLen := 4095 }.ptLen.toNat
      ≤ { loaded with mkEsalt := 1, mkHsalt := 0, ptLen := 4095 }.cmax - 1 := by decide +kernel

/-- Each group missing one word, and PT_LEN = CMAX. -/
theorem witness_EncryptFailures :
    ({ loaded with mkHsalt := 2 }.mkHsalt ≠ 0x3 ∧ { loaded with mkEsalt := 1 }.mkEsalt ≠ 0x3 ∧
      { loaded with mkIv := 7 }.mkIv ≠ 0xF ∧ { loaded with mkEnc := 0x7F }.mkEnc ≠ 0xFF ∧
      { loaded with mkMac := 0xFE }.mkMac ≠ 0xFF) ∧
    (loaded.mkEnc = 0xFF ∧ loaded.mkMac = 0xFF ∧ loaded.mkIv = 0xF ∧ loaded.mkEsalt = 0x3 ∧ loaded.mkHsalt = 0x3 ∧
      { loaded with ptLen := 4096 }.cmax - 1 < { loaded with ptLen := 4096 }.ptLen.toNat) := by decide +kernel

/-- MSG_LEN at both ends of the range. -/
theorem witness_ParsepExtractsFields :
    (66 ≤ { smallest with msgLen := 66 }.msgLen.toNat ∧
      { smallest with msgLen := 66 }.msgLen.toNat ≤ { smallest with msgLen := 66 }.cmax + 66) ∧
    { smallest with msgLen := 82 }.msgLen.toNat ≤ { smallest with msgLen := 82 }.cmax + 66 := by decide +kernel

/-- MSG_LEN at both ends of the range. -/
theorem witness_ParsekExtractsFields :
    (50 ≤ { smallest with msgLen := 50 }.msgLen.toNat ∧
      { smallest with msgLen := 50 }.msgLen.toNat ≤ { smallest with msgLen := 50 }.cmax + 50) ∧
    { smallest with msgLen := 66 }.msgLen.toNat ≤ { smallest with msgLen := 66 }.cmax + 50 := by decide +kernel

/-- The first length outside the range on each side. -/
theorem witness_ParseFailures :
    { smallest with msgLen := 83 }.cmax + 66 < { smallest with msgLen := 83 }.msgLen.toNat ∧
      { smallest with msgLen := 67 }.cmax + 50 < { smallest with msgLen := 67 }.msgLen.toNat ∧
      { smallest with msgLen := 65 }.msgLen.toNat < 66 ∧ { smallest with msgLen := 49 }.msgLen.toNat < 50 := by
  decide +kernel

/-- No parse; no key; in the range of MSG_LEN, C_len = 0 in either mode, C_len = 4, and C_len = CMAX - 1, next to the
top of the range. -/
theorem witness_DecFailsFast :
    State.reset.parsed = false ∧
    ({ received messageV11 66 with parsed := true }.parsed = true ∧
      { received messageV11 66 with parsed := true }.mkEnc ≠ 0xFF) ∧
    ((parsedKeyed messageV11).parsed = true ∧ (parsedKeyed messageV11).mkEnc = 0xFF ∧
      (parsedKeyed messageV11).mkMac = 0xFF ∧
      18 + 32 ≤ { parsedKeyed messageV11 with msgLen := 50 }.msgLen.toNat ∧
      { parsedKeyed messageV11 with msgLen := 4145 }.msgLen.toNat ≤ 18 + (parsedKeyed messageV11).cmax + 32 ∧
      { parsedKeyed messageV11 with msgLen := 50 }.msgLen.toNat - 18 - 32 = 0 ∧
      { parsedKeyed messageV11 with msgLen := 54 }.msgLen.toNat - 18 - 32 = 4 ∧
      ({ parsedKeyed messageV11 with msgLen := 4145 }.msgLen.toNat - 18 - 32) % 16 = 15 ∧
      34 + 32 ≤ { parsedKeyed messageV11 with pmode := true }.msgLen.toNat ∧
      { parsedKeyed messageV11 with pmode := true }.msgLen.toNat - 34 - 32 = 0) := by decide +kernel

/-- C_len = 16, the smallest; which verdicts occur is in test_dec_bad_padding, witness_TagMismatchHidesCandidate and
witness_DecReleasesPlaintext. -/
theorem witness_DecVerdictTable :
    (parsedKeyed messageV11).parsed = true ∧ (parsedKeyed messageV11).mkEnc = 0xFF ∧
      (parsedKeyed messageV11).mkMac = 0xFF ∧ (parsedKeyed messageV11).pmode = false ∧
      (parsedKeyed messageV11).msgLen.toNat - 18 - 32 = 16 := by decide +kernel

/-- V1.1 parsed: the tag is good, and the candidate is the padded empty plaintext. -/
theorem witness_DecReleasesPlaintext :
    (parsedKeyed messageV11).parsed = true ∧ (parsedKeyed messageV11).mkEnc = 0xFF ∧
      (parsedKeyed messageV11).mkMac = 0xFF ∧ (parsedKeyed messageV11).pmode = false ∧
      18 + 32 < (parsedKeyed messageV11).msgLen.toNat ∧
      ((parsedKeyed messageV11).msgLen.toNat - 18 - 32) % 16 = 0 ∧
      (parsedKeyed messageV11).msgbuf.slice 34 66
        = hmacSha256 (parsedKeyed messageV11).kMacBytes
            ([0x03, 0x00] ++ (parsedKeyed messageV11).ivBytes ++ (parsedKeyed messageV11).msgbuf.slice 18 34) ∧
      cbcDec (parsedKeyed messageV11).kEncBytes (parsedKeyed messageV11).ivBytes
        ((parsedKeyed messageV11).msgbuf.slice 18 34) = padInput [] := by decide +kernel

/-- RSV = 1 with a legal OP, OP = 0, and OP = 8. -/
theorem witness_IllegalWordReports :
    (0x11#32).extractLsb' 4 28 ≠ 0 ∧ (0x0#32).extractLsb' 0 4 = 0 ∧ 8 ≤ ((0x8#32).extractLsb' 0 4).toNat := by decide

theorem witness_CodesOfEachCommand :
    ∀ i ∈ [Instr.encp, .enck, .parsep, .parsek, .dec, .tagcmp, .zeroize, .illegal 0 0],
      check (exec i State.reset) (fun _ => true) = true := by decide +kernel

/-- A commit, an accept, an acknowledgement and a write to IRQ_EN that each give a next state. -/
theorem witness_InterruptFollowsDone :
    check (exec .zeroize State.reset) (fun _ => true) = true ∧
      (State.reset.busy = false ∧ check (transact (.write 4 0x008 7) State.reset) (fun _ => true) = true) ∧
      ((0x2#32).getLsbD 1 = true ∧
        check (transact (.write 4 0x00C 0x2) { loaded with done := true, irqEn := true }) (fun _ => true) = true) ∧
      ((0x0#32).getLsbD 0 = false ∧
        check (transact (.write 4 0x014 0) { loaded with done := true, irqEn := true }) (fun _ => true) = true) := by
  decide +kernel

/-- The reset state meets the invariant. -/
theorem reset_inv : Inv State.reset where
  busyLatched := rfl
  doneIdle h := by simp [State.reset, State.resetWith] at h
  busyCode _ := rfl
  codeWritten := by decide
  modeParsed _ := rfl
  outputOk h := by simp [State.reset, State.resetWith] at h
  msgbufFits := rfl
  ptbufFits := rfl
  encMasked i _ := by revert i; decide +kernel
  macMasked i _ := by revert i; decide +kernel
  parsedMessage h := by simp [State.reset, State.resetWith] at h

/-- A state with a command in flight meets the invariant. -/
theorem busy_inv (w : Word) (inbox : List Event) : Inv { busyWith w with inbox := inbox } where
  busyLatched := rfl
  doneIdle h := by simp [busyWith, accept] at h
  busyCode _ := rfl
  codeWritten := by simp [busyWith, accept]
  modeParsed _ := rfl
  outputOk h := by simp [busyWith, accept, State.reset, State.resetWith] at h
  msgbufFits := rfl
  ptbufFits := rfl
  encMasked := reset_inv.encMasked
  macMasked := reset_inv.macMasked
  parsedMessage h := by simp [busyWith, accept, State.reset, State.resetWith] at h

/-- A state with a parsed message and loaded keys, about to run DEC, meets the invariant. -/
theorem parsed_inv : Inv { parsedKeyed messageV11 with busy := true, latched := some 5 } where
  busyLatched := rfl
  doneIdle h := by simp [parsedKeyed, received, State.reset, State.resetWith] at h
  busyCode _ := rfl
  codeWritten := by decide
  modeParsed h := by simp [parsedKeyed] at h
  outputOk h := by simp [parsedKeyed, received, State.reset, State.resetWith] at h
  msgbufFits := by decide +kernel
  ptbufFits := rfl
  encMasked i _ := by revert i; decide +kernel
  macMasked i _ := by revert i; decide +kernel
  parsedMessage _ :=
    { lower := by decide +kernel
      upper := by decide +kernel
      version := by decide +kernel
      options := by decide +kernel
      esalt := by decide +kernel
      hsalt := by decide +kernel
      iv := by decide +kernel
      ivMask := rfl
      esaltMask := rfl
      hsaltMask := rfl }

theorem witness_StepKeepsInvariant :
    Inv { parsedKeyed messageV11 with busy := true, latched := some 5 } ∧
      check (step { parsedKeyed messageV11 with busy := true, latched := some 5 }) (fun t => t.errCode == 0) = true :=
  ⟨parsed_inv, by decide +kernel⟩

/-- A host that reads the last register, the last words of both windows, and resets. -/
theorem witness_WellBehavedHostNeverFaults :
    Inv { busyWith 1 with inbox := [.bus (.read 4 0xFFC), .bus (.read 4 0x11040), .bus (.read 4 0x20FFC), .reset] } ∧
      { busyWith 1 with inbox := [.bus (.read 4 0xFFC), .bus (.read 4 0x11040), .bus (.read 4 0x20FFC),
        .reset] }.hostWellBehaved = true := ⟨busy_inv _ _, by decide +kernel⟩

theorem witness_AcceptedCommandCommits :
    Inv { busyWith 1 with inbox := [.bus (.read 4 0x00C), .engineTurn] } ∧
      { busyWith 1 with inbox := [.bus (.read 4 0x00C), .engineTurn] }.busy = true ∧
      { busyWith 1 with inbox := [.bus (.read 4 0x00C), .engineTurn] }.hostWellBehaved = true ∧
      [Event.bus (.read 4 0x00C), .engineTurn].all Event.notReset = true :=
  ⟨busy_inv _ _, rfl, by decide +kernel, rfl⟩

theorem witness_AcceptRule : State.reset.busy = false ∧ (busyWith 1).busy = true := ⟨rfl, rfl⟩

/-- Each clause of the refused transactions at the ends of its range, and the served ones next to them. -/
theorem witness_BusErrorsExactly :
    (Transaction.read 2 0).size ≠ 4 ∧ (Transaction.read 4 2).off % 4 ≠ 0 ∧
    (∀ off ∈ [0x1000, 0xFFFC, 0x10000 + State.reset.cmax + 68, 0x1FFFC, 0x20000 + State.reset.cmax, 0x30000],
      (Transaction.read 4 off).target exampleCmax = none) ∧
    (∀ off ∈ [0x000, 0xFFC, 0x10000, 0x10000 + State.reset.cmax + 64, 0x20000, 0x20000 + State.reset.cmax - 4],
      (Transaction.read 4 off).target exampleCmax ≠ none) := by decide +kernel

theorem witness_ReadsHaveNoSideEffect :
    check (transact (.read 4 0x20000) inputV12) (fun t => t.busOut == some (.data 0x01000000)) = true := by decide +kernel

/-- An idle write to each kind of target, and one while BUSY. -/
theorem witness_WritesAreIdempotent :
    inputV12.msgbuf.wf = true ∧ inputV12.ptbuf.wf = true ∧
      (∀ off ∈ [0x00C, 0x01C, 0x020, 0x040, 0x080, 0x09C, 0x10000, 0x20000],
        off ≠ 0x008 ∧ check (transact (.write 4 off 0x01020304) inputV12) (fun _ => true) = true) ∧
      check (transact (.write 4 0x01C 5) (busyWith 1)) (fun _ => true) = true := by decide +kernel

theorem witness_BusyTransactionsKeepInputs :
    (busyWith 1).busy = true ∧ check (transact (.write 4 0x020 5) (busyWith 1)) (fun _ => true) = true := by
  decide +kernel

/-- Each clause at the ends of its ranges. -/
theorem witness_WritesWhileBusy :
    (busyWith 1).busy = true ∧
      (∀ off ∈ [0x008, 0x00C, 0x014, 0x01C, 0x020, 0x040, 0x09C, 0x10000, 0x20000, 0x024, 0x03C, 0x0A0, 0xFFC],
        off % 4 = 0) ∧
      (0x11040 < 0x10000 + (busyWith 1).cmax + 68 ∧ 0x11040 % 4 = 0) ∧
      (0x20FFC < 0x20000 + (busyWith 1).cmax ∧ 0x20FFC % 4 = 0) := by decide +kernel

/-- The first and the last word of MSGBUF, idle and BUSY. -/
theorem witness_MsgbufWindow :
    State.reset.msgbuf.wf = true ∧ 4 * 0 < State.reset.cmax + 68 ∧ 4 * 1040 < State.reset.cmax + 68 ∧
      State.reset.busy = false ∧ (busyWith 1).msgbuf.wf = true ∧ (busyWith 1).busy = true := by decide +kernel

/-- The first and the last word of PTBUF, idle and BUSY. -/
theorem witness_PtbufWindow :
    State.reset.ptbuf.wf = true ∧ 4 * 0 < State.reset.cmax ∧ 4 * 1023 < State.reset.cmax ∧
      State.reset.busy = false ∧ (busyWith 1).ptbuf.wf = true ∧ (busyWith 1).busy = true := by decide +kernel

theorem witness_KeyWordAccess : State.reset.busy = false := rfl

theorem witness_IvAndSaltAccess : (parsedKeyed messageV11).busy = false := rfl

theorem witness_LengthAndEnableAccess : loaded.busy = false := rfl

/-- The reserved and the read-only offsets at the ends of their ranges. -/
theorem witness_ReadOnlyRegisters :
    ∀ off ∈ [0x02C, 0x03C, 0x0A0, 0xFFC],
      off % 4 = 0 ∧ ((0x02C ≤ off ∧ off < 0x040) ∨ (0x0A0 ≤ off ∧ off < 0x1000)) := by decide

theorem witness_AesDecryptInvertsEncrypt : (rising 32).length = 32 ∧ (rising 16).length = 16 := by decide

theorem witness_CbcDecryptInvertsEncrypt :
    (rising 32).length = 32 ∧ (rising 16).length = 16 ∧ (rising 48).length % 16 = 0 := by decide

/-- Both clauses: p = 16 over one whole block, p = 0 and p = 17. -/
theorem witness_UnpadIsStrict :
    (bytesN 16 0x10).length ≠ 0 ∧ (bytesN 16 0x10).length % 16 = 0 ∧
      ((bytesN 16 0x10).getD 15 0).toNat = 16 ∧ (∀ j, j < 16 → (bytesN 16 0x10).getD j 0 = 0x10) ∧
      (bytesN 16 0x00).length % 16 = 0 ∧ ((bytesN 16 0x00).getD 15 0).toNat = 0 ∧
      ((bytesN 16 0x11).getD 15 0).toNat = 17 := by decide +kernel

theorem witness_PaddingModesAgreeOnEmpty : (zeros 32).length = 32 ∧ (zeros 16).length = 16 := by decide

theorem witness_ComparatorIsEquality : (rising 32).length = 32 ∧ (zeros 32).length = 32 := by decide

/-- The largest plaintext, a receiving state with other contents, and MSGBUF as the encryption left it: the last
hypothesis holds of `t.msgbuf` itself. -/
theorem witness_EncryptDecryptRoundTrip :
    loaded.msgbuf.wf = true ∧ inputV12.cmaxBlocks = loaded.cmaxBlocks ∧ loaded.mkEnc = 0xFF ∧ loaded.mkMac = 0xFF ∧
      loaded.mkIv = 0xF ∧ loaded.mkEsalt = 0x3 ∧ loaded.mkHsalt = 0x3 ∧
      { loaded with ptLen := 4095 }.ptLen.toNat ≤ { loaded with ptLen := 4095 }.cmax - 1 ∧
      (∃ t, exec .encp loaded = .next t ∧ ∀ a, a < t.msgLen.toNat → t.msgbuf.read a = t.msgbuf.read a) :=
  ⟨rfl, rfl, rfl, rfl, rfl, rfl, rfl, by decide +kernel, _, rfl, fun _ _ => rfl⟩

/-- V1.1 is accepted, and bytes 34 and 65 are the ends of its tag. -/
theorem witness_TamperedTagIsRejected :
    (parsedKeyed messageV11).msgbuf.wf = true ∧
      check (exec .dec (parsedKeyed messageV11)) (fun t => t.errCode == 0) = true ∧
      (parsedKeyed messageV11).msgLen.toNat - 32 = 34 ∧ 65 < (parsedKeyed messageV11).msgLen.toNat ∧
      (0x62#8) ≠ (parsedKeyed messageV11).msgbuf.read 34 ∧ (0x32#8) ≠ (parsedKeyed messageV11).msgbuf.read 65 := by
  decide +kernel

theorem witness_RejectBeforeReveal :
    check (exec .dec inputV12) (fun t => t.errCode == 2) = true := by decide +kernel

/-- Two cipher keys under a MAC key that is not the message's: the tag mismatches. -/
theorem witness_TagMismatchHidesCandidate :
    { parsedKeyed messageBadPad with kMac := inputV12.kMac, kEnc := inputV12.kEnc }.withoutCipherKey
        = { parsedKeyed messageBadPad with kMac := inputV12.kMac }.withoutCipherKey ∧
      check (exec .dec { parsedKeyed messageBadPad with kMac := inputV12.kMac }) (fun t => t.errCode == 7) = true := by
  decide +kernel

theorem witness_KeysAreUnobservable :
    inputV12.withoutKeys = { inputV12 with kEnc := Vector.replicate 8 0, kMac := Vector.replicate 8 1 }.withoutKeys := rfl

/-- Two states that agree on the operands and differ elsewhere. -/
theorem witness_EncryptionIsDeterministic :
    inputV12.msgbuf.wf = true ∧ { inputV12 with msgbuf := [(5, 1)], ptbuf := [(0, 1), (9, 9)] }.msgbuf.wf = true ∧
      (∀ a, a < inputV12.ptLen.toNat →
        inputV12.ptbuf.read a = { inputV12 with msgbuf := [(5, 1)], ptbuf := [(0, 1), (9, 9)] }.ptbuf.read a) := by
  decide +kernel

/-- Each command that consumes the keys, each that consumes the latch, and a parse that fails. -/
theorem witness_KeysAndParseAreSingleUse :
    ∀ i ∈ [Instr.encp, .enck, .dec, .zeroize, .tagcmp, .illegal 0 0, .parsep, .parsek],
      check (exec i { State.reset with parsed := true }) (fun _ => true) = true := by decide +kernel

/-- DEC, ENCP and ENCK past their checks, with different data of the same length. -/
theorem witness_LatencyHidesData :
    (parsedKeyed messageV11).cmaxBlocks = (parsedKeyed messageBadPad).cmaxBlocks ∧
      decryptCheck (parsedKeyed messageV11) = none ∧ decryptCheck (parsedKeyed messageBadPad) = none ∧
      (parsedKeyed messageV11).pmode = (parsedKeyed messageBadPad).pmode ∧
      (parsedKeyed messageV11).msgLen = (parsedKeyed messageBadPad).msgLen ∧
      encryptCheck true inputV12 = none ∧ encryptCheck true { loaded with ptLen := 1 } = none ∧
      encryptCheck false inputV12 = none ∧ inputV12.ptLen = { loaded with ptLen := 1 }.ptLen := by decide +kernel

theorem witness_BufferAndLengthOrderIsFree :
    State.reset.busy = false ∧ 4 * 1040 < State.reset.cmax + 68 ∧ 4 * 1023 < State.reset.cmax := by decide +kernel

end Sys2Proof.Tests
end

section
/-! # The state: what every step keeps, what the host sees of the registers, and what a reset leaves (10_state.md)

First the rules the proofs share: register transactions, lengths of the byte strings of a message, the body of a
command apart from its common completion. Then the invariant, update by update, and the statements. -/

namespace Sys2Proof.Machine

/-! ## Register transactions -/

/-- A read of the register page returns the register's word and leaves the rest of the state alone (R113). -/
theorem transact_read_reg {off : Nat} {r : Reg} (s : State) (hr : regAt off = r) (hoff : off < 0x1000)
    (h4 : off % 4 = 0) :
    transact (.read 4 off) s = .next { s with busOut := some (.data (readReg r s)) } :=
  transact_of_target _ s (.reg r) (hr ▸ targetAt_reg s.cmaxBlocks off hoff h4)

/-- A write to the register page is the register's own write, acknowledged. -/
theorem transact_write_reg {off : Nat} {r : Reg} (v : Word) (s : State) (hr : regAt off = r)
    (hoff : off < 0x1000) (h4 : off % 4 = 0) :
    transact (.write 4 off v) s = .next (respond .ack (writeReg r v s)) :=
  transact_of_target _ s (.reg r) (hr ▸ targetAt_reg s.cmaxBlocks off hoff h4)

/-- A write while idle to a register that is a command input has its idle effect. -/
theorem transact_write_idle {off : Nat} {r : Reg} {v : Word} {s : State} (f : State → State)
    (hw : writeReg r v s = whenIdle f s) (hs : s.busy = false) (hr : regAt off = r) (hoff : off < 0x1000)
    (h4 : off % 4 = 0) :
    transact (.write 4 off v) s = .next (respond .ack (f s)) := by
  rw [transact_write_reg v s hr hoff h4, hw, whenIdle_idle f s hs]

theorem regAt_keyEnc (i : Fin 8) : regAt (0x040 + 4 * i) = .keyEnc i := by revert i; decide
theorem regAt_keyMac (i : Fin 8) : regAt (0x060 + 4 * i) = .keyMac i := by revert i; decide
theorem regAt_iv (i : Fin 4) : regAt (0x080 + 4 * i) = .iv i := by revert i; decide
theorem regAt_esalt (i : Fin 2) : regAt (0x090 + 4 * i) = .esalt i := by revert i; decide
theorem regAt_hsalt (i : Fin 2) : regAt (0x098 + 4 * i) = .hsalt i := by revert i; decide

/-- The two reserved ranges of the register page (R68). -/
theorem regAt_reserved {off : Nat} (h : (0x02C ≤ off ∧ off < 0x040) ∨ (0x0A0 ≤ off ∧ off < 0x1000)) :
    regAt off = .reserved := by
  unfold regAt
  rcases h with ⟨hlo, hhi⟩ | ⟨hlo, hhi⟩
  · iterate 11 rw [if_neg (by omega)]
    rw [if_pos hhi]
  · iterate 17 rw [if_neg (by omega)]

/-- A write to a read-only register or to a reserved offset changes nothing. -/
theorem writeReg_readOnly {off : Nat} (v : Word) (s : State) (h4 : off % 4 = 0)
    (h : off = 0x000 ∨ off = 0x004 ∨ off = 0x010 ∨ off = 0x018 ∨ (0x024 ≤ off ∧ off < 0x040) ∨
      (0x0A0 ≤ off ∧ off < 0x1000)) :
    writeReg (regAt off) v s = s := by
  have hoff : off = 0x000 ∨ off = 0x004 ∨ off = 0x010 ∨ off = 0x018 ∨ off = 0x024 ∨ off = 0x028 ∨
      ((0x02C ≤ off ∧ off < 0x040) ∨ (0x0A0 ≤ off ∧ off < 0x1000)) := by omega
  rcases hoff with rfl | rfl | rfl | rfl | rfl | rfl | hres
  case inr.inr.inr.inr.inr.inr => rw [regAt_reserved hres]; rfl
  all_goals rfl

/-- One more low bit in a word. -/
theorem toNat_append_ofBool {n : Nat} (x : BitVec n) (b : Bool) :
    (x ++ BitVec.ofBool b).toNat = 2 * x.toNat + b.toNat := by
  rw [show x ++ BitVec.ofBool b = x.concat b from rfl, BitVec.toNat_concat, Nat.mul_comm]

/-- STATUS as a number: each field at its place (R48). -/
theorem State.toNat_statusWord (s : State) : s.statusWord.toNat =
    s.busy.toNat + 2 * s.done.toNat + 4 * s.err.toNat + 8 * s.parsed.toNat + 16 * s.pmode.toNat
      + 32 * s.wbusy.toNat + 64 * s.outValid.toNat := by
  simp only [State.statusWord, toNat_append_ofBool, BitVec.toNat_ofNat]
  omega

/-- LOADED as a number: each group at its place (R58). -/
theorem State.toNat_loadedWord (s : State) : s.loadedWord.toNat =
    s.kEncLoaded.toNat + 2 * s.kMacLoaded.toNat + 4 * s.ivLoaded.toNat + 8 * s.esaltLoaded.toNat
      + 16 * s.hsaltLoaded.toNat := by
  simp only [State.loadedWord, toNat_append_ofBool, BitVec.toNat_ofNat]
  omega

/-! ## Lengths of the byte strings of a message -/

/-- A digest has 32 bytes (R220, R221). -/
@[simp] theorem length_hmacSha256 (k m : List Byte) : (hmacSha256 k m).length = 32 := by
  simp [hmacSha256, sha256, Hash.bytes]

/-- The padded plaintext has N(L) bytes (R152, R212). -/
@[simp] theorem length_padInput (pt : List Byte) : (padInput pt).length = cipherLen pt.length := by
  unfold padInput
  split_ifs with h
  · simp [fixedPadBlock, cipherLen, h]
  · simp [pkcs7, cipherLen]
    omega

/-- The ciphertext of whole blocks is as long as the padded plaintext. -/
theorem length_cbcEnc (k iv p : List Byte) (h : p.length % 16 = 0) : (cbcEnc k iv p).length = p.length := by
  simp [cbcEnc]; omega

/-- The ciphertext has N(PT_LEN) bytes (R152). -/
@[simp] theorem State.length_cipherText (s : State) : s.cipherText.length = cipherLen s.ptLen.toNat := by
  have hlen : (padInput s.plaintext).length = cipherLen s.ptLen.toNat := by simp [State.plaintext]
  rw [State.cipherText, length_cbcEnc _ _ _ (by rw [hlen, cipherLen]; omega), hlen]

/-- The canonical header has H bytes (R148, R149). -/
@[simp] theorem State.length_header (s : State) (pw : Bool) : (s.header pw).length = headerLen pw := by
  cases pw <;> simp [State.header, Machine.header, headerLen, State.esaltBytes, State.hsaltBytes, State.ivBytes]

/-- A formatted message has H + N(PT_LEN) + 32 bytes (R150). -/
theorem State.length_message (s : State) (pw : Bool) :
    (s.message pw).length = headerLen pw + cipherLen s.ptLen.toNat + 32 := by
  simp [State.message, State.tag, Nat.add_assoc]

theorem headerLen_le (pw : Bool) : headerLen pw ≤ 34 := by cases pw <;> decide

/-- A plaintext that passes the length check has a ciphertext of at most CMAX bytes (R12). -/
theorem cipherLen_le_cmax (s : State) {l : Nat} (h : l ≤ s.cmax - 1) : cipherLen l ≤ s.cmax := by
  have := s.cmax_bounds
  unfold cipherLen
  omega

@[simp] theorem length_parsedIv (pw : Bool) (s : State) : (parsedIv pw s).length = 16 := by
  cases pw <;> simp [parsedIv]

@[simp] theorem length_parsedEsalt (pw : Bool) (s : State) : (parsedEsalt pw s).length = 8 := by
  cases pw <;> simp [parsedEsalt]

@[simp] theorem length_parsedHsalt (pw : Bool) (s : State) : (parsedHsalt pw s).length = 8 := by
  cases pw <;> simp [parsedHsalt]

/-- No verdict makes the candidate longer (R216). -/
theorem length_unpad_le (x : List Byte) : (unpad x).2.length ≤ x.length := by
  unfold unpad
  split <;> simp

/-- Past the checks of DEC the candidate has C_len bytes (R404). -/
theorem length_candidate (s : State) (h : s.cLen % 16 = 0) : (candidate s).length = s.cLen := by
  have hct : s.parsedCipherText.length = s.cLen := by simp [State.parsedCipherText]
  rw [candidate, length_cbcDec _ _ _ (by rw [hct, h]), hct]

/-- Zero words hold zero bytes. -/
theorem bytesOfWords_replicate_zero (n : Nat) :
    bytesOfWords (Vector.replicate n (0 : Word)).toList = zeros (4 * n) := by
  induction n with
  | zero => rfl
  | succ n ih =>
    simp only [bytesOfWords, zeros, bytesN, Vector.toList_replicate, List.replicate_succ,
      List.flatMap_cons] at ih ⊢
    rw [ih, Nat.mul_succ]
    rfl

/-! ## The body of a command -/

/-- What a command does before the common completion: its result code and its own writes. -/
def body (i : Instr) (s : State) : ResultCode × State :=
  match i with
  | .encp => encrypt true s
  | .enck => encrypt false s
  | .parsep => parse true s
  | .parsek => parse false s
  | .dec => decrypt s
  | .tagcmp => tagCompare s
  | .zeroize => scrub s
  | .illegal _ _ => (.badCommand, s)

/-- Every command is its body and then the common completion (R602, R614). -/
theorem exec_eq_commit_body (i : Instr) (s : State) :
    exec i s = .next (commit i (body i s).1 (body i s).2) := by
  cases i <;> rfl

/-- What the body of every command respects: code 8 is never its result (R610), and the flags, the latches, CMAX,
the coming events and the last response are left to the common completion and the host. -/
structure BodyFrame (s : State) (r : ResultCode × State) : Prop where
  code : r.1 ≠ .tagComputationFailed
  frame : r.2 = { r.2 with
    busy := s.busy, done := s.done, wbusy := s.wbusy, outValid := s.outValid, errCode := s.errCode,
    irqEn := s.irqEn, parsed := s.parsed, pmode := s.pmode, latched := s.latched,
    cmaxBlocks := s.cmaxBlocks, inbox := s.inbox, busOut := s.busOut }

theorem encrypt_frame (pw : Bool) (s : State) : BodyFrame s (encrypt pw s) := by
  rcases encrypt_cases pw s with e | e | ⟨-, e⟩ <;> rw [e] <;> exact ⟨nofun, rfl⟩

theorem parse_frame (pw : Bool) (s : State) : BodyFrame s (parse pw s) := by
  rcases parse_cases pw s with e | e | ⟨-, e⟩ <;> rw [e] <;> exact ⟨nofun, rfl⟩

theorem decrypt_frame (s : State) : BodyFrame s (decrypt s) := by
  rcases decrypt_cases s with ⟨code, hcode, e⟩ | ⟨-, -, -, e⟩
  · rw [e]
    rcases hcode with rfl | rfl | rfl | rfl <;> exact ⟨nofun, rfl⟩
  · rw [e]
    exact ⟨nofun, rfl⟩

theorem tagCompare_frame (s : State) : BodyFrame s (tagCompare s) := by
  refine ⟨?_, rfl⟩
  unfold tagCompare
  split <;> nofun

theorem body_frame (i : Instr) (s : State) : BodyFrame s (body i s) := by
  cases i with
  | encp => exact encrypt_frame true s
  | enck => exact encrypt_frame false s
  | parsep => exact parse_frame true s
  | parsek => exact parse_frame false s
  | dec => exact decrypt_frame s
  | tagcmp => exact tagCompare_frame s
  | zeroize => exact ⟨nofun, rfl⟩
  | illegal op rsv => exact ⟨nofun, rfl⟩

@[simp] theorem body_irqEn (i : Instr) (s : State) : (body i s).2.irqEn = s.irqEn := by
  rw [(body_frame i s).frame]

/-! ## Buffers and keys through the body of a command -/

theorem Memory.fits_iff (n : Nat) (m : Memory) : m.fits n = true ↔ m.wf = true ∧ m.below n = true := by
  simp [Memory.fits]

/-- A byte string stored within the size keeps a buffer a buffer of that size. -/
theorem Memory.fits_writeBytes {n : Nat} {m : Memory} (a : Nat) (bs : List Byte) (hm : m.fits n = true)
    (hn : a + bs.length ≤ n) : (m.writeBytes a bs).fits n = true := by
  obtain ⟨hwf, hbelow⟩ := (Memory.fits_iff n m).1 hm
  exact (Memory.fits_iff _ _).2
    ⟨Memory.wf_writeBytes bs m a hwf, Memory.below_writeBytes n bs m a hn hbelow⟩

theorem keyWordsMasked_zero (mask : BitVec 8) : keyWordsMasked mask (Vector.replicate 8 0) := by
  intro i _
  simp

/-- A key write sets the mask bit of the word it writes (R71). -/
theorem keyWordsMasked_set {mask : BitVec 8} {k : Vector Word 8} (h : keyWordsMasked mask k) (i : Fin 8)
    (v : Word) : keyWordsMasked (mask ||| BitVec.twoPow 8 i) (k.set i v) := by
  intro j hj
  simp only [BitVec.getLsbD_or, BitVec.getLsbD_twoPow, Bool.or_eq_false_iff, Bool.and_eq_false_iff,
    decide_eq_false_iff_not] at hj
  obtain ⟨hmask, hne⟩ := hj
  have hij : i.val ≠ j.val := by omega
  simpa [Vector.getElem_set_ne _ _ hij] using h j hmask

/-- The part of the invariant that is about data at rest: both buffers within their sizes, no key word without its
mask bit. -/
structure StorageInv (s : State) : Prop where
  msgbufFits : s.msgbuf.fits (4 * msgWords s.cmaxBlocks) = true
  ptbufFits : s.ptbuf.fits (4 * ptWords s.cmaxBlocks) = true
  encMasked : keyWordsMasked s.mkEnc s.kEnc
  macMasked : keyWordsMasked s.mkMac s.kMac

theorem Inv.storage {s : State} (h : Inv s) : StorageInv s := { h with }

theorem encrypt_storage (pw : Bool) {s : State} (h : StorageInv s) : StorageInv (encrypt pw s).2 := by
  rcases encrypt_cases pw s with e | e | ⟨hc, e⟩ <;> rw [e]
  · exact h
  · exact h
  · obtain ⟨-, -, -, -, hlen⟩ := (encryptCheck_none pw s).1 hc
    have hmessage : 0 + (s.message pw).length ≤ 4 * msgWords s.cmaxBlocks := by
      have hct := cipherLen_le_cmax s hlen
      have hh := headerLen_le pw
      rw [s.length_message, msgWords_bytes, ← State.cmax]
      omega
    exact { h with msgbufFits := Memory.fits_writeBytes 0 _ h.msgbufFits hmessage }

theorem parse_storage (pw : Bool) {s : State} (h : StorageInv s) : StorageInv (parse pw s).2 := by
  rcases parse_cases pw s with e | e | ⟨-, e⟩ <;> rw [e] <;> exact { h with }

/-- DEC releases at most C_len bytes, and the latch invariant holds C_len to CMAX (R404). -/
theorem decrypt_storage {s : State} (h : StorageInv s) (hp : s.parsed = true → ParsedMessage s) :
    StorageInv (decrypt s).2 := by
  rcases decrypt_cases s with ⟨code, -, e⟩ | ⟨hc, -, -, e⟩ <;> rw [e]
  · exact { h with ptbufFits := rfl }
  · obtain ⟨hparsed, -, -, -, hblocks⟩ := (decryptCheck_none s).1 hc
    have hrelease : 0 + (unpad (candidate s)).2.length ≤ 4 * ptWords s.cmaxBlocks := by
      have hunpad := length_unpad_le (candidate s)
      have hupper := (hp hparsed).upper
      rw [length_candidate s hblocks, State.cLen] at hunpad
      rw [ptWords_bytes, ← State.cmax]
      omega
    exact { h with ptbufFits := Memory.fits_writeBytes 0 _ rfl hrelease }

theorem scrub_storage (s : State) : StorageInv (scrub s).2 where
  msgbufFits := rfl
  ptbufFits := rfl
  encMasked := keyWordsMasked_zero 0
  macMasked := keyWordsMasked_zero 0

theorem body_storage (i : Instr) {s : State} (h : StorageInv s) (hp : s.parsed = true → ParsedMessage s) :
    StorageInv (body i s).2 := by
  cases i with
  | encp => exact encrypt_storage true h
  | enck => exact encrypt_storage false h
  | parsep => exact parse_storage true h
  | parsek => exact parse_storage false h
  | dec => exact decrypt_storage h hp
  | tagcmp => exact h
  | zeroize => exact scrub_storage s
  | illegal op rsv => exact h

/-! ## The latch invariant at a parse -/

/-- A parse that answers OK leaves the registers equal to the fields of the message (R400, R410). -/
theorem parse_message (pw : Bool) {s : State} (h : (parse pw s).1 = .ok) :
    ParsedMessage { (parse pw s).2 with pmode := pw } := by
  rcases parse_cases pw s with e | e | ⟨hc, e⟩ <;> rw [e] at h ⊢
  · nomatch h
  · nomatch h
  · obtain ⟨hlower, hupper⟩ := (parseCheck_none pw s).1 hc
    exact
      { lower := hlower
        upper := hupper
        version := rfl
        options := rfl
        esalt := bytesOfWords_wordsOfBytes 2 _ (length_parsedEsalt pw s)
        hsalt := bytesOfWords_wordsOfBytes 2 _ (length_parsedHsalt pw s)
        iv := bytesOfWords_wordsOfBytes 4 _ (length_parsedIv pw s)
        ivMask := rfl
        esaltMask := rfl
        hsaltMask := rfl }

theorem commit_parsedMessage (i : Instr) (s : State) (hi : isParse i = true) (hok : (body i s).1 = .ok) :
    ParsedMessage (commit i (body i s).1 (body i s).2) := by
  rw [hok]
  cases i with
  | parsep => exact { parse_message true hok with }
  | parsek => exact { parse_message false hok with }
  | _ => nomatch hi

/-! ## The invariant, update by update -/

theorem resetWith_inv (b : CmaxBlocks) : Inv (State.resetWith b) where
  busyLatched := rfl
  doneIdle := nofun
  busyCode := nofun
  codeWritten := by simp
  modeParsed := fun _ => rfl
  outputOk := nofun
  msgbufFits := rfl
  ptbufFits := rfl
  encMasked := keyWordsMasked_zero 0
  macMasked := keyWordsMasked_zero 0
  parsedMessage := nofun

theorem applyReset_inv (s : State) : Inv (applyReset s) :=
  { resetWith_inv s.cmaxBlocks with parsedMessage := nofun }

section
variable {s : State} (h : Inv s)
include h

theorem takeEvent_inv : Inv (takeEvent s) :=
  { h with parsedMessage := fun hp => { h.parsedMessage hp with } }

theorem respond_inv (r : BusResponse) : Inv (respond r s) :=
  { h with parsedMessage := fun hp => { h.parsedMessage hp with } }

theorem dropWrite_inv : Inv (dropWrite s) :=
  { h with parsedMessage := fun hp => { h.parsedMessage hp with } }

theorem writeIrqEn_inv (v : Word) : Inv (writeIrqEn v s) :=
  { h with parsedMessage := fun hp => { h.parsedMessage hp with } }

theorem writePtLen_inv (v : Word) : Inv (writePtLen v s) :=
  { h with parsedMessage := fun hp => { h.parsedMessage hp with } }

theorem writeStatus_inv (v : Word) : Inv (writeStatus v s) :=
  { h with
    doneIdle := fun hd => h.doneIdle (Bool.and_eq_true_iff.1 hd).1
    parsedMessage := fun hp => { h.parsedMessage hp with } }

theorem accept_inv (w : Word) : Inv (accept w s) :=
  { h with
    busyLatched := rfl
    doneIdle := nofun
    busyCode := fun _ => rfl
    codeWritten := by simp
    outputOk := fun ho => ⟨rfl, (h.outputOk ho).2⟩
    parsedMessage := fun hp => { h.parsedMessage hp with } }

theorem writeKeyEnc_inv (i : Fin 8) (v : Word) : Inv (writeKeyEnc i v s) :=
  { h with
    encMasked := keyWordsMasked_set h.encMasked i v
    parsedMessage := fun hp => { h.parsedMessage hp with } }

theorem writeKeyMac_inv (i : Fin 8) (v : Word) : Inv (writeKeyMac i v s) :=
  { h with
    macMasked := keyWordsMasked_set h.macMasked i v
    parsedMessage := fun hp => { h.parsedMessage hp with } }

theorem writePtWord_inv {j : Nat} (hj : j < ptWords s.cmaxBlocks) (v : Word) : Inv (writePtWord j v s) :=
  have hword : 4 * j + 4 ≤ 4 * ptWords s.cmaxBlocks := by omega
  { h with
    ptbufFits := Memory.fits_writeWord _ _ j v hword h.ptbufFits
    parsedMessage := fun hp => { h.parsedMessage hp with } }

/-- Whatever an input write stores in MSG_LEN, IV, the salts, their masks or MSGBUF, it clears the latch that
speaks of them (R72). -/
theorem clearParsed_inputs_inv (len : Word) (iv : Vector Word 4) (esalt hsalt : Vector Word 2)
    (mkIv : BitVec 4) (mkEsalt mkHsalt : BitVec 2) {m : Memory}
    (hm : m.fits (4 * msgWords s.cmaxBlocks) = true) :
    Inv (clearParsed { s with
      msgLen := len, iv := iv, esalt := esalt, hsalt := hsalt, mkIv := mkIv, mkEsalt := mkEsalt,
      mkHsalt := mkHsalt, msgbuf := m }) :=
  { h with
    modeParsed := fun _ => rfl
    outputOk := fun ho => ⟨(h.outputOk ho).1, rfl⟩
    msgbufFits := hm
    parsedMessage := nofun }

theorem writeMsgLen_inv (v : Word) : Inv (writeMsgLen v s) :=
  clearParsed_inputs_inv h _ _ _ _ _ _ _ h.msgbufFits

theorem writeIv_inv (i : Fin 4) (v : Word) : Inv (writeIv i v s) :=
  clearParsed_inputs_inv h _ _ _ _ _ _ _ h.msgbufFits

theorem writeEsalt_inv (i : Fin 2) (v : Word) : Inv (writeEsalt i v s) :=
  clearParsed_inputs_inv h _ _ _ _ _ _ _ h.msgbufFits

theorem writeHsalt_inv (i : Fin 2) (v : Word) : Inv (writeHsalt i v s) :=
  clearParsed_inputs_inv h _ _ _ _ _ _ _ h.msgbufFits

theorem writeMsgWord_inv {j : Nat} (hj : j < msgWords s.cmaxBlocks) (v : Word) : Inv (writeMsgWord j v s) :=
  clearParsed_inputs_inv h _ _ _ _ _ _ _ (Memory.fits_writeWord _ _ j v (by omega) h.msgbufFits)

end

/-! ## The invariant through a transaction -/

/-- The words a transaction reaches lie in their buffers (R104, R107, R108). -/
theorem Transaction.target_bounds {b : CmaxBlocks} {t : Transaction} {g : Target} (h : t.target b = some g) :
    (∀ j, g = .msgWord j → j < msgWords b) ∧ (∀ j, g = .ptWord j → j < ptWords b) := by
  unfold Transaction.target at h
  split_ifs at h
  obtain ⟨-, ⟨-, rfl⟩ | ⟨j, hj, -, rfl⟩ | ⟨j, hj, -, rfl⟩⟩ := targetAt_cases b _ g h
  · exact ⟨nofun, nofun⟩
  · exact ⟨fun _ hk => Target.msgWord.inj hk ▸ hj, nofun⟩
  · exact ⟨nofun, fun _ hk => Target.ptWord.inj hk ▸ hj⟩

theorem writeTarget_inv {s : State} (h : Inv s) {g : Target} (v : Word)
    (hmsg : ∀ j, g = .msgWord j → j < msgWords s.cmaxBlocks)
    (hpt : ∀ j, g = .ptWord j → j < ptWords s.cmaxBlocks) : Inv (writeTarget g v s) := by
  rcases writeTarget_cases g v s with e | e | e | ⟨-, e⟩ | ⟨-, e | e | e | ⟨i, e⟩ | ⟨i, e⟩ | ⟨i, e⟩ | ⟨i, e⟩ |
      ⟨i, e⟩ | ⟨j, hg, e⟩ | ⟨j, hg, e⟩⟩ <;> rw [e]
  · exact h
  · exact writeStatus_inv h v
  · exact writeIrqEn_inv h v
  · exact dropWrite_inv h
  · exact accept_inv h v
  · exact writePtLen_inv h v
  · exact writeMsgLen_inv h v
  · exact writeKeyEnc_inv h i v
  · exact writeKeyMac_inv h i v
  · exact writeIv_inv h i v
  · exact writeEsalt_inv h i v
  · exact writeHsalt_inv h i v
  · exact writeMsgWord_inv h (hmsg j hg) v
  · exact writePtWord_inv h (hpt j hg) v

theorem transact_inv {s s' : State} {t : Transaction} (h : Inv s) (ht : transact t s = .next s') : Inv s' := by
  obtain ⟨g, hg, rfl⟩ := (transact_next t s s').1 ht
  obtain ⟨hmsg, hpt⟩ := Transaction.target_bounds hg
  cases t with
  | read size off => exact respond_inv h _
  | write size off v => exact respond_inv (writeTarget_inv h v hmsg hpt) _

/-! ## The invariant through a commit -/

/-- Codes 9 to 15 do not exist and code 8 is excluded (R603, R621). -/
theorem ResultCode.bits_le {code : ResultCode} (h : code ≠ .tagComputationFailed) : code.bits.toNat ≤ 7 := by
  cases code with
  | tagComputationFailed => exact absurd rfl h
  | _ => decide

theorem isParse_of_isPasswordParse {i : Instr} (h : isPasswordParse i = true) : isParse i = true := by
  cases i with
  | parsep => rfl
  | _ => nomatch h

theorem not_isParse_of_makesOutput {i : Instr} (h : makesOutput i = true) : isParse i = false := by
  cases i with
  | parsep | parsek => nomatch h
  | _ => rfl

/-- The common completion establishes the flags of the invariant by itself; it needs the data at rest, a code that
exists, and the latch invariant where it sets the latch. -/
theorem commit_inv {i : Instr} {code : ResultCode} {s : State} (hs : StorageInv s)
    (hcode : code ≠ .tagComputationFailed)
    (hp : isParse i = true → code = .ok → ParsedMessage (commit i code s)) : Inv (commit i code s) where
  busyLatched := rfl
  doneIdle := fun _ => rfl
  busyCode := nofun
  codeWritten := ResultCode.bits_le hcode
  modeParsed := by
    simp only [commit_parsed, commit_pmode, Bool.and_eq_false_iff]
    exact Or.imp_left fun hi => Bool.eq_false_iff.2 fun hpw =>
      Bool.eq_false_iff.1 hi (isParse_of_isPasswordParse hpw)
  outputOk := by
    simp only [commit_outValid, commit_errCode, commit_parsed, Bool.and_eq_true, beq_iff_eq]
    rintro ⟨hi, rfl⟩
    exact ⟨rfl, by simp [not_isParse_of_makesOutput hi]⟩
  msgbufFits := hs.msgbufFits
  ptbufFits := hs.ptbufFits
  encMasked := by
    simp only [commit_mkEnc, commit_kEnc]
    split
    · exact keyWordsMasked_zero 0
    · exact hs.encMasked
  macMasked := by
    simp only [commit_mkMac, commit_kMac]
    split
    · exact keyWordsMasked_zero 0
    · exact hs.macMasked
  parsedMessage := by
    simp only [commit_parsed, Bool.and_eq_true, beq_iff_eq]
    exact fun ⟨hi, hok⟩ => hp hi hok

theorem exec_inv {s t : State} (i : Instr) (h : Inv s) (ht : exec i s = .next t) : Inv t := by
  rw [exec_eq_commit_body] at ht
  obtain rfl := Host.Outcome.next.inj ht
  exact commit_inv (body_storage i h.storage h.parsedMessage) (body_frame i s).code (commit_parsedMessage i s)

/-- Settles O24: the case split is what a step can do, and each case has its rule above. -/
theorem stepKeepsInvariant : Obligations.StepKeepsInvariant := by
  intro s t h ht
  have hs := takeEvent_inv h
  rcases step_cases s t ht with ⟨tr, -, htr⟩ | ⟨w, -, -, -, hexec⟩ | ⟨-, -, rfl⟩ | ⟨-, rfl⟩
  · exact transact_inv hs htr
  · exact exec_inv (decode w) hs hexec
  · exact hs
  · exact applyReset_inv _

/-- Settles O23: the invariant at reset. -/
theorem resetMeetsInvariant : Obligations.ResetMeetsInvariant := resetWith_inv

/-! ## The interrupt output -/

/-- Settles O22: the commit by the frame of the command's body, the three writes by their register's rule. -/
theorem interruptFollowsDone : Obligations.InterruptFollowsDone := by
  refine ⟨fun _ => rfl, fun i s t h => ?_, fun s t w hs h => ?_, fun s t v hv h => ?_, fun s t v h => ?_⟩
  · rw [exec_eq_commit_body] at h
    obtain rfl := Host.Outcome.next.inj h
    simp [State.irq]
  · rw [transact_write_idle (r := .cmd) (accept w) rfl hs rfl (by decide) (by decide)] at h
    obtain rfl := Host.Outcome.next.inj h
    exact ⟨rfl, rfl⟩
  · rw [transact_write_reg (r := .status) v s rfl (by decide) (by decide)] at h
    obtain rfl := Host.Outcome.next.inj h
    simp [State.irq, writeReg, writeStatus, hv]
  · rw [transact_write_reg (r := .irqEn) v s rfl (by decide) (by decide)] at h
    obtain rfl := Host.Outcome.next.inj h
    exact ⟨rfl, fun hv => Bool.and_eq_false_iff.2 (.inr hv)⟩

/-! ## The keys are unobservable -/

/-- No read depends on a key (R63, R64). -/
theorem readTarget_withoutKeys (g : Target) (s : State) : readTarget g s.withoutKeys = readTarget g s := by
  rcases g with r | j | j
  · cases r <;> rfl
  · rfl
  · rfl

/-- An input write that looks at no key looks at none when it is dropped either. -/
theorem whenIdle_withoutKeys {f : State → State}
    (hf : ∀ s, (f s.withoutKeys).withoutKeys = (f s).withoutKeys) (s : State) :
    (whenIdle f s.withoutKeys).withoutKeys = (whenIdle f s).withoutKeys := by
  cases hs : s.busy
  · rw [whenIdle_idle f s hs, whenIdle_idle f s.withoutKeys hs, hf]
  · rw [whenIdle_busy f s hs, whenIdle_busy f s.withoutKeys hs]
    rfl

/-- Forgetting the keys before a write, and after it, is the same as forgetting them after it. -/
theorem writeTarget_withoutKeys (g : Target) (v : Word) (s : State) :
    (writeTarget g v s.withoutKeys).withoutKeys = (writeTarget g v s).withoutKeys := by
  rcases g with r | j | j
  · cases r with
    | cmd | ptLen | msgLen | keyEnc i | keyMac i | iv i | esalt i | hsalt i =>
      exact whenIdle_withoutKeys (fun _ => rfl) s
    | _ => rfl
  · exact whenIdle_withoutKeys (fun _ => rfl) s
  · exact whenIdle_withoutKeys (fun _ => rfl) s

/-- What a served transaction answers and leaves, but for the keys, is a function of the state without its keys. -/
theorem serve_withoutKeys (t : Transaction) (g : Target) (s : State) :
    (serve t g s.withoutKeys).withoutKeys = (serve t g s).withoutKeys := by
  cases t with
  | read size off => simp only [serve, readTarget_withoutKeys]; rfl
  | write size off v => exact congrArg (respond .ack) (writeTarget_withoutKeys g v s)

/-- Settles O54: both states are served at the same target, and serving looks at no key. -/
theorem keysAreUnobservable : Obligations.KeysAreUnobservable := by
  intro s1 s2 t h
  have hcmax : s1.cmaxBlocks = s2.cmaxBlocks := (congrArg State.cmaxBlocks h :)
  cases hg : t.target s1.cmaxBlocks with
  | none => exact .inl ⟨_, transact_of_none t s1 hg, transact_of_none t s2 (hcmax ▸ hg)⟩
  | some g =>
    have hserve : (serve t g s1).withoutKeys = (serve t g s2).withoutKeys := by
      rw [← serve_withoutKeys t g s1, h, serve_withoutKeys]
    exact .inr ⟨_, _, transact_of_target t s1 g hg, transact_of_target t s2 g (hcmax ▸ hg),
      (congrArg State.busOut hserve :), hserve⟩

/-! ## Reset -/

/-- A reset event is served by the reset of the block, whatever it was doing (R702). -/
theorem step_of_reset {s : State} {rest : List Event} (h : s.inbox = .reset :: rest) :
    step s = .next (applyReset (takeEvent s)) := by
  simp [step, nextEvent, h]

@[simp] theorem applyReset_statusWord (s : State) : (applyReset s).statusWord = 0 := by
  simp [State.statusWord, State.err]

@[simp] theorem applyReset_loadedWord (s : State) : (applyReset s).loadedWord = 0 := by
  simp [State.loadedWord, State.kEncLoaded, State.kMacLoaded, State.ivLoaded, State.esaltLoaded,
    State.hsaltLoaded]

/-- Settles O7: every field by the rules of `applyReset`, the byte strings by their zero words. -/
theorem resetLeavesZeros : Obligations.ResetLeavesZeros := by
  intro s rest h
  exact ⟨_, step_of_reset h, rfl, rfl, applyReset_statusWord _, rfl, rfl, rfl, applyReset_loadedWord _,
    rfl, rfl, rfl, rfl, rfl, rfl, rfl, rfl, rfl,
    bytesOfWords_replicate_zero 8, bytesOfWords_replicate_zero 8, bytesOfWords_replicate_zero 4,
    bytesOfWords_replicate_zero 2, bytesOfWords_replicate_zero 2, fun _ => rfl, fun _ => rfl, rfl⟩

/-! ## The registers -/

/-- Settles O35: each offset reaches its key word, and the register's rule gives the next state. -/
theorem keyWordAccess : Obligations.KeyWordAccess := by
  intro s i v
  refine ⟨fun hs => ⟨?_, ?_⟩, ?_, ?_⟩
  · exact transact_write_idle (writeKeyEnc i v) rfl hs (regAt_keyEnc i) (by omega) (by omega)
  · exact transact_write_idle (writeKeyMac i v) rfl hs (regAt_keyMac i) (by omega) (by omega)
  · exact transact_read_reg s (regAt_keyEnc i) (by omega) (by omega)
  · exact transact_read_reg s (regAt_keyMac i) (by omega) (by omega)

/-- Settles O36: each offset reaches its word, and the register's rule gives the next state. -/
theorem ivAndSaltAccess : Obligations.IvAndSaltAccess := by
  refine ⟨fun s i v => ⟨fun hs => ?_, ?_⟩, fun s i v => ⟨fun hs => ⟨?_, ?_⟩, ?_, ?_⟩⟩
  · exact transact_write_idle (writeIv i v) rfl hs (regAt_iv i) (by omega) (by omega)
  · exact transact_read_reg s (regAt_iv i) (by omega) (by omega)
  · exact transact_write_idle (writeEsalt i v) rfl hs (regAt_esalt i) (by omega) (by omega)
  · exact transact_write_idle (writeHsalt i v) rfl hs (regAt_hsalt i) (by omega) (by omega)
  · exact transact_read_reg s (regAt_esalt i) (by omega) (by omega)
  · exact transact_read_reg s (regAt_hsalt i) (by omega) (by omega)

theorem State.irqEnWord_eq (s : State) : s.irqEnWord = if s.irqEn then 1 else 0 := by
  unfold State.irqEnWord
  cases s.irqEn <;> rfl

/-- Settles O37, register by register. -/
theorem lengthAndEnableAccess : Obligations.LengthAndEnableAccess := by
  intro s v
  refine ⟨fun hs => ⟨?_, ?_⟩, ?_, ?_, ?_, ?_⟩
  · exact transact_write_idle (r := .ptLen) (writePtLen v) rfl hs rfl (by decide) (by decide)
  · exact transact_write_idle (r := .msgLen) (writeMsgLen v) rfl hs rfl (by decide) (by decide)
  · exact transact_write_reg (r := .irqEn) v s rfl (by decide) (by decide)
  · exact transact_read_reg (r := .ptLen) s rfl (by decide) (by decide)
  · exact transact_read_reg (r := .msgLen) s rfl (by decide) (by decide)
  · rw [← s.irqEnWord_eq]
    exact transact_read_reg (r := .irqEn) s rfl (by decide) (by decide)

/-- STATUS.ERR reads 1 exactly when ERR_CODE is not 0 (R51). -/
theorem State.toNat_err (s : State) : s.err.toNat = if s.errCode = 0 then 0 else 1 := by
  by_cases h : s.errCode = 0#4 <;> simp [State.err, h]

/-- Settles O38: the read by the value of STATUS as a number. -/
theorem statusLayout : Obligations.StatusLayout := by
  intro s v
  refine ⟨?_, transact_write_reg (r := .status) v s rfl (by decide) (by decide)⟩
  rw [← s.toNat_err, ← s.toNat_statusWord, BitVec.ofNat_toNat, BitVec.setWidth_eq]
  exact transact_read_reg (r := .status) s rfl (by decide) (by decide)

/-- A bit of weight `k` that shows an equality. -/
theorem mul_toNat_beq {n : Nat} (k : Nat) (x y : BitVec n) : k * (x == y).toNat = if x = y then k else 0 := by
  by_cases h : x = y <;> simp [h]

/-- Settles O39: the read by the value of LOADED as a number. -/
theorem loadedShowsFullMasks : Obligations.LoadedShowsFullMasks := by
  intro s v
  refine ⟨?_, transact_write_reg (r := .loaded) v s rfl (by decide) (by decide)⟩
  have hword : s.loadedWord.toNat =
      (if s.mkEnc = 0xFF then 1 else 0) + (if s.mkMac = 0xFF then 2 else 0) + (if s.mkIv = 0xF then 4 else 0)
        + (if s.mkEsalt = 0x3 then 8 else 0) + (if s.mkHsalt = 0x3 then 16 else 0) := by
    simp only [s.toNat_loadedWord, State.kEncLoaded, State.kMacLoaded, State.ivLoaded, State.esaltLoaded,
      State.hsaltLoaded, ← mul_toNat_beq, Nat.one_mul]
  rw [← hword, BitVec.ofNat_toNat, BitVec.setWidth_eq]
  exact transact_read_reg (r := .loaded) s rfl (by decide) (by decide)

/-- Settles O40, register by register; the reserved ranges as one register. -/
theorem readOnlyRegisters : Obligations.ReadOnlyRegisters := by
  intro s off v
  refine ⟨?_, ?_, ⟨s.errCodeWord, ?_, ?_⟩, ⟨s.version.setWidth 32, ?_, ?_⟩,
    ⟨s.options.setWidth 32, ?_, ?_⟩, fun h4 h => ?_, fun h4 h => ?_⟩
  · exact transact_read_reg (r := .id) s rfl (by decide) (by decide)
  · exact transact_read_reg (r := .caps) s rfl (by decide) (by decide)
  · exact transact_read_reg (r := .errCode) s rfl (by decide) (by decide)
  · exact BitVec.toNat_setWidth_of_le (by decide)
  · exact transact_read_reg (r := .version) s rfl (by decide) (by decide)
  · exact BitVec.toNat_setWidth_of_le (by decide)
  · exact transact_read_reg (r := .options) s rfl (by decide) (by decide)
  · exact BitVec.toNat_setWidth_of_le (by decide)
  · exact transact_read_reg s (regAt_reserved h) (by omega) h4
  · rw [transact_write_reg v s rfl (by omega) h4, writeReg_readOnly v s h4 h]
    rfl

end Sys2Proof.Machine
end

section
/-! # The bus: what a step serves, which transactions fault, and what reads and writes do (20_memory.md)

First the rules: the step on each kind of event, the address map, one word of a buffer, and a write served twice or
while BUSY. Then the statements. -/

namespace Sys2Proof.Machine

/-! ## The step, event by event -/

/-- A transaction at the head of the inbox is what the step serves (R118). -/
theorem step_of_bus {s : State} {t : Transaction} {rest : List Event} (h : s.inbox = .bus t :: rest) :
    step s = transact t (takeEvent s) := by
  simp [step, nextEvent, h]

/-- The engine has its turn when the inbox says so or says nothing. -/
theorem nextEvent_engineTurn {s : State} (h : s.inbox = [] ∨ ∃ rest, s.inbox = .engineTurn :: rest) :
    nextEvent s = .engineTurn := by
  rcases h with h | ⟨rest, h⟩ <;> simp [nextEvent, h]

/-- The engine's turn while BUSY is the commit of the latched command (R120). -/
theorem step_of_commandInFlight {s : State} {w : Word} (h : nextEvent s = .engineTurn) (hb : s.busy = true)
    (hl : s.latched = some w) : step s = exec (decode w) (takeEvent s) := by
  simp [step, h, engineStep, commandInFlight, hb, hl]

/-- The engine's turn while IDLE changes nothing but the inbox. -/
theorem step_of_idle {s : State} (h : nextEvent s = .engineTurn) (hb : s.busy = false) :
    step s = .next (takeEvent s) := by
  simp [step, h, engineStep, commandInFlight, hb]

/-- Settles O4, by the two rules of the engine's turn. -/
theorem stepRunsDecodedCommand : Obligations.StepRunsDecodedCommand := by
  refine ⟨fun s w i hturn hb hl hi _ => ?_, fun s hturn hb => ?_⟩
  · rw [← hi]
    exact step_of_commandInFlight (nextEvent_engineTurn hturn) hb hl
  · exact step_of_idle (nextEvent_engineTurn hturn) hb

/-- Settles O6, by the rule of each host event. -/
theorem stepServesHostEvents : Obligations.StepServesHostEvents := by
  refine ⟨fun s t rest h => ?_, fun s rest h => ?_⟩
  · rw [step_of_bus h, takeEvent, h, List.tail_cons]
  · rw [step_of_reset h, applyReset, takeEvent_inbox, takeEvent_cmaxBlocks, h, List.tail_cons]

/-! ## The address map -/

/-- The offsets that reach nothing: misaligned, past the register page, past either buffer (R102, R104, R106). -/
theorem targetAt_eq_none_iff (b : CmaxBlocks) (off : Nat) :
    targetAt b off = none ↔
      off % 4 ≠ 0 ∨ (0x1000 ≤ off ∧ off < 0x10000) ∨
        (0x10000 + cmaxOf b + 68 ≤ off ∧ off < 0x20000) ∨ 0x20000 + cmaxOf b ≤ off := by
  have hmsg := msgWords_bytes b
  have hpt := ptWords_bytes b
  unfold targetAt
  split_ifs <;> simp only [true_iff, false_iff] <;> omega

theorem Transaction.target_eq_none_iff (b : CmaxBlocks) (t : Transaction) :
    t.target b = none ↔ t.size ≠ 4 ∨ targetAt b t.off = none := by
  by_cases h : t.size = 4 <;> simp [Transaction.target, h]

/-- Settles O28, by what the address map leaves out. -/
theorem busErrorsExactly : Obligations.BusErrorsExactly := by
  intro s t
  have hnone := (t.target_eq_none_iff s.cmaxBlocks).trans
    (or_congr_right (targetAt_eq_none_iff s.cmaxBlocks t.off))
  refine ⟨fun h => transact_of_none t s (hnone.2 h), fun h => ?_⟩
  obtain ⟨g, hg⟩ := Option.ne_none_iff_exists'.1 (mt hnone.1 h)
  exact ⟨_, transact_of_target t s g hg⟩

/-- CMD is at one offset of the register page only (R44). -/
theorem regAt_ne_cmd {off : Nat} (hpage : off < 0x1000) (h4 : off % 4 = 0) (h : off ≠ 0x008) :
    regAt off ≠ .cmd := by
  rcases Nat.lt_or_ge off 0x0A0 with hlo | hhi
  · have named : ∀ k : Fin 40, k.val ≠ 2 → regAt (4 * k) ≠ .cmd := by decide
    obtain ⟨k, rfl⟩ := Nat.dvd_of_mod_eq_zero h4
    exact named ⟨k, by omega⟩ fun hk => h (congrArg (4 * ·) hk)
  · rw [regAt_reserved (.inr ⟨hhi, hpage⟩)]
    exact nofun

theorem targetAt_ne_cmd {b : CmaxBlocks} {off : Nat} {g : Target} (hoff : off ≠ 0x008)
    (hg : targetAt b off = some g) : g ≠ .reg .cmd := by
  obtain ⟨h4, ⟨hpage, rfl⟩ | ⟨j, -, -, rfl⟩ | ⟨j, -, -, rfl⟩⟩ := targetAt_cases b off g hg
  · exact fun h => regAt_ne_cmd hpage h4 hoff (Target.reg.inj h)
  · exact nofun
  · exact nofun

/-- A 32-bit read of a mapped offset answers the word it reaches and leaves the rest of the state alone (R113). -/
theorem transact_read {off : Nat} {g : Target} {x : Word} {s : State} (hg : targetAt s.cmaxBlocks off = some g)
    (hx : readTarget g s = x) : transact (.read 4 off) s = .next { s with busOut := some (.data x) } :=
  hx ▸ transact_of_target _ s g hg

/-- A 32-bit write to a mapped offset is the write to the word it reaches, acknowledged. -/
theorem transact_write {off : Nat} {g : Target} {v : Word} {s t : State}
    (hg : targetAt s.cmaxBlocks off = some g) (ht : writeTarget g v s = t) :
    transact (.write 4 off v) s = .next (respond .ack t) :=
  ht ▸ transact_of_target _ s g hg

/-- A 32-bit transaction that does not fault is served at a mapped offset. -/
theorem targetAt_of_transact {t : Transaction} {s s' : State} (h4 : t.size = 4) (h : transact t s = .next s') :
    ∃ g, targetAt s.cmaxBlocks t.off = some g ∧ s' = serve t g s := by
  obtain ⟨g, hg, hs'⟩ := (transact_next t s s').1 h
  exact ⟨g, by rwa [Transaction.target, if_pos h4] at hg, hs'⟩

/-! ## What is not the block's to change -/

/-- A write leaves the host's future and CMAX alone. -/
theorem writeTarget_host (g : Target) (v : Word) (s : State) :
    (writeTarget g v s).inbox = s.inbox ∧ (writeTarget g v s).cmaxBlocks = s.cmaxBlocks := by
  rcases writeTarget_cases g v s with e | e | e | ⟨-, e⟩ | ⟨-, e | e | e | ⟨i, e⟩ | ⟨i, e⟩ | ⟨i, e⟩ | ⟨i, e⟩ |
      ⟨i, e⟩ | ⟨j, -, e⟩ | ⟨j, -, e⟩⟩ <;> rw [e] <;> exact ⟨rfl, rfl⟩

/-- A transaction leaves the host's future and CMAX alone. -/
theorem transact_host {t : Transaction} {s s' : State} (h : transact t s = .next s') :
    s'.inbox = s.inbox ∧ s'.cmaxBlocks = s.cmaxBlocks := by
  obtain ⟨g, -, rfl⟩ := (transact_next t s s').1 h
  cases t with
  | read size off => exact ⟨rfl, rfl⟩
  | write size off v => exact writeTarget_host g v s

/-- A commit leaves the host's future and CMAX alone. -/
theorem exec_host {i : Instr} {s s' : State} (h : exec i s = .next s') :
    s'.inbox = s.inbox ∧ s'.cmaxBlocks = s.cmaxBlocks := by
  rw [exec_eq_commit_body, (body_frame i s).frame] at h
  obtain rfl := Host.Outcome.next.inj h
  exact ⟨rfl, rfl⟩

/-- A step takes one event of the host and leaves the later ones and CMAX alone. -/
theorem step_host {s t : State} (h : step s = .next t) :
    t.inbox = s.inbox.tail ∧ t.cmaxBlocks = s.cmaxBlocks := by
  rcases step_cases s t h with ⟨tr, -, htr⟩ | ⟨w, -, -, -, hexec⟩ | ⟨-, -, rfl⟩ | ⟨-, rfl⟩
  · exact transact_host htr
  · exact exec_host hexec
  · exact ⟨rfl, rfl⟩
  · exact ⟨rfl, rfl⟩

/-! ## Reads -/

/-- No read depends on the response to the transaction before it. -/
theorem readTarget_busOut (g : Target) (s : State) (o : Option BusResponse) :
    readTarget g { s with busOut := o } = readTarget g s := by
  rcases g with r | j | j
  · cases r <;> rfl
  · rfl
  · rfl

/-- Settles O29: the state after a read is the state before it, but for the response. -/
theorem readsHaveNoSideEffect : Obligations.ReadsHaveNoSideEffect := by
  intro s t off h
  obtain ⟨g, hg, rfl⟩ := targetAt_of_transact (t := .read 4 off) rfl h
  exact ⟨rfl, fun o => transact_read (s := { s with busOut := o }) hg (readTarget_busOut g s o)⟩

/-! ## One word of a buffer -/

/-- The bytes of a stored word, lowest index in bits 31 to 24 (R107, R108). -/
theorem Memory.read_writeWord {m : Memory} (hm : m.wf = true) (j : Nat) (v : Word) :
    (m.writeWord j v).read (4 * j) = v.extractLsb' 24 8 ∧
    (m.writeWord j v).read (4 * j + 1) = v.extractLsb' 16 8 ∧
    (m.writeWord j v).read (4 * j + 2) = v.extractLsb' 8 8 ∧
    (m.writeWord j v).read (4 * j + 3) = v.extractLsb' 0 8 := by
  have lane := fun i (hi : i < 4) => Memory.read_writeBytes (bytesBe32 v) m (4 * j) i hm hi
  exact ⟨lane 0 (by decide), lane 1 (by decide), lane 2 (by decide), lane 3 (by decide)⟩

theorem Memory.read_writeWord_other (m : Memory) (j : Nat) (v : Word) (a : Nat)
    (ha : a < 4 * j ∨ 4 * j + 4 ≤ a) : (m.writeWord j v).read a = m.read a :=
  Memory.read_writeBytes_other (bytesBe32 v) m (4 * j) a ha

theorem Memory.readWord_writeWord {m : Memory} (hm : m.wf = true) (j : Nat) (v : Word) :
    (m.writeWord j v).readWord j = v := by
  obtain ⟨h0, h1, h2, h3⟩ := Memory.read_writeWord hm j v
  rw [Memory.readWord, h0, h1, h2, h3, be32_lanes]

/-- Storing the byte a canonical buffer already holds changes nothing. -/
theorem Memory.write_read_self {m : Memory} (hm : m.wf = true) (a : Nat) : m.write a (m.read a) = m := by
  induction m with
  | nil => rfl
  | cons c m ih =>
    obtain ⟨k, b⟩ := c
    obtain ⟨hb, hk, hwf⟩ := (Memory.wf_cons k b m).1 hm
    rcases Nat.lt_trichotomy a k with hlt | rfl | hgt
    · have hread : Memory.read ((k, b) :: m) a = 0 :=
        Memory.read_of_lt _ a (List.forall_mem_cons.2 ⟨hlt, fun c hc => hlt.trans (hk c hc)⟩)
      simp [hread, Memory.write, hlt, unlistedByte]
    · simpa [Memory.read, Memory.write, unlistedByte] using fun h => absurd h hb
    · have hne : a ≠ k := Nat.ne_of_gt hgt
      simp [Memory.read, Memory.write, hne, Nat.not_lt_of_gt hgt, ih hwf]

/-- Storing a byte string a canonical buffer already holds changes nothing. -/
theorem Memory.writeBytes_eq_self {m : Memory} (hm : m.wf = true) (bs : List Byte) (a : Nat)
    (h : ∀ i, i < bs.length → m.read (a + i) = bs.getD i 0) : m.writeBytes a bs = m := by
  induction bs generalizing a with
  | nil => rfl
  | cons b bs ih =>
    have hb : m.read a = b := by simpa using h 0 (by simp)
    rw [Memory.writeBytes, ← hb, Memory.write_read_self hm]
    refine ih (a + 1) fun i hi => ?_
    simpa [Nat.add_assoc, Nat.add_comm 1] using h (i + 1) (by simpa using hi)

theorem Memory.writeWord_writeWord {m : Memory} (hm : m.wf = true) (j : Nat) (v : Word) :
    (m.writeWord j v).writeWord j v = m.writeWord j v :=
  Memory.writeBytes_eq_self (Memory.wf_writeBytes _ m _ hm) _ _ fun i hi =>
    Memory.read_writeBytes (bytesBe32 v) m (4 * j) i hm hi

/-! ## The buffer windows -/

section
variable {s : State} (j : Nat)

theorem readTarget_msgWord_idle (hs : s.busy = false) : readTarget (.msgWord j) s = s.msgbuf.readWord j := by
  simp [readTarget, hs]

theorem readTarget_msgWord_busy (hs : s.busy = true) : readTarget (.msgWord j) s = 0 := by
  simp [readTarget, hs]

theorem readTarget_ptWord_idle (hs : s.busy = false) : readTarget (.ptWord j) s = s.ptbuf.readWord j := by
  simp [readTarget, hs]

theorem readTarget_ptWord_busy (hs : s.busy = true) : readTarget (.ptWord j) s = 0 := by
  simp [readTarget, hs]

end

/-- Settles O33: the window reaches its word, and the word's lanes are the buffer's bytes. -/
theorem msgbufWindow : Obligations.MsgbufWindow := by
  intro s j v hm hj
  have hg : targetAt s.cmaxBlocks (0x10000 + 4 * j) = some (.msgWord j) := by
    have hsize := msgWords_bytes s.cmaxBlocks
    rw [State.cmax] at hj
    exact targetAt_msgWord _ _ (by omega)
  refine
    ⟨fun hs => ⟨transact_read hg (readTarget_msgWord_idle j hs), respond .ack (writeMsgWord j v s), ?_, rfl, ?_⟩,
     fun hs => ⟨transact_read hg (readTarget_msgWord_busy j hs), ?_⟩⟩
  · exact transact_write hg (whenIdle_idle _ s hs)
  · obtain ⟨h0, h1, h2, h3⟩ := Memory.read_writeWord hm j v
    have hread : readTarget (.msgWord j) (respond .ack (writeMsgWord j v s)) = v :=
      Eq.trans (readTarget_msgWord_idle j hs) (Memory.readWord_writeWord hm j v)
    exact ⟨h0, h1, h2, h3, Memory.read_writeWord_other s.msgbuf j v, transact_read hg hread⟩
  · exact transact_write hg (whenIdle_busy _ s hs)

/-- Settles O34 by the same rules; the write of a PTBUF word does not touch the latch. -/
theorem ptbufWindow : Obligations.PtbufWindow := by
  intro s j v hm hj
  have hg : targetAt s.cmaxBlocks (0x20000 + 4 * j) = some (.ptWord j) := by
    have hsize := ptWords_bytes s.cmaxBlocks
    rw [State.cmax] at hj
    exact targetAt_ptWord _ _ (by omega)
  refine
    ⟨fun hs => ⟨transact_read hg (readTarget_ptWord_idle j hs), respond .ack (writePtWord j v s), ?_, rfl, ?_⟩,
     fun hs => ⟨transact_read hg (readTarget_ptWord_busy j hs), ?_⟩⟩
  · exact transact_write hg (whenIdle_idle _ s hs)
  · obtain ⟨h0, h1, h2, h3⟩ := Memory.read_writeWord hm j v
    have hread : readTarget (.ptWord j) (respond .ack (writePtWord j v s)) = v :=
      Eq.trans (readTarget_ptWord_idle j hs) (Memory.readWord_writeWord hm j v)
    exact ⟨h0, h1, h2, h3, Memory.read_writeWord_other s.ptbuf j v, transact_read hg hread⟩
  · exact transact_write hg (whenIdle_busy _ s hs)

/-! ## Writes served twice -/

/-- An input write that looks at no response looks at none when it is dropped either. -/
theorem whenIdle_respond (f : State → State) (r : BusResponse) (hf : ∀ s, f (respond r s) = respond r (f s))
    (s : State) : whenIdle f (respond r s) = respond r (whenIdle f s) := by
  cases hs : s.busy
  · rw [whenIdle_idle f s hs, whenIdle_idle f (respond r s) hs, hf]
  · rw [whenIdle_busy f s hs, whenIdle_busy f (respond r s) hs]
    rfl

/-- No write depends on the response to the transaction before it. -/
theorem writeTarget_respond (g : Target) (v : Word) (r : BusResponse) (s : State) :
    writeTarget g v (respond r s) = respond r (writeTarget g v s) := by
  rcases g with r' | j | j
  · cases r' with
    | cmd => exact whenIdle_respond (accept v) r (fun _ => rfl) s
    | ptLen => exact whenIdle_respond (writePtLen v) r (fun _ => rfl) s
    | msgLen => exact whenIdle_respond (writeMsgLen v) r (fun _ => rfl) s
    | keyEnc i => exact whenIdle_respond (writeKeyEnc i v) r (fun _ => rfl) s
    | keyMac i => exact whenIdle_respond (writeKeyMac i v) r (fun _ => rfl) s
    | iv i => exact whenIdle_respond (writeIv i v) r (fun _ => rfl) s
    | esalt i => exact whenIdle_respond (writeEsalt i v) r (fun _ => rfl) s
    | hsalt i => exact whenIdle_respond (writeHsalt i v) r (fun _ => rfl) s
    | _ => rfl
  · exact whenIdle_respond (writeMsgWord j v) r (fun _ => rfl) s
  · exact whenIdle_respond (writePtWord j v) r (fun _ => rfl) s

/-- An input write that is idempotent while idle, and leaves BUSY alone, is idempotent in any phase. -/
theorem whenIdle_idempotent {f : State → State} {s : State} (hbusy : (f s).busy = s.busy)
    (hf : f (f s) = f s) : whenIdle f (whenIdle f s) = whenIdle f s := by
  cases hs : s.busy
  · rw [whenIdle_idle f s hs, whenIdle_idle f (f s) (hbusy.trans hs), hf]
  · rw [whenIdle_busy f s hs]
    exact whenIdle_busy f (dropWrite s) hs

/-- Every write but the accept of a command is idempotent on canonical buffers (R114). -/
theorem writeTarget_idempotent {g : Target} (hg : g ≠ .reg .cmd) (v : Word) {s : State}
    (hmsg : s.msgbuf.wf = true) (hpt : s.ptbuf.wf = true) :
    writeTarget g v (writeTarget g v s) = writeTarget g v s := by
  rcases g with r | j | j
  · cases r with
    | cmd => exact absurd rfl hg
    | status => simp [writeTarget, writeReg, writeStatus]
    | ptLen | msgLen => exact whenIdle_idempotent rfl rfl
    | keyEnc i => exact whenIdle_idempotent rfl (by simp [writeKeyEnc, BitVec.or_assoc])
    | keyMac i => exact whenIdle_idempotent rfl (by simp [writeKeyMac, BitVec.or_assoc])
    | iv i => exact whenIdle_idempotent rfl (by simp [writeIv, clearParsed, BitVec.or_assoc])
    | esalt i => exact whenIdle_idempotent rfl (by simp [writeEsalt, clearParsed, BitVec.or_assoc])
    | hsalt i => exact whenIdle_idempotent rfl (by simp [writeHsalt, clearParsed, BitVec.or_assoc])
    | _ => rfl
  · exact whenIdle_idempotent rfl (by simp [writeMsgWord, clearParsed, Memory.writeWord_writeWord hmsg])
  · exact whenIdle_idempotent rfl (by simp [writePtWord, Memory.writeWord_writeWord hpt])

/-- Settles O30: the second write reaches the same word, past the first one's response. -/
theorem writesAreIdempotent : Obligations.WritesAreIdempotent := by
  intro s t off v hmsg hpt hoff h
  obtain ⟨g, hg, rfl⟩ : ∃ g, targetAt s.cmaxBlocks off = some g ∧ t = respond .ack (writeTarget g v s) :=
    targetAt_of_transact (t := .write 4 off v) rfl h
  have hg' : targetAt (respond .ack (writeTarget g v s)).cmaxBlocks off = some g := by
    rwa [(transact_host h).2]
  have hagain : writeTarget g v (respond .ack (writeTarget g v s)) = respond .ack (writeTarget g v s) := by
    rw [writeTarget_respond, writeTarget_idempotent (targetAt_ne_cmd hoff hg) v hmsg hpt]
  exact (transact_write hg' hagain :)

/-! ## Writes while BUSY -/

/-- Settles O31: while BUSY a write is ignored, taken by STATUS or IRQ_EN, or dropped. -/
theorem busyTransactionsKeepInputs : Obligations.BusyTransactionsKeepInputs := by
  intro s s' t hs h
  obtain ⟨g, -, rfl⟩ := (transact_next t s s').1 h
  cases t with
  | read size off => rfl
  | write size off v =>
    rcases writeTarget_cases g v s with e | e | e | ⟨-, e⟩ | ⟨hidle, -⟩
    case inr.inr.inr.inr => exact absurd (hs.symm.trans hidle) nofun
    all_goals rw [serve, e]; rfl

/-- The registers that are inputs of a command drop a write while BUSY (R117). -/
theorem writeReg_input_busy {off : Nat} (v : Word) {s : State} (hs : s.busy = true)
    (h : off = 0x008 ∨ off = 0x01C ∨ off = 0x020 ∨ (0x040 ≤ off ∧ off < 0x0A0)) :
    writeReg (regAt off) v s = dropWrite s := by
  rcases h with rfl | rfl | rfl | ⟨hlo, hhi⟩
  case inr.inr.inr =>
    unfold regAt
    iterate 12 rw [if_neg (by omega)]
    split_ifs <;> exact whenIdle_busy _ s hs
  all_goals exact whenIdle_busy _ s hs

/-- Every input of a command, register or buffer word, drops a write while BUSY (R117). -/
theorem transact_write_input_busy {off : Nat} (v : Word) {s : State} (hs : s.busy = true) (h4 : off % 4 = 0)
    (h : off = 0x008 ∨ off = 0x01C ∨ off = 0x020 ∨ (0x040 ≤ off ∧ off < 0x0A0) ∨
      (0x10000 ≤ off ∧ off < 0x10000 + s.cmax + 68) ∨ (0x20000 ≤ off ∧ off < 0x20000 + s.cmax)) :
    transact (.write 4 off v) s = .next (respond .ack (dropWrite s)) := by
  have hmapped : targetAt s.cmaxBlocks off ≠ none := by
    have := s.cmax_bounds
    rw [Ne, targetAt_eq_none_iff, ← State.cmax]
    omega
  obtain ⟨g, hg⟩ := Option.ne_none_iff_exists'.1 hmapped
  have hdrop : writeTarget g v s = dropWrite s := by
    obtain ⟨-, ⟨hoff, rfl⟩ | ⟨j, -, -, rfl⟩ | ⟨j, -, -, rfl⟩⟩ := targetAt_cases s.cmaxBlocks off g hg
    · exact writeReg_input_busy v hs (by omega)
    · exact whenIdle_busy _ s hs
    · exact whenIdle_busy _ s hs
  exact transact_write hg hdrop

/-- Settles O32: the inputs by the rule above, the other registers by their own writes, which ask for no phase. -/
theorem writesWhileBusy : Obligations.WritesWhileBusy := by
  intro s off v hs h4
  refine ⟨transact_write_input_busy v hs h4, ?_, ?_, fun h => ?_⟩
  · rintro rfl
    exact transact_write_reg (r := .status) v s rfl (by decide) (by decide)
  · rintro rfl
    exact transact_write_reg (r := .irqEn) v s rfl (by decide) (by decide)
  · rw [transact_write_reg v s rfl (by omega) h4, writeReg_readOnly v s h4 h]
    rfl

/-! ## A well-behaved host -/

/-- The host stays well behaved whatever the block does. -/
theorem step_hostWellBehaved {s t : State} (h : step s = .next t) (hs : s.hostWellBehaved = true) :
    t.hostWellBehaved = true := by
  obtain ⟨hinbox, hcmax⟩ := step_host h
  rw [State.hostWellBehaved, hinbox, hcmax]
  exact List.all_eq_true.2 fun e he => List.all_eq_true.1 hs e (List.mem_of_mem_tail he)

/-- The engine's turn never faults in a state with a command latched whenever it is BUSY (R79). -/
theorem step_next_of_engineTurn {s : State} (h : nextEvent s = .engineTurn) (hl : s.busy = s.latched.isSome) :
    ∃ t, step s = .next t := by
  cases hb : s.busy
  · exact ⟨_, step_of_idle h hb⟩
  · obtain ⟨w, hw⟩ := Option.isSome_iff_exists.1 (hl.symm.trans hb)
    exact ⟨_, (step_of_commandInFlight h hb hw).trans (exec_eq_commit_body _ _)⟩

/-- Settles O25: a mapped transaction is served, the engine's turn finds its command, a reset always succeeds. -/
theorem wellBehavedHostNeverFaults : Obligations.WellBehavedHostNeverFaults := by
  intro s hinv hs
  have hnext : ∃ t, step s = .next t := by
    rcases hinbox : s.inbox with _ | ⟨e, rest⟩
    · exact step_next_of_engineTurn (nextEvent_engineTurn (.inl hinbox)) hinv.busyLatched
    · cases e with
      | bus tr =>
        have hserved : (tr.target s.cmaxBlocks).isSome = true :=
          List.all_eq_true.1 hs (.bus tr) (hinbox ▸ List.mem_cons_self)
        obtain ⟨g, hg⟩ := Option.isSome_iff_exists.1 hserved
        exact ⟨_, (step_of_bus hinbox).trans (transact_of_target tr _ g hg)⟩
      | engineTurn =>
        exact step_next_of_engineTurn (nextEvent_engineTurn (.inr ⟨rest, hinbox⟩)) hinv.busyLatched
      | reset => exact ⟨_, step_of_reset hinbox⟩
  obtain ⟨t, ht⟩ := hnext
  exact ⟨t, ht, step_hostWellBehaved ht hs⟩

end Sys2Proof.Machine
end

section
/-! # Command words: the encoder and the decoder are inverse to each other (30_encoding.md)

The encoder reaches every word from a well-formed command, and the decoder undoes the encoder there. What a word
decodes to is read off from these two. -/

namespace Sys2Proof

/-! ## The fields of a word -/

/-- The two fields of a word are all of it (R141). -/
theorem rsvField_append_opField (w : Word) : rsvField w ++ opField w = w := by
  have hjoin : rsvField w ++ opField w = w.extractLsb' 0 (28 + 4) :=
    BitVec.extractLsb'_append_extractLsb'_eq_extractLsb' rfl
  exact hjoin.trans BitVec.extractLsb'_eq_self

theorem eq_of_fields {v w : Word} (hop : opField v = opField w) (hrsv : rsvField v = rsvField w) : v = w := by
  rw [← rsvField_append_opField v, ← rsvField_append_opField w, hop, hrsv]

theorem legalFields_iff (op : BitVec 4) (rsv : BitVec 28) :
    legalFields op rsv = true ↔ rsv = 0 ∧ 1 ≤ op.toNat ∧ op.toNat ≤ 7 := by
  simp [legalFields, and_assoc]

theorem wellFormed_illegal_iff (op : BitVec 4) (rsv : BitVec 28) :
    (Instr.illegal op rsv).wellFormed = true ↔ ¬ legalFields op rsv = true := by
  simp [Instr.wellFormed]

/-! ## The decoder against the encoder -/

/-- The decoder's last row: the word matches no other (R143). -/
theorem decode_of_not_legalFields {w : Word} (h : ¬ legalFields (opField w) (rsvField w) = true) :
    decode w = .illegal (opField w) (rsvField w) := by
  rw [legalFields_iff] at h
  unfold decode
  split
  next => rfl
  next hrsv =>
    have hop : ¬ (1 ≤ (opField w).toNat ∧ (opField w).toNat ≤ 7) := fun hop => h ⟨not_not.1 hrsv, hop⟩
    split
    case h_8 => rfl
    all_goals omega

theorem decode_encode {i : Instr} (hi : i.wellFormed = true) : decode (encode i) = i := by
  cases i with
  | illegal op rsv =>
    obtain ⟨hop, hrsv⟩ := Laws.EncodedFields.illegal op rsv
    have hfields : ¬ legalFields (opField (encode (.illegal op rsv))) (rsvField (encode (.illegal op rsv))) = true := by
      rwa [hop, hrsv, ← wellFormed_illegal_iff]
    rw [decode_of_not_legalFields hfields, hop, hrsv]
  | _ => rfl

/-- Every word is the word of a well-formed command: a legal one by its OP, any other through its own fields. -/
theorem exists_wellFormed_encode_eq (w : Word) : ∃ i : Instr, i.wellFormed = true ∧ encode i = w := by
  by_cases h : legalFields (opField w) (rsvField w) = true
  · obtain ⟨hrsv, hlo, hhi⟩ := (legalFields_iff _ _).1 h
    have hop : opField w = 1 ∨ opField w = 2 ∨ opField w = 3 ∨ opField w = 4 ∨ opField w = 5 ∨ opField w = 6 ∨
        opField w = 7 := by bv_omega
    rcases hop with hop | hop | hop | hop | hop | hop | hop
    · exact ⟨.encp, rfl, eq_of_fields hop.symm hrsv.symm⟩
    · exact ⟨.enck, rfl, eq_of_fields hop.symm hrsv.symm⟩
    · exact ⟨.parsep, rfl, eq_of_fields hop.symm hrsv.symm⟩
    · exact ⟨.parsek, rfl, eq_of_fields hop.symm hrsv.symm⟩
    · exact ⟨.dec, rfl, eq_of_fields hop.symm hrsv.symm⟩
    · exact ⟨.tagcmp, rfl, eq_of_fields hop.symm hrsv.symm⟩
    · exact ⟨.zeroize, rfl, eq_of_fields hop.symm hrsv.symm⟩
  · exact ⟨.illegal (opField w) (rsvField w), (wellFormed_illegal_iff _ _).2 h, rsvField_append_opField w⟩

theorem decode_wellFormed_and_encode_decode (w : Word) : (decode w).wellFormed = true ∧ encode (decode w) = w := by
  obtain ⟨i, hi, rfl⟩ := exists_wellFormed_encode_eq w
  rw [decode_encode hi]
  exact ⟨hi, rfl⟩

/-- Settles O1: the decoder undoes the encoder on every well-formed command, and the encoder reaches every word. -/
theorem decodeEncodeAgree : Obligations.DecodeEncodeAgree :=
  ⟨fun _ => decode_encode, decode_wellFormed_and_encode_decode⟩

/-! ## What a word decodes to -/

/-- A well-formed command is the decoding of its own word alone. -/
theorem decode_eq_iff {i : Instr} (hi : i.wellFormed = true) (w : Word) : decode w = i ↔ w = encode i := by
  constructor
  · rintro rfl
    exact (decode_wellFormed_and_encode_decode w).2.symm
  · rintro rfl
    exact decode_encode hi

theorem decode_eq_illegal_iff (w : Word) :
    decode w = .illegal (opField w) (rsvField w) ↔ ¬ legalFields (opField w) (rsvField w) = true := by
  refine ⟨fun h => ?_, decode_of_not_legalFields⟩
  rw [← wellFormed_illegal_iff, ← h]
  exact (decode_wellFormed_and_encode_decode w).1

/-- Settles O2: each command by its own word, `illegal` by the fields that are not legal. -/
theorem everyWordDecodes : Obligations.EveryWordDecodes := by
  intro w
  have hillegal := (decode_eq_illegal_iff w).symm
  rw [legalFields_iff] at hillegal
  exact ⟨decode_eq_iff (i := .encp) rfl w, decode_eq_iff (i := .enck) rfl w, decode_eq_iff (i := .parsep) rfl w,
    decode_eq_iff (i := .parsek) rfl w, decode_eq_iff (i := .dec) rfl w, decode_eq_iff (i := .tagcmp) rfl w,
    decode_eq_iff (i := .zeroize) rfl w, hillegal⟩

/-! ## Words as the host gives them -/

/-- A 32-bit number is read as the word it is (R140). -/
theorem decodeTableWord_toNat (w : Word) : decodeTableWord 32 w.toNat = some (decode w) := by
  have hw : BitVec.ofNat 32 (w.toNat % 2 ^ 32) = w := by
    rw [Nat.mod_eq_of_lt w.isLt, BitVec.ofNat_toNat, BitVec.setWidth_eq]
  rw [decodeTableWord, decodeBits, if_pos le_rfl, hw]

theorem decodeTableWord_encode {i : Instr} (hi : i.wellFormed = true) :
    decodeTableWord 32 (encode i).toNat = some i := by
  rw [decodeTableWord_toNat, decode_encode hi]

/-- Settles O3: each number is the word of the command at its right. -/
theorem writtenWordsDecode : Obligations.WrittenWordsDecode :=
  ⟨decodeTableWord_encode (i := .encp) rfl, decodeTableWord_encode (i := .enck) rfl,
    decodeTableWord_encode (i := .parsep) rfl, decodeTableWord_encode (i := .parsek) rfl,
    decodeTableWord_encode (i := .dec) rfl, decodeTableWord_encode (i := .tagcmp) rfl,
    decodeTableWord_encode (i := .zeroize) rfl, decodeTableWord_encode (i := .illegal 0 0) rfl,
    decodeTableWord_encode (i := .illegal 8 0) rfl, decodeTableWord_encode (i := .illegal 15 0) rfl,
    decodeTableWord_encode (i := .illegal 1 1) rfl, decodeTableWord_encode (i := .illegal 5 0x8000000) rfl⟩

end Sys2Proof
end

section
/-! # The datapath: the cipher and its inverse, CBC, padding, digests and the comparator (40_datapath.md)

The inverse cipher undoes the cipher transform by transform, so for every key schedule. The folds with no early exit
(padding verdict, comparator) are first turned into statements about all elements. -/

namespace Sys2Proof.Machine

/-! ## Exclusive-or -/

theorem xor_left_comm (a b c : Byte) : a ^^^ (b ^^^ c) = b ^^^ (a ^^^ c) := by ac_rfl

/-! ## The field -/

/-- `xtime` is linear: the reduction by 0x1B is taken exactly when the top bits differ (R202). -/
theorem xtime_xor (a b : Byte) : xtime (a ^^^ b) = xtime a ^^^ xtime b := by
  simp only [xtime, BitVec.shiftLeft_xor_distrib, BitVec.getLsbD_xor]
  cases a.getLsbD 7 <;> cases b.getLsbD 7 <;>
    simp [BitVec.xor_assoc, BitVec.xor_comm, xor_left_comm]

theorem gfMulBits_xor (n : Nat) (a b c : Byte) :
    gfMulBits n (a ^^^ b) c = gfMulBits n a c ^^^ gfMulBits n b c := by
  induction n generalizing a b c with
  | zero => exact BitVec.xor_zero.symm
  | succ n ih =>
    simp only [gfMulBits, xtime_xor, ih]
    split
    · ac_rfl
    · simp

/-- The product is linear in its first factor (R202). -/
theorem gfMul_xor (a b c : Byte) : gfMul (a ^^^ b) c = gfMul a c ^^^ gfMul b c := gfMulBits_xor 8 a b c

/-- The products by the constants of MixColumns, as sums of `xtime` powers (R202, R206). -/
theorem gfMul_02 (a : Byte) : gfMul a 0x02 = xtime a := by simp [gfMul, gfMulBits]
theorem gfMul_03 (a : Byte) : gfMul a 0x03 = a ^^^ xtime a := by simp [gfMul, gfMulBits]

/-- The products by the constants of InvMixColumns, as sums of `xtime` powers (R202, R206). -/
theorem gfMul_09 (a : Byte) : gfMul a 0x09 = a ^^^ xtime (xtime (xtime a)) := by simp [gfMul, gfMulBits]
theorem gfMul_0b (a : Byte) : gfMul a 0x0b = a ^^^ (xtime a ^^^ xtime (xtime (xtime a))) := by
  simp [gfMul, gfMulBits]
theorem gfMul_0d (a : Byte) : gfMul a 0x0d = a ^^^ (xtime (xtime a) ^^^ xtime (xtime (xtime a))) := by
  simp [gfMul, gfMulBits]
theorem gfMul_0e (a : Byte) : gfMul a 0x0e = xtime a ^^^ (xtime (xtime a) ^^^ xtime (xtime (xtime a))) := by
  simp [gfMul, gfMulBits]

/-! ## The S-box -/

/-- The table of R204 inverts the table of R203: 256 entries. -/
@[simp] theorem invSbox_sbox (x : Byte) : invSbox (sbox x) = x := by
  revert x; decide +kernel

/-- The affine map of R203. -/
def sboxAffine (y : Byte) : Byte :=
  y ^^^ y.rotateLeft 1 ^^^ y.rotateLeft 2 ^^^ y.rotateLeft 3 ^^^ y.rotateLeft 4 ^^^ 0x63

/-- The inverse of `sboxAffine`. -/
def sboxAffineInv (z : Byte) : Byte := z.rotateLeft 1 ^^^ z.rotateLeft 3 ^^^ z.rotateLeft 6 ^^^ 0x05

theorem sboxAffine_sboxAffineInv (z : Byte) : sboxAffine (sboxAffineInv z) = z := by
  revert z; decide +kernel

/-- What the affine map is applied to in the table of R203 is the field inverse, 0 for 0: 256 entries. -/
theorem sboxAffineInv_sbox_spec (x : Byte) :
    (x = 0 ∧ sboxAffineInv (sbox x) = 0) ∨ gfMul x (sboxAffineInv (sbox x)) = 1 := by
  revert x; decide +kernel

/-- Settles O41: the field inverse of x is the S-box entry taken back through the affine map. -/
theorem sboxFormula : Obligations.SboxFormula := fun x =>
  ⟨invSbox_sbox x, sboxAffineInv (sbox x), sboxAffineInv_sbox_spec x, (sboxAffine_sboxAffineInv (sbox x)).symm⟩

/-! ## The round transforms -/

@[simp] theorem Column.map_invSbox_map_sbox (x : Column) : (x.map sbox).map invSbox = x := by
  simp [Column.map]

@[simp] theorem invSubBytes_subBytes (x : Block) : invSubBytes (subBytes x) = x := by
  simp [invSubBytes, subBytes, Block.map]

@[simp] theorem invShiftRows_shiftRows (x : Block) : invShiftRows (shiftRows x) = x := rfl

/-- InvMixColumns is linear. -/
theorem invMixRow_xor (a b c d a' b' c' d' : Byte) :
    invMixRow (a ^^^ a') (b ^^^ b') (c ^^^ c') (d ^^^ d') = invMixRow a b c d ^^^ invMixRow a' b' c' d' := by
  simp only [invMixRow, gfMul_xor]
  ac_rfl

/-- The row of InvMixColumns against a column of MixColumns: with X for `xtime`, the coefficient of `a` is
(X + X² + X³) X + (1 + X + X³) + (1 + X² + X³) + (1 + X³) (1 + X), which is 1 already as a polynomial (R206). -/
theorem invMixRow_column (a : Byte) : invMixRow (gfMul a 0x02) a a (gfMul a 0x03) = a := by
  simp only [invMixRow, gfMul_02, gfMul_03, gfMul_09, gfMul_0b, gfMul_0d, gfMul_0e, xtime_xor]
  simp [BitVec.xor_assoc, BitVec.xor_comm, xor_left_comm]

/-- The row of InvMixColumns against the other three columns of MixColumns (R206). -/
theorem invMixRow_otherColumns (a : Byte) : invMixRow (gfMul a 0x03) (gfMul a 0x02) a a = 0 ∧
    invMixRow a (gfMul a 0x03) (gfMul a 0x02) a = 0 ∧ invMixRow a a (gfMul a 0x03) (gfMul a 0x02) = 0 := by
  simp only [invMixRow, gfMul_02, gfMul_03, gfMul_09, gfMul_0b, gfMul_0d, gfMul_0e, xtime_xor]
  simp [BitVec.xor_assoc, BitVec.xor_comm, xor_left_comm]

/-- The matrix of R206 times its inverse, by linearity one column of MixColumns at a time. -/
@[simp] theorem invMixColumn_mixColumn (x : Column) : invMixColumn (mixColumn x) = x := by
  simp only [invMixColumn, mixColumn, invMixRow_xor, invMixRow_column, invMixRow_otherColumns]
  simp

@[simp] theorem invMixColumns_mixColumns (x : Block) : invMixColumns (mixColumns x) = x := by
  simp [invMixColumns, mixColumns, Block.map]

@[simp] theorem addRoundKey_addRoundKey (ks : List Block) (rd : Nat) (x : Block) :
    addRoundKey ks rd (addRoundKey ks rd x) = x := Block.xor_xor_self _ _

/-! ## The cipher -/

/-- A round of the inverse cipher starts before InvShiftRows and so undoes AddRoundKey and MixColumns of its own
round, with SubBytes and ShiftRows of the round after it (R208, R209). -/
theorem decRound_encRound (ks : List Block) (x : Block) (rd : Nat) :
    decRound ks (shiftRows (subBytes (encRound ks x rd))) rd = shiftRows (subBytes x) := by
  simp [decRound, encRound]

/-- The same for any run of rounds, undone in reverse order. -/
theorem foldl_decRound_foldl_encRound (ks : List Block) (rds : List Nat) (x : Block) :
    rds.reverse.foldl (decRound ks) (shiftRows (subBytes (rds.foldl (encRound ks) x)))
      = shiftRows (subBytes x) := by
  induction rds generalizing x with
  | nil => rfl
  | cons rd rds ih =>
    simp only [List.reverse_cons, List.foldl_append, List.foldl_cons, List.foldl_nil, ih, decRound_encRound]

/-- The inverse cipher undoes the cipher, whatever the round keys. -/
@[simp] theorem decBlock_encBlock (ks : List Block) (x : Block) : decBlock ks (encBlock ks x) = x := by
  rw [decBlock, encBlock, addRoundKey_addRoundKey, foldl_decRound_foldl_encRound, invShiftRows_shiftRows,
    invSubBytes_subBytes, addRoundKey_addRoundKey]

/-- Settles O42: on 16 bytes loading and reading out lose nothing, and the block ciphers cancel. -/
theorem aesDecryptInvertsEncrypt : Obligations.AesDecryptInvertsEncrypt := by
  intro k b _ hb
  rw [aes256Dec, aes256Enc, blockOfBytes_bytes, decBlock_encBlock, bytes_blockOfBytes b hb]

/-! ## CBC mode -/

theorem cbcDecBlocks_cbcEncBlocks (ks : List Block) (prev : Block) (ps : List Block) :
    cbcDecBlocks ks prev (cbcEncBlocks ks prev ps) = ps := by
  induction ps generalizing prev with
  | nil => rfl
  | cons p ps ih => simp [cbcEncBlocks, cbcDecBlocks, Block.xor_xor_self, ih]

theorem cbcDec_cbcEnc (k iv p : List Byte) (hp : p.length % 16 = 0) : cbcDec k iv (cbcEnc k iv p) = p := by
  rw [cbcDec, cbcEnc, blocksOf_bytesOfBlocks, cbcDecBlocks_cbcEncBlocks, bytesOfBlocks_blocksOf p hp]

/-- Settles O43, block by block. -/
theorem cbcDecryptInvertsEncrypt : Obligations.CbcDecryptInvertsEncrypt := fun k iv p _ _ hp =>
  ⟨length_cbcEnc k iv p hp, cbcDec_cbcEnc k iv p hp⟩

theorem blockOfBytes_xorBytes {a b : List Byte} (ha : a.length = 16) (hb : b.length = 16) :
    blockOfBytes (xorBytes a b) = (blockOfBytes a).xor (blockOfBytes b) := by
  match a, ha, b, hb with
  | [_, _, _, _, _, _, _, _, _, _, _, _, _, _, _, _], _, [_, _, _, _, _, _, _, _, _, _, _, _, _, _, _, _], _ => rfl

theorem blocksOf_of_length_16 {b : List Byte} (hb : b.length = 16) : blocksOf b = [blockOfBytes b] := by
  simp [blocksOf, hb, chunks, List.take_of_length_le]

/-- CBC on one block: the cipher of the block and the IV (R210). -/
theorem cbcEnc_of_length_16 (k : List Byte) {iv b : List Byte} (hiv : iv.length = 16) (hb : b.length = 16) :
    cbcEnc k iv b = aes256Enc k (xorBytes b iv) := by
  simp [cbcEnc, aes256Enc, blocksOf_of_length_16 hb, cbcEncBlocks, bytesOfBlocks, blockOfBytes_xorBytes hb hiv]

/-! ## Folds with no early exit -/

/-- A conjunction folded over a whole list holds when every conjunct does. -/
theorem foldl_and_eq_true_iff {α : Type} (f : α → Bool) (l : List α) (b : Bool) :
    l.foldl (fun ok x => ok && f x) b = true ↔ b = true ∧ ∀ x ∈ l, f x = true := by
  induction l generalizing b with
  | nil => simp
  | cons x l ih => simp [ih, and_assoc]

/-- A disjunction of words folded over a whole list is 0 when every word is. -/
theorem foldl_or_eq_zero_iff (l : List Byte) (acc : Byte) :
    l.foldl (fun acc x => acc ||| x) acc = 0 ↔ acc = 0 ∧ ∀ x ∈ l, x = 0 := by
  induction l generalizing acc with
  | nil => simp
  | cons x l ih =>
    rw [List.foldl_cons, ih, List.forall_mem_cons, ← and_assoc]
    exact and_congr_left' BitVec.or_eq_zero_iff

/-! ## Padding -/

/-- A valid last byte and padding (R216): the last byte p is 1 to 16, and each of the last p bytes is p. -/
def PadValid (x : List Byte) : Prop :=
  let p := x.getD (x.length - 1) 0
  1 ≤ p.toNat ∧ p.toNat ≤ 16 ∧ ∀ j, x.length - p.toNat ≤ j → j < x.length → x.getD j 0 = p

theorem padByteOk_iff (p : Byte) (j : Nat) (b : Byte) :
    padByteOk p j b = true ↔ (16 ≤ j + p.toNat → b = p) := by
  simp only [padByteOk, Bool.or_eq_true, decide_eq_true_eq, beq_iff_eq, ← Nat.not_le, imp_iff_not_or]

/-- The constant-time verdict is the strict check (R216, R217): index j of the last block is index
`length - 16 + j` of the input. -/
theorem padVerdict_iff {x : List Byte} (hx : 16 ≤ x.length) : padVerdict x = true ↔ PadValid x := by
  simp only [padVerdict, foldl_and_eq_true_iff, padByteOk_iff, PadValid, Bool.and_eq_true, decide_eq_true_eq,
    and_assoc, Prod.forall, List.mem_zipIdx_iff_getElem?, List.getElem?_drop]
  generalize x.getD (x.length - 1) 0 = p
  refine and_congr_right fun _ => and_congr_right fun hp => ⟨fun h j hlo hj => ?_, fun h b j hb hlo => ?_⟩
  · have hget : x[x.length - 16 + (j - (x.length - 16))]? = some (x.getD j 0) := by
      rw [show x.length - 16 + (j - (x.length - 16)) = j by omega]
      simp [hj]
    exact h _ _ hget (by omega)
  · obtain ⟨hlt, hb⟩ := List.getElem?_eq_some_iff.1 hb
    rw [← h _ (by omega) hlt, List.getD_eq_getElem _ _ hlt, hb]

theorem unpad_of_padValid {x : List Byte} (hx : 16 ≤ x.length) (h : PadValid x) :
    unpad x = (true, x.take (x.length - (x.getD (x.length - 1) 0).toNat)) :=
  if_pos ((padVerdict_iff hx).2 h)

theorem unpad_of_not_padValid {x : List Byte} (hx : 16 ≤ x.length) (h : ¬ PadValid x) : unpad x = (false, []) :=
  if_neg (mt (padVerdict_iff hx).1 h)

/-- Settles O45: whole blocks, at least one of them, hold 16 bytes. -/
theorem unpadIsStrict : Obligations.UnpadIsStrict := by
  intro x hne hblocks
  have hx : 16 ≤ x.length := by omega
  exact ⟨unpad_of_padValid hx, unpad_of_not_padValid hx⟩

/-- The block that pads the empty plaintext is the rule's own (R215). -/
theorem fixedPadBlock_eq_pkcs7_nil : fixedPadBlock = pkcs7 [] := rfl

theorem padInput_eq_pkcs7 (pt : List Byte) : padInput pt = pkcs7 pt := by
  cases pt <;> rfl

/-- Past the plaintext, every byte of the padded plaintext is the number of pad bytes (R213). -/
theorem getD_pkcs7 (pt : List Byte) {j : Nat} (hlo : pt.length ≤ j) (hj : j < (pkcs7 pt).length) :
    (pkcs7 pt).getD j 0 = BitVec.ofNat 8 (16 - pt.length % 16) := by
  simp only [pkcs7, List.length_append, length_bytesN] at hj
  rw [pkcs7, List.getD_append_right _ _ _ _ hlo, bytesN, List.getD_replicate _ (by omega)]

theorem length_pkcs7 (pt : List Byte) : (pkcs7 pt).length = pt.length + (16 - pt.length % 16) := by
  simp [pkcs7]

theorem toNat_getD_last_pkcs7 (pt : List Byte) :
    ((pkcs7 pt).getD ((pkcs7 pt).length - 1) 0).toNat = 16 - pt.length % 16 := by
  have hlen := length_pkcs7 pt
  rw [getD_pkcs7 pt (by omega) (by omega), BitVec.toNat_ofNat]
  omega

theorem padValid_pkcs7 (pt : List Byte) : PadValid (pkcs7 pt) := by
  have hlen := length_pkcs7 pt
  have hp := toNat_getD_last_pkcs7 pt
  refine ⟨by omega, by omega, fun j hlo hj => ?_⟩
  rw [getD_pkcs7 pt (by omega) hj, getD_pkcs7 pt (by omega) (by omega)]

theorem unpad_padInput (pt : List Byte) : unpad (padInput pt) = (true, pt) := by
  have hlen := length_pkcs7 pt
  rw [padInput_eq_pkcs7, unpad_of_padValid (by omega) (padValid_pkcs7 pt), toNat_getD_last_pkcs7,
    show (pkcs7 pt).length - (16 - pt.length % 16) = pt.length by omega, pkcs7, List.take_left]

/-- Settles O44: the padding is valid and its last byte counts it. -/
theorem unpadInvertsPad : Obligations.UnpadInvertsPad := fun pt =>
  ⟨by rw [length_padInput, cipherLen], unpad_padInput pt⟩

/-- Settles O46: the fixed block is the rule on the empty string, and one block is decrypted and unpadded as any. -/
theorem paddingModesAgreeOnEmpty : Obligations.PaddingModesAgreeOnEmpty := by
  refine ⟨fixedPadBlock_eq_pkcs7_nil, rfl, rfl, fun k iv _ hiv => ⟨cbcEnc_of_length_16 k hiv rfl, ?_⟩⟩
  rw [cbcDec_cbcEnc k iv _ rfl, unpad_padInput]

/-! ## Digests -/

@[simp] theorem length_natBytesBe (k n : Nat) : (natBytesBe k n).length = k := by simp [natBytesBe]

theorem length_shaPad (m : List Byte) :
    (shaPad m).length = m.length + 1 + (119 - m.length % 64) % 64 + 8 := by
  simp [shaPad]; omega

theorem take_shaPad (m : List Byte) : (shaPad m).take (m.length + 1) = m ++ [0x80] := by
  rw [shaPad, List.append_assoc, List.take_left' (by simp)]
  rfl

@[simp] theorem length_sha256 (m : List Byte) : (sha256 m).length = 32 := by simp [sha256, Hash.bytes]

/-- Settles O47: the zero bytes fill the last block (R218), and a hash value is eight words (R220). -/
theorem digestLengths : Obligations.DigestLengths := by
  refine ⟨fun m => ?_, length_sha256, length_hmacSha256⟩
  have hlen := length_shaPad m
  exact ⟨by omega, by omega, take_shaPad m⟩

/-! ## The comparator -/

/-- Byte strings of one length are equal when they are at every position. -/
theorem eq_iff_forall_mem_zip {a b : List Byte} (h : a.length = b.length) :
    a = b ↔ ∀ xy ∈ a.zip b, xy.1 = xy.2 := by
  rw [← List.forall₂_eq_eq_eq, List.forall₂_iff_zip, Prod.forall]
  exact and_iff_right h

theorem cteq32_iff {a b : List Byte} (h : a.length = b.length) : cteq32 a b = true ↔ a = b := by
  simp [cteq32, foldl_and_eq_true_iff, eq_iff_forall_mem_zip h]

theorem foldl_or_xorBytes_iff {a b : List Byte} (h : a.length = b.length) :
    (xorBytes a b).foldl (fun acc x => acc ||| x) 0 = 0 ↔ a = b := by
  have hmap : xorBytes a b = (a.zip b).map fun xy => xy.1 ^^^ xy.2 := by
    simp [xorBytes, List.zip, List.map_zipWith]
  rw [foldl_or_eq_zero_iff, hmap, List.forall_mem_map, eq_iff_forall_mem_zip h]
  simp

/-- Settles O48: both forms hold exactly when the operands agree at every position. -/
theorem comparatorIsEquality : Obligations.ComparatorIsEquality := by
  intro a b ha hb
  have h : a.length = b.length := ha.trans hb.symm
  exact ⟨cteq32_iff h, (cteq32_iff h).trans (foldl_or_xorBytes_iff h).symm⟩

end Sys2Proof.Machine
end

section
/-! # Encryption: what ENCP and ENCK write, where they fail, and what their result depends on (41_encrypt.md)

Both commands are one rule with the header mode as its parameter, so every lemma is stated for the mode. The fail-fast
check decides the outcome: each result of it has one rule for the next state, and the statements read it off. -/

namespace Sys2Proof.Machine

/-! ## The command of a mode -/

/-- The command that runs `Encrypt(pw)`: ENCP in password mode, ENCK in key-based mode (R301, R302). -/
def encryptCmd (pw : Bool) : Instr := if pw then .encp else .enck

theorem body_encryptCmd (pw : Bool) (s : State) : body (encryptCmd pw) s = encrypt pw s := by
  cases pw <;> rfl

/-- The common completion of both commands consumes the keys and clears the IV and salt masks (R602). -/
theorem commit_encryptCmd (pw : Bool) (code : ResultCode) (s : State) :
    commit (encryptCmd pw) code s = { completedEncrypt code.bits s with outValid := code == .ok } := by
  cases pw <;> rfl

/-! ## The fail-fast check -/

/-- The groups the command of a mode needs are loaded, the salts in password mode only (R300). -/
def EncryptLoaded (pw : Bool) (s : State) : Prop :=
  s.mkEnc = 0xFF ∧ s.mkMac = 0xFF ∧ s.mkIv = 0xF ∧ (pw = true → s.mkEsalt = 0x3 ∧ s.mkHsalt = 0x3)

@[simp] theorem encryptLoaded_true (s : State) : EncryptLoaded true s ↔
    s.mkEnc = 0xFF ∧ s.mkMac = 0xFF ∧ s.mkIv = 0xF ∧ s.mkEsalt = 0x3 ∧ s.mkHsalt = 0x3 := by
  simp [EncryptLoaded]

@[simp] theorem encryptLoaded_false (s : State) : EncryptLoaded false s ↔
    s.mkEnc = 0xFF ∧ s.mkMac = 0xFF ∧ s.mkIv = 0xF := by
  simp [EncryptLoaded]

theorem encryptLoaded_iff (pw : Bool) (s : State) : EncryptLoaded pw s ↔
    s.kEncLoaded = true ∧ s.kMacLoaded = true ∧ s.ivLoaded = true ∧
      (pw = true → s.esaltLoaded = true ∧ s.hsaltLoaded = true) := by
  simp [EncryptLoaded, State.kEncLoaded, State.kMacLoaded, State.ivLoaded, State.esaltLoaded, State.hsaltLoaded]

theorem encryptCheck_eq_none_iff (pw : Bool) (s : State) :
    encryptCheck pw s = none ↔ EncryptLoaded pw s ∧ s.ptLen.toNat ≤ s.cmax - 1 := by
  simp only [encryptCheck_none, encryptLoaded_iff, and_assoc]

/-- A group that is not loaded is reported before the length is looked at (R627). -/
theorem encryptCheck_of_not_loaded {pw : Bool} {s : State} (h : ¬ EncryptLoaded pw s) :
    encryptCheck pw s = some .notLoaded := by
  rw [encryptLoaded_iff] at h
  unfold encryptCheck
  split_ifs with hkeys hsalts hlen
  · rfl
  · rfl
  · exact absurd (by simp_all) h
  · exact absurd (by simp_all) h

/-- With every group loaded, a plaintext too long for the buffer is what the check reports (R300). -/
theorem encryptCheck_of_too_long {pw : Bool} {s : State} (h : EncryptLoaded pw s)
    (hlen : s.cmax - 1 < s.ptLen.toNat) : encryptCheck pw s = some .length := by
  obtain ⟨hEnc, hMac, hIv, hsalts⟩ := (encryptLoaded_iff pw s).1 h
  have hpw : ¬ (pw && (!s.esaltLoaded || !s.hsaltLoaded)) = true := by
    cases pw with
    | false => exact nofun
    | true => simp [hsalts rfl]
  rw [encryptCheck, if_neg (by simp [hEnc, hMac, hIv]), if_neg hpw, if_pos hlen]

/-- The check reports no other code (R300). -/
theorem encryptCheck_some {pw : Bool} {s : State} {code : ResultCode} (h : encryptCheck pw s = some code) :
    code = .notLoaded ∨ code = .length := by
  unfold encryptCheck at h
  split_ifs at h
  · exact .inl (Option.some.inj h).symm
  · exact .inl (Option.some.inj h).symm
  · exact .inr (Option.some.inj h).symm

/-! ## The next state -/

/-- Where the check reports a code, the commit with that code is all that happens (R306). -/
theorem exec_of_encryptCheck_some {pw : Bool} {s : State} {code : ResultCode}
    (h : encryptCheck pw s = some code) : exec (encryptCmd pw) s = .next (completedEncrypt code.bits s) := by
  have hbody : body (encryptCmd pw) s = (code, s) := by rw [body_encryptCmd, encrypt, h]
  rw [exec_eq_commit_body, hbody, commit_encryptCmd]
  rcases encryptCheck_some h with rfl | rfl <;> rfl

/-- The state a successful encryption leaves: the message in MSGBUF, its length in MSG_LEN, and the commit (R300). -/
def encrypted (pw : Bool) (s : State) : State :=
  { completedEncrypt 0 s with
    outValid := true
    msgLen := BitVec.ofNat 32 (s.message pw).length
    msgbuf := s.msgbuf.writeBytes 0 (s.message pw) }

/-- Where the check reports nothing, the message is written and committed (R300). -/
theorem exec_of_encryptCheck_none {pw : Bool} {s : State} (h : encryptCheck pw s = none) :
    exec (encryptCmd pw) s = .next (encrypted pw s) := by
  rw [exec_eq_commit_body, body_encryptCmd, encrypt, h, commit_encryptCmd]
  rfl

theorem encrypted_msgbuf_of_lt (pw : Bool) {s : State} (hwf : s.msgbuf.wf = true) {a : Nat}
    (ha : a < (s.message pw).length) : (encrypted pw s).msgbuf.read a = (s.message pw).getD a 0 := by
  have hread := Memory.read_writeBytes (s.message pw) s.msgbuf 0 a hwf ha
  rwa [Nat.zero_add] at hread

theorem encrypted_msgbuf_of_ge (pw : Bool) (s : State) {a : Nat} (ha : (s.message pw).length ≤ a) :
    (encrypted pw s).msgbuf.read a = s.msgbuf.read a :=
  Memory.read_writeBytes_other _ _ _ _ (.inr (by rwa [Nat.zero_add]))

/-- DONE and OUT_VALID, and WBUSY as it was (R48, R602). -/
theorem encrypted_statusWord (pw : Bool) (s : State) :
    (encrypted pw s).statusWord = if s.wbusy then 0x62 else 0x42 := by
  have hword : (encrypted pw s).statusWord =
      0#25 ++ BitVec.ofBool true ++ BitVec.ofBool s.wbusy ++ 0#1 ++ 0#1 ++ 0#1 ++ BitVec.ofBool true ++ 0#1 := rfl
  rw [hword]
  cases s.wbusy <;> rfl

theorem encrypted_loadedWord (pw : Bool) (s : State) : (encrypted pw s).loadedWord = 0 := by
  simp [State.loadedWord, State.kEncLoaded, State.kMacLoaded, State.ivLoaded, State.esaltLoaded, State.hsaltLoaded,
    encrypted, completedEncrypt, completedKeys]

/-! ## The statements on results -/

/-- The length of a message by the whole blocks of its plaintext: the header, one more block and the tag besides
(R148, R149, R152). -/
theorem length_message_blocks (pw : Bool) (s : State) :
    (s.message pw).length = 16 * (s.ptLen.toNat / 16) + (headerLen pw + 48) := by
  rw [State.length_message, cipherLen]
  omega

/-- Settles O8: the message is that of password mode, and the next state is `encrypted`. -/
theorem encpFormatsMessage : Obligations.EncpFormatsMessage := by
  intro s hwf hEnc hMac hIv hEsalt hHsalt hlen
  have hcheck : encryptCheck true s = none :=
    (encryptCheck_eq_none_iff true s).2 ⟨(encryptLoaded_true s).2 ⟨hEnc, hMac, hIv, hEsalt, hHsalt⟩, hlen⟩
  exact ⟨length_message_blocks true s, encrypted true s, exec_of_encryptCheck_none hcheck, rfl,
    fun _ => encrypted_msgbuf_of_lt true hwf, fun _ => encrypted_msgbuf_of_ge true s,
    encrypted_statusWord true s, encrypted_loadedWord true s⟩

/-- Settles O9: as O8 in key-based mode, where the salts are no operands. -/
theorem enckFormatsMessage : Obligations.EnckFormatsMessage := by
  intro s hwf hEnc hMac hIv hlen
  have hcheck : encryptCheck false s = none :=
    (encryptCheck_eq_none_iff false s).2 ⟨(encryptLoaded_false s).2 ⟨hEnc, hMac, hIv⟩, hlen⟩
  exact ⟨length_message_blocks false s, encrypted false s, exec_of_encryptCheck_none hcheck, rfl,
    fun _ => encrypted_msgbuf_of_lt false hwf, fun _ => encrypted_msgbuf_of_ge false s,
    encrypted_statusWord false s, encrypted_loadedWord false s⟩

/-- Settles O10: each premise decides the check, and the check the commit. -/
theorem encryptFailures : Obligations.EncryptFailures := by
  refine fun s => ⟨fun h => ?_, fun h => ?_, fun hEnc hMac hIv hEsalt hHsalt hlen => ?_, fun hEnc hMac hIv hlen => ?_⟩
  · exact exec_of_encryptCheck_some (pw := true)
      (encryptCheck_of_not_loaded (mt (encryptLoaded_true s).1 h))
  · exact exec_of_encryptCheck_some (pw := false)
      (encryptCheck_of_not_loaded (mt (encryptLoaded_false s).1 h))
  · exact exec_of_encryptCheck_some (pw := true)
      (encryptCheck_of_too_long ((encryptLoaded_true s).2 ⟨hEnc, hMac, hIv, hEsalt, hHsalt⟩) hlen)
  · exact exec_of_encryptCheck_some (pw := false)
      (encryptCheck_of_too_long ((encryptLoaded_false s).2 ⟨hEnc, hMac, hIv⟩) hlen)

/-! ## Determinism -/

/-- Two states of one CMAX agree on the operands of `Encrypt(pw)` and on their masks (R145, R303). -/
structure SameOperands (pw : Bool) (s1 s2 : State) : Prop where
  cmaxBlocks : s1.cmaxBlocks = s2.cmaxBlocks
  kEnc : s1.kEnc = s2.kEnc
  kMac : s1.kMac = s2.kMac
  iv : s1.iv = s2.iv
  ptLen : s1.ptLen = s2.ptLen
  mkEnc : s1.mkEnc = s2.mkEnc
  mkMac : s1.mkMac = s2.mkMac
  mkIv : s1.mkIv = s2.mkIv
  ptbuf : ∀ a, a < s1.ptLen.toNat → s1.ptbuf.read a = s2.ptbuf.read a
  salts : pw = true → s1.esalt = s2.esalt ∧ s1.hsalt = s2.hsalt
  saltMasks : pw = true → s1.mkEsalt = s2.mkEsalt ∧ s1.mkHsalt = s2.mkHsalt

section
variable {pw : Bool} {s1 s2 : State} (h : SameOperands pw s1 s2)
include h

theorem SameOperands.encryptLoaded_iff : EncryptLoaded pw s1 ↔ EncryptLoaded pw s2 := by
  have hsalts : (pw = true → s1.mkEsalt = 0x3 ∧ s1.mkHsalt = 0x3) ↔
      (pw = true → s2.mkEsalt = 0x3 ∧ s2.mkHsalt = 0x3) :=
    forall_congr' fun hpw => by rw [(h.saltMasks hpw).1, (h.saltMasks hpw).2]
  rw [EncryptLoaded, EncryptLoaded, h.mkEnc, h.mkMac, h.mkIv, hsalts]

theorem SameOperands.encryptCheck_eq : encryptCheck pw s1 = encryptCheck pw s2 := by
  have hcmax : s1.cmax = s2.cmax := congrArg cmaxOf h.cmaxBlocks
  by_cases hloaded : EncryptLoaded pw s1
  · have hloaded2 := h.encryptLoaded_iff.1 hloaded
    rcases Nat.lt_or_ge (s1.cmax - 1) s1.ptLen.toNat with hlong | hfits
    · rw [encryptCheck_of_too_long hloaded hlong, encryptCheck_of_too_long hloaded2 (hcmax ▸ h.ptLen ▸ hlong)]
    · rw [(encryptCheck_eq_none_iff pw s1).2 ⟨hloaded, hfits⟩,
        (encryptCheck_eq_none_iff pw s2).2 ⟨hloaded2, hcmax ▸ h.ptLen ▸ hfits⟩]
  · rw [encryptCheck_of_not_loaded hloaded, encryptCheck_of_not_loaded (mt h.encryptLoaded_iff.2 hloaded)]

theorem SameOperands.header_eq : s1.header pw = s2.header pw := by
  cases pw with
  | false => simp only [State.header, header, State.ivBytes, h.iv, Bool.false_eq_true, if_false]
  | true =>
    obtain ⟨hEsalt, hHsalt⟩ := h.salts rfl
    simp only [State.header, State.esaltBytes, State.hsaltBytes, State.ivBytes, h.iv, hEsalt, hHsalt]

theorem SameOperands.plaintext_eq : s1.plaintext = s2.plaintext := by
  rw [State.plaintext, State.plaintext, ← h.ptLen]
  exact Memory.readBytes_congr _ _ _ _ fun a _ ha => h.ptbuf a (by omega)

theorem SameOperands.message_eq : s1.message pw = s2.message pw := by
  simp only [State.message, State.tag, State.cipherText, State.kEncBytes, State.kMacBytes, State.ivBytes,
    h.header_eq, h.plaintext_eq, h.kEnc, h.kMac, h.iv]

/-- The command of the mode gives such states one result code and, when that is OK, one message (R303). -/
theorem SameOperands.exec_agree (hwf1 : s1.msgbuf.wf = true) (hwf2 : s2.msgbuf.wf = true) :
    ∃ t1 t2, exec (encryptCmd pw) s1 = .next t1 ∧ exec (encryptCmd pw) s2 = .next t2 ∧ t1.errCode = t2.errCode ∧
      (t1.errCode = 0 → t1.msgLen = t2.msgLen ∧
        ∀ a, a < t1.msgLen.toNat → t1.msgbuf.read a = t2.msgbuf.read a) := by
  cases hcheck : encryptCheck pw s1 with
  | some code =>
    refine ⟨_, _, exec_of_encryptCheck_some hcheck, exec_of_encryptCheck_some (h.encryptCheck_eq ▸ hcheck), rfl, ?_⟩
    rcases encryptCheck_some hcheck with rfl | rfl <;> exact nofun
  | none =>
    have hlen : (encrypted pw s1).msgLen = (encrypted pw s2).msgLen := by
      rw [encrypted, encrypted, h.message_eq]
    refine ⟨_, _, exec_of_encryptCheck_none hcheck, exec_of_encryptCheck_none (h.encryptCheck_eq ▸ hcheck), rfl,
      fun _ => ⟨hlen, fun a ha => ?_⟩⟩
    have ha1 : a < (s1.message pw).length := ha.trans_le (Nat.mod_le _ _)
    have ha2 : a < (s2.message pw).length := h.message_eq ▸ ha1
    rw [encrypted_msgbuf_of_lt pw hwf1 ha1, encrypted_msgbuf_of_lt pw hwf2 ha2, h.message_eq]

end

/-- Settles O55: the premises are the shared operands, those on the salts in password mode only. -/
theorem encryptionIsDeterministic : Obligations.EncryptionIsDeterministic := by
  intro s1 s2 hwf1 hwf2 hcmax hkEnc hkMac hiv hlen hmkEnc hmkMac hmkIv hpt
  have hkey : SameOperands false s1 s2 :=
    ⟨hcmax, hkEnc, hkMac, hiv, hlen, hmkEnc, hmkMac, hmkIv, hpt, nofun, nofun⟩
  refine ⟨hkey.exec_agree hwf1 hwf2, fun hesalt hhsalt hmkEsalt hmkHsalt => ?_⟩
  have hpassword : SameOperands true s1 s2 :=
    { hkey with salts := fun _ => ⟨hesalt, hhsalt⟩, saltMasks := fun _ => ⟨hmkEsalt, hmkHsalt⟩ }
  exact hpassword.exec_agree hwf1 hwf2

end Sys2Proof.Machine
end

section
/-! # Parsing and decryption: what a parse extracts, where DEC stops, and what it releases (42_parse_decrypt.md)

The two parses are one rule with the header mode as its parameter. DEC has two ends, `rejected` and `released`; each
verdict of its fail-fast check, its MAC and its padding has one rule for the next state, `exec_dec_cases` says that
there is no other, and the statements read them off. -/

namespace Sys2Proof.Machine

/-! ## Byte strings standing in a buffer -/

theorem Memory.readBytes_add (m : Memory) (a n k : Nat) :
    m.readBytes a (n + k) = m.readBytes a n ++ m.readBytes (a + n) k := by
  induction n generalizing a with
  | zero => simp [Memory.readBytes]
  | succ n ih => simp [Memory.readBytes, Nat.succ_add, ih, Nat.add_assoc]

/-- The byte string stands in the buffer from the index up. -/
def Memory.Holds (m : Memory) (a : Nat) (bs : List Byte) : Prop := m.readBytes a bs.length = bs

theorem Memory.holds_append {m : Memory} {a : Nat} {xs ys : List Byte} :
    m.Holds a (xs ++ ys) ↔ m.Holds a xs ∧ m.Holds (a + xs.length) ys := by
  rw [Memory.Holds, List.length_append, Memory.readBytes_add]
  exact ⟨fun h => List.append_inj h (by simp), fun ⟨hxs, hys⟩ => congrArg₂ (· ++ ·) hxs hys⟩

theorem Memory.Holds.slice_eq {m : Memory} {a b : Nat} {bs : List Byte} (h : m.Holds a bs)
    (hb : b = a + bs.length) : m.slice a b = bs := by
  rwa [Memory.slice, hb, Nat.add_sub_cancel_left]

/-- A byte string stored from the start of a zeroed buffer is all that it reads. -/
theorem Memory.read_writeBytes_zeroed (bs : List Byte) (a : Nat) :
    (Memory.zeroed.writeBytes 0 bs).read a = bs.getD a 0 := by
  rcases Nat.lt_or_ge a bs.length with ha | ha
  · simpa using Memory.read_writeBytes bs Memory.zeroed 0 a rfl ha
  · rw [Memory.read_writeBytes_other _ _ _ _ (.inr (by rwa [Nat.zero_add])), Memory.read_zeroed,
      List.getD_eq_default _ _ ha]

/-! ## The parse of a mode -/

/-- The command that runs `Parse(pw)`: PARSEP in password mode, PARSEK in key-based mode (R401, R402). -/
def parseCmd (pw : Bool) : Instr := if pw then .parsep else .parsek

theorem body_parseCmd (pw : Bool) (s : State) : body (parseCmd pw) s = parse pw s := by
  cases pw <;> rfl

/-- The common completion of both parses leaves keys and masks alone and sets the latch on OK (R602). -/
theorem commit_parseCmd (pw : Bool) (code : ResultCode) (s : State) :
    commit (parseCmd pw) code s =
      { completed code.bits s with parsed := code == .ok, pmode := pw && code == .ok } := by
  cases pw <;> rfl

@[simp] theorem headerLen_true : headerLen true = 34 := rfl

@[simp] theorem headerLen_false : headerLen false = 18 := rfl

/-- MSG_MAX_P, the capacity a password-mode parse allows (R12). -/
theorem capacity_password (s : State) : headerLen true + s.cmax + tagLen = s.cmax + 66 := by
  rw [headerLen_true, tagLen]
  omega

/-- MSG_MAX_K, the capacity a key-based parse allows (R12). -/
theorem capacity_key (s : State) : headerLen false + s.cmax + tagLen = s.cmax + 50 := by
  rw [headerLen_false, tagLen]
  omega

theorem parseCheck_of_too_long {pw : Bool} {s : State} (h : headerLen pw + s.cmax + tagLen < s.msgLen.toNat) :
    parseCheck pw s = some .length := if_pos h

theorem parseCheck_of_too_short {pw : Bool} {s : State} (h : s.msgLen.toNat < headerLen pw + tagLen) :
    parseCheck pw s = some .insufficientInput := by
  rw [parseCheck, if_neg (by omega), if_pos h]

/-- The check reports no other code (R400). -/
theorem parseCheck_some {pw : Bool} {s : State} {code : ResultCode} (h : parseCheck pw s = some code) :
    code = .length ∨ code = .insufficientInput := by
  unfold parseCheck at h
  split_ifs at h
  · exact .inl (Option.some.inj h).symm
  · exact .inr (Option.some.inj h).symm

/-- Where the check reports a code, the commit with that code is all that happens (R400, R414). -/
theorem exec_of_parseCheck_some {pw : Bool} {s : State} {code : ResultCode} (h : parseCheck pw s = some code) :
    exec (parseCmd pw) s = .next (completed code.bits s) := by
  have hbody : body (parseCmd pw) s = (code, s) := by rw [body_parseCmd, parse, h]
  rw [exec_eq_commit_body, hbody, commit_parseCmd]
  rcases parseCheck_some h with rfl | rfl <;> cases pw <;> rfl

/-- Settles O13: the length decides the check, and the check the commit. -/
theorem parseFailures : Obligations.ParseFailures := by
  refine fun s => ⟨fun h => ?_, fun h => ?_, fun h => ?_, fun h => ?_⟩
  · exact exec_of_parseCheck_some (pw := true) (parseCheck_of_too_long (by rwa [capacity_password]))
  · exact exec_of_parseCheck_some (pw := false) (parseCheck_of_too_long (by rwa [capacity_key]))
  · exact exec_of_parseCheck_some (pw := true) (parseCheck_of_too_short h)
  · exact exec_of_parseCheck_some (pw := false) (parseCheck_of_too_short h)

/-- The state a successful parse leaves: the fields of the message in their registers, their masks cleared, the latch
set, and the commit (R400). -/
def parsedState (pw : Bool) (s : State) : State :=
  { completed 0 s with
    parsed := true
    pmode := pw
    version := s.msgbuf.read 0
    options := s.msgbuf.read 1
    esalt := wordsOfBytes 2 (parsedEsalt pw s)
    hsalt := wordsOfBytes 2 (parsedHsalt pw s)
    iv := wordsOfBytes 4 (parsedIv pw s)
    mkIv := 0
    mkEsalt := 0
    mkHsalt := 0 }

/-- Where the check reports nothing, the fields are extracted and the latch is set (R400). -/
theorem exec_of_parseCheck_none {pw : Bool} {s : State} (h : parseCheck pw s = none) :
    exec (parseCmd pw) s = .next (parsedState pw s) := by
  rw [exec_eq_commit_body, body_parseCmd, parse, h, commit_parseCmd]
  cases pw <;> rfl

theorem parsedState_esaltBytes (pw : Bool) (s : State) : (parsedState pw s).esaltBytes = parsedEsalt pw s :=
  bytesOfWords_wordsOfBytes 2 _ (length_parsedEsalt pw s)

theorem parsedState_hsaltBytes (pw : Bool) (s : State) : (parsedState pw s).hsaltBytes = parsedHsalt pw s :=
  bytesOfWords_wordsOfBytes 2 _ (length_parsedHsalt pw s)

theorem parsedState_ivBytes (pw : Bool) (s : State) : (parsedState pw s).ivBytes = parsedIv pw s :=
  bytesOfWords_wordsOfBytes 4 _ (length_parsedIv pw s)

/-- DONE and PARSED, MODE as the command, and WBUSY as it was (R48, R602). -/
theorem parsedState_statusWord (pw : Bool) (s : State) : (parsedState pw s).statusWord =
    0#25 ++ 0#1 ++ BitVec.ofBool s.wbusy ++ BitVec.ofBool pw ++ 1#1 ++ 0#1 ++ 1#1 ++ 0#1 := rfl

/-- Settles O11: the next state is `parsedState` of password mode. -/
theorem parsepExtractsFields : Obligations.ParsepExtractsFields := by
  intro s hlower hupper
  have hcheck : parseCheck true s = none :=
    (parseCheck_none true s).2 ⟨hlower, by rwa [capacity_password]⟩
  refine ⟨parsedState true s, exec_of_parseCheck_none hcheck, rfl, parsedState_esaltBytes true s,
    parsedState_hsaltBytes true s, parsedState_ivBytes true s, ?_⟩
  rw [parsedState_statusWord]
  cases s.wbusy <;> rfl

theorem wordsOfBytes_zeros : wordsOfBytes 2 (zeros 8) = Vector.replicate 2 0 := by decide

/-- Settles O12: as O11 in key-based mode, where the salts parsed are zeros. -/
theorem parsekExtractsFields : Obligations.ParsekExtractsFields := by
  intro s hlower hupper
  have hcheck : parseCheck false s = none :=
    (parseCheck_none false s).2 ⟨hlower, by rwa [capacity_key]⟩
  have hsalts : parsedState false s =
      { parsedState false s with esalt := Vector.replicate 2 0, hsalt := Vector.replicate 2 0 } := by
    rw [← wordsOfBytes_zeros]
    rfl
  refine ⟨parsedState false s, exec_of_parseCheck_none hcheck, hsalts, parsedState_ivBytes false s, ?_⟩
  rw [parsedState_statusWord]
  cases s.wbusy <;> rfl

/-! ## The checks and verdicts of DEC -/

theorem decryptCheck_eq_none_iff (s : State) : decryptCheck s = none ↔
    s.parsed = true ∧ s.mkEnc = 0xFF ∧ s.mkMac = 0xFF ∧ s.cLen ≠ 0 ∧ s.cLen % 16 = 0 := by
  simp only [decryptCheck_none, State.kEncLoaded, State.kMacLoaded, beq_iff_eq]

theorem decryptCheck_of_not_parsed {s : State} (h : s.parsed = false) : decryptCheck s = some .sequence := by
  simp [decryptCheck, h]

/-- A key that is not loaded is reported before the length is looked at (R627). -/
theorem decryptCheck_of_not_loaded {s : State} (hp : s.parsed = true) (h : ¬ (s.mkEnc = 0xFF ∧ s.mkMac = 0xFF)) :
    decryptCheck s = some .notLoaded := by
  have hkeys : (!s.kEncLoaded || !s.kMacLoaded) = true := by
    simpa [State.kEncLoaded, State.kMacLoaded, imp_iff_not_or] using h
  rw [decryptCheck, if_neg (by simp [hp]), if_pos hkeys]

theorem decryptCheck_of_length {s : State} (hp : s.parsed = true) (hEnc : s.mkEnc = 0xFF) (hMac : s.mkMac = 0xFF)
    (h : s.cLen = 0 ∨ s.cLen % 16 ≠ 0) : decryptCheck s = some .cipherFailed := by
  rw [decryptCheck, if_neg (by simp [hp]), if_neg (by simp [State.kEncLoaded, State.kMacLoaded, hEnc, hMac]), if_pos h]

/-- The check reports no other code (R404). -/
theorem decryptCheck_some {s : State} {code : ResultCode} (h : decryptCheck s = some code) :
    code = .sequence ∨ code = .notLoaded ∨ code = .cipherFailed := by
  unfold decryptCheck at h
  split_ifs at h
  · exact .inl (Option.some.inj h).symm
  · exact .inr (.inl (Option.some.inj h).symm)
  · exact .inr (.inr (Option.some.inj h).symm)

theorem macOk_iff (s : State) : macOk s = true ↔ s.embeddedTag = expectedTag s :=
  cteq32_iff (by simp [State.embeddedTag, expectedTag, tagLen])

/-- With some ciphertext the message ends where its tag ends (R404). -/
theorem msgLen_eq {s : State} (h : s.cLen ≠ 0) : s.msgLen.toNat = headerLen s.pmode + s.cLen + tagLen := by
  unfold State.cLen at h ⊢
  omega

theorem embeddedTag_eq_slice {s : State} (h : s.cLen ≠ 0) :
    s.embeddedTag = s.msgbuf.slice (headerLen s.pmode + s.cLen) s.msgLen.toNat := by
  rw [Memory.slice, msgLen_eq h, Nat.add_sub_cancel_left, State.embeddedTag]

/-! ## The two ends of DEC -/

/-- The state a DEC that fails leaves: PTBUF and PT_LEN zeroed, the keys consumed, and the commit (R408). -/
def rejected (code : ResultCode) (s : State) : State :=
  { completedKeys code.bits s with ptLen := 0, ptbuf := Memory.zeroed }

/-- The state a DEC that succeeds leaves: the plaintext in a zeroed PTBUF, its length in PT_LEN, the keys consumed, and
the commit (R404, R405). -/
def released (pt : List Byte) (s : State) : State :=
  { completedKeys 0 s with
    outValid := true
    ptLen := BitVec.ofNat 32 pt.length
    ptbuf := Memory.zeroed.writeBytes 0 pt }

/-- The release by its frame and PTBUF. -/
theorem released_eq {pt : List Byte} {n : Nat} (s : State) (h : pt.length = n) :
    released pt s = { completedKeys 0 s with
      outValid := true, ptLen := BitVec.ofNat 32 n, ptbuf := (released pt s).ptbuf } := by
  rw [← h]
  rfl

theorem released_ptbuf_read (pt : List Byte) (s : State) (a : Nat) : (released pt s).ptbuf.read a = pt.getD a 0 :=
  Memory.read_writeBytes_zeroed pt a

/-- DONE and OUT_VALID, and WBUSY as it was (R48, R602). -/
theorem released_statusWord (pt : List Byte) (s : State) :
    (released pt s).statusWord = if s.wbusy then 0x62 else 0x42 := by
  have hword : (released pt s).statusWord =
      0#25 ++ 1#1 ++ BitVec.ofBool s.wbusy ++ 0#1 ++ 0#1 ++ 0#1 ++ 1#1 ++ 0#1 := rfl
  rw [hword]
  cases s.wbusy <;> rfl

theorem exec_dec_of_decryptFail {s : State} {code : ResultCode} (hcode : code ≠ .ok)
    (h : decrypt s = decryptFail code s) : exec .dec s = .next (rejected code s) := by
  have hok : (makesOutput .dec && code == .ok) = false := by simpa [makesOutput] using hcode
  rw [exec_eq_commit_body, body, h, decryptFail, commit, hok]
  rfl

theorem exec_dec_of_check {s : State} {code : ResultCode} (h : decryptCheck s = some code) :
    exec .dec s = .next (rejected code s) := by
  refine exec_dec_of_decryptFail ?_ (by rw [decrypt, h])
  rcases decryptCheck_some h with rfl | rfl | rfl <;> exact nofun

/-- The MAC verdict comes first, whatever the padding (R406). -/
theorem exec_dec_of_tag_mismatch {s : State} (h : decryptCheck s = none) (hmac : macOk s = false) :
    exec .dec s = .next (rejected .tagMismatch s) :=
  exec_dec_of_decryptFail nofun (by simp [decrypt, h, hmac])

theorem exec_dec_of_bad_padding {s : State} (h : decryptCheck s = none) (hmac : macOk s = true)
    (hpad : (unpad (candidate s)).1 = false) : exec .dec s = .next (rejected .cipherFailed s) :=
  exec_dec_of_decryptFail nofun (by simp [decrypt, h, hmac, hpad])

theorem exec_dec_of_good {s : State} {pt : List Byte} (h : decryptCheck s = none) (hmac : macOk s = true)
    (hpad : unpad (candidate s) = (true, pt)) : exec .dec s = .next (released pt s) := by
  have hbody : body .dec s = release pt s := by simp [body, decrypt, h, hmac, hpad]
  rw [exec_eq_commit_body, hbody]
  rfl

/-- What DEC can do (R404, R406). -/
theorem exec_dec_cases {s t : State} (ht : exec .dec s = .next t) :
    (∃ code, decryptCheck s = some code ∧ t = rejected code s) ∨
    (decryptCheck s = none ∧ macOk s = false ∧ t = rejected .tagMismatch s) ∨
    (decryptCheck s = none ∧ macOk s = true ∧ (unpad (candidate s)).1 = false ∧ t = rejected .cipherFailed s) ∨
    (decryptCheck s = none ∧ macOk s = true ∧ ∃ pt, unpad (candidate s) = (true, pt) ∧ t = released pt s) := by
  have next_eq {u : State} (hu : exec .dec s = .next u) : t = u := Host.Outcome.next.inj (ht.symm.trans hu)
  cases hcheck : decryptCheck s with
  | some code => exact .inl ⟨code, rfl, next_eq (exec_dec_of_check hcheck)⟩
  | none =>
    cases hmac : macOk s with
    | false => exact .inr (.inl ⟨rfl, rfl, next_eq (exec_dec_of_tag_mismatch hcheck hmac)⟩)
    | true =>
      rcases hpad : unpad (candidate s) with ⟨_ | _, pt⟩
      · exact .inr (.inr (.inl ⟨rfl, rfl, rfl, next_eq (exec_dec_of_bad_padding hcheck hmac (by rw [hpad]))⟩))
      · exact .inr (.inr (.inr ⟨rfl, rfl, pt, rfl, next_eq (exec_dec_of_good hcheck hmac hpad)⟩))

/-! ## The statements on the results of DEC -/

/-- Settles O14: each premise decides the check, and the check the rejection. -/
theorem decFailsFast : Obligations.DecFailsFast := by
  rintro s c (⟨hp, rfl⟩ | ⟨hp, hkeys, rfl⟩ | ⟨hp, hEnc, hMac, rfl, -, -, hlen⟩)
  · exact ⟨_, exec_dec_of_check (decryptCheck_of_not_parsed hp), rfl, fun _ => rfl⟩
  · exact ⟨_, exec_dec_of_check (decryptCheck_of_not_loaded hp hkeys), rfl, fun _ => rfl⟩
  · exact ⟨_, exec_dec_of_check (decryptCheck_of_length hp hEnc hMac hlen), rfl, fun _ => rfl⟩

/-- Settles O15: the tag in MSGBUF decides the MAC verdict, `PadValid` of the candidate the padding verdict. -/
theorem decVerdictTable : Obligations.DecVerdictTable := by
  intro s hp hEnc hMac h n hn hblocks ct hdr tagOk x p padOk
  have hcheck : decryptCheck s = none := (decryptCheck_eq_none_iff s).2 ⟨hp, hEnc, hMac, hn, hblocks⟩
  have htag : macOk s = true ↔ tagOk := by rw [macOk_iff, embeddedTag_eq_slice hn]; rfl
  have hx : x.length = n := length_candidate s hblocks
  have hpad : PadValid x ↔ padOk := by rw [PadValid, hx]
  have hx16 : 16 ≤ x.length := by omega
  by_cases hmac : tagOk
  · by_cases hvalid : padOk
    · have hunpad : unpad x = (true, x.take (n - p)) := by
        rw [unpad_of_padValid hx16 (hpad.2 hvalid), hx]
      have hlen : (x.take (n - p)).length = n - p := by rw [List.length_take]; omega
      refine ⟨_, exec_dec_of_good hcheck (htag.2 hmac) hunpad, absurd hmac, fun _ => absurd hvalid,
        fun _ _ => ⟨released_eq s hlen, fun a ha => ?_, fun a ha => ?_⟩⟩
      · rw [released_ptbuf_read, List.getD_eq_getElem?_getD, List.getElem?_take_of_lt ha,
          ← List.getD_eq_getElem?_getD]
      · rw [released_ptbuf_read, List.getD_eq_default _ _ (by omega)]
    · have hunpad : (unpad x).1 = false := by rw [unpad_of_not_padValid hx16 (mt hpad.1 hvalid)]
      exact ⟨_, exec_dec_of_bad_padding hcheck (htag.2 hmac) hunpad, absurd hmac, fun _ _ => ⟨rfl, fun _ => rfl⟩,
        fun _ hvalid' => absurd hvalid' hvalid⟩
  · exact ⟨_, exec_dec_of_tag_mismatch hcheck (Bool.eq_false_iff.2 (mt htag.1 hmac)),
      fun _ => ⟨rfl, fun _ => rfl⟩, (absurd · hmac), (absurd · hmac)⟩

/-- Settles O16: the candidate unpads to the plaintext it was padded from. -/
theorem decReleasesPlaintext : Obligations.DecReleasesPlaintext := by
  intro s pt hp hEnc hMac h ct hdr hlower hblocks htag hcandidate
  have hlower' : headerLen s.pmode + 32 < s.msgLen.toNat := hlower
  have hc : s.cLen ≠ 0 := by unfold State.cLen tagLen; omega
  have hend : headerLen s.pmode + s.cLen = s.msgLen.toNat - 32 := by unfold State.cLen tagLen; omega
  have hct : s.parsedCipherText = ct := by rw [State.parsedCipherText, hend]; rfl
  have hcheck : decryptCheck s = none := (decryptCheck_eq_none_iff s).2 ⟨hp, hEnc, hMac, hc, hblocks⟩
  have hmac : macOk s = true := by rw [macOk_iff, embeddedTag_eq_slice hc, hend, expectedTag, hct]; exact htag
  have hunpad : unpad (candidate s) = (true, pt) := by
    rw [candidate, hct, hcandidate, unpad_padInput]
  exact ⟨_, exec_dec_of_good hcheck hmac hunpad, rfl, released_ptbuf_read pt s, released_statusWord pt s⟩

/-- Settles O52: every end of DEC but the release is `rejected`, and the release answers OK. -/
theorem rejectBeforeReveal : Obligations.RejectBeforeReveal := by
  intro s t ht hcode
  rcases exec_dec_cases ht with ⟨code, -, rfl⟩ | ⟨-, -, rfl⟩ | ⟨-, -, -, rfl⟩ | ⟨-, -, pt, -, rfl⟩
  case inr.inr.inr => exact absurd rfl hcode
  all_goals exact ⟨fun _ => rfl, rfl, rfl, rfl, rfl⟩

/-! ## What DEC does not look at -/

theorem exec_dec_msgbuf {s t : State} (ht : exec .dec s = .next t) : t.msgbuf = s.msgbuf := by
  rcases exec_dec_cases ht with ⟨code, -, rfl⟩ | ⟨-, -, rfl⟩ | ⟨-, -, -, rfl⟩ | ⟨-, -, pt, -, rfl⟩ <;> rfl

theorem parsedCipherText_congr {s : State} {m : Memory}
    (h : ∀ i, headerLen s.pmode ≤ i → i < headerLen s.pmode + s.cLen → m.read i = s.msgbuf.read i) :
    State.parsedCipherText { s with msgbuf := m } = s.parsedCipherText :=
  Memory.readBytes_congr _ _ _ _ fun i hlo hi =>
    h i hlo (lt_of_lt_of_eq hi (Nat.add_sub_cancel' (Nat.le_add_right _ _)))

theorem embeddedTag_congr {s : State} {m : Memory}
    (h : ∀ i, headerLen s.pmode + s.cLen ≤ i → m.read i = s.msgbuf.read i) :
    State.embeddedTag { s with msgbuf := m } = s.embeddedTag :=
  Memory.readBytes_congr _ _ _ _ fun i hi _ => h i hi

/-- The expected tag reads MSGBUF in the ciphertext only: the header is that of the registers (R407). -/
theorem expectedTag_congr {s : State} {m : Memory}
    (hct : State.parsedCipherText { s with msgbuf := m } = s.parsedCipherText) :
    expectedTag { s with msgbuf := m } = expectedTag s :=
  congrArg (fun ct => hmacSha256 s.kMacBytes (s.header s.pmode ++ ct)) hct

/-- DEC reads MSGBUF in two places only, the ciphertext and the tag: with another buffer that has the same there, it
does the same and keeps that buffer (R404). -/
theorem exec_dec_msgbuf_congr {s t : State} {m : Memory}
    (hct : State.parsedCipherText { s with msgbuf := m } = s.parsedCipherText)
    (htag : State.embeddedTag { s with msgbuf := m } = s.embeddedTag) (ht : exec .dec s = .next t) :
    exec .dec { s with msgbuf := m } = .next { t with msgbuf := m } := by
  have hcandidate : candidate { s with msgbuf := m } = candidate s := congrArg (cbcDec s.kEncBytes s.ivBytes) hct
  have hmac : macOk { s with msgbuf := m } = macOk s :=
    congrArg₂ cteq32 htag (expectedTag_congr hct)
  rcases exec_dec_cases ht with ⟨code, hc, rfl⟩ | ⟨hc, hm, rfl⟩ | ⟨hc, hm, hpad, rfl⟩ | ⟨hc, hm, pt, hpad, rfl⟩
  · exact exec_dec_of_check hc
  · exact exec_dec_of_tag_mismatch hc (hmac.trans hm)
  · exact exec_dec_of_bad_padding hc (hmac.trans hm) (hcandidate ▸ hpad)
  · exact exec_dec_of_good hc (hmac.trans hm) (hcandidate ▸ hpad)

theorem two_le_headerLen (pw : Bool) : 2 ≤ headerLen pw := by cases pw <;> decide

/-- Settles O51: both bytes lie in the header, below the ciphertext and the tag. -/
theorem versionAndOptionsNormalised : Obligations.VersionAndOptionsNormalised := by
  intro s b0 b1
  have hread (i : Nat) (hi : headerLen s.pmode ≤ i) :
      ((s.msgbuf.write 0 b0).write 1 b1).read i = s.msgbuf.read i := by
    have hheader := two_le_headerLen s.pmode
    rw [Memory.read_write_other _ _ _ _ (by omega), Memory.read_write_other _ _ _ _ (by omega)]
  obtain ⟨code, s', ht⟩ := exec_commit .dec s
  refine ⟨_, ht, ?_⟩
  rw [exec_dec_msgbuf ht]
  exact exec_dec_msgbuf_congr (parsedCipherText_congr fun i hi _ => hread i hi)
    (embeddedTag_congr fun i hi => hread i (Nat.le_of_add_right_le hi)) ht

/-- Settles O53: without the fail-fast codes and the padding's, only the MAC verdict is left, and neither it nor the
rejection looks at KEY_ENC. -/
theorem tagMismatchHidesCandidate : Obligations.TagMismatchHidesCandidate := by
  intro s1 s2 t hsame ht hcode
  have hcheck : decryptCheck s1 = decryptCheck s2 := (congrArg decryptCheck hsame :)
  have hmac : macOk s1 = macOk s2 := (congrArg macOk hsame :)
  have hrejected : rejected .tagMismatch s1 = rejected .tagMismatch s2 := (congrArg (rejected .tagMismatch) hsame :)
  rcases exec_dec_cases ht with ⟨code, hc, rfl⟩ | ⟨hc, hm, rfl⟩ | ⟨-, -, -, rfl⟩ | ⟨-, -, pt, -, rfl⟩
  · rcases decryptCheck_some hc with rfl | rfl | rfl <;> nomatch hcode
  · rw [hrejected]
    exact exec_dec_of_tag_mismatch (hcheck ▸ hc) (hmac ▸ hm)
  · nomatch hcode
  · nomatch hcode

/-- An accepted message is past the checks and has its expected tag. -/
theorem accepted_of_errCode_zero {s t : State} (ht : exec .dec s = .next t) (hcode : t.errCode = 0) :
    decryptCheck s = none ∧ s.embeddedTag = expectedTag s := by
  rcases exec_dec_cases ht with ⟨code, hc, rfl⟩ | ⟨-, -, rfl⟩ | ⟨-, -, -, rfl⟩ | ⟨hc, hm, -⟩
  · rcases decryptCheck_some hc with rfl | rfl | rfl <;> nomatch hcode
  · nomatch hcode
  · nomatch hcode
  · exact ⟨hc, (macOk_iff s).1 hm⟩

/-- A tag that was the expected one is not with another byte in it: the ciphertext, and so the expected tag, stays. -/
theorem macOk_of_tampered {s : State} {i : Nat} {b : Byte} (hwf : s.msgbuf.wf = true)
    (htag : s.embeddedTag = expectedTag s) (hi : i < tagLen)
    (hb : b ≠ s.msgbuf.read (headerLen s.pmode + s.cLen + i)) :
    macOk { s with msgbuf := s.msgbuf.write (headerLen s.pmode + s.cLen + i) b } = false := by
  refine Bool.eq_false_iff.2 fun hm => hb ?_
  have hct := parsedCipherText_congr (s := s) (m := s.msgbuf.write (headerLen s.pmode + s.cLen + i) b)
    fun j _ hj => Memory.read_write_other _ _ _ _ (by omega)
  have hsame := ((macOk_iff _).1 hm).trans ((expectedTag_congr hct).trans htag.symm)
  calc b = (s.msgbuf.write (headerLen s.pmode + s.cLen + i) b).read (headerLen s.pmode + s.cLen + i) :=
        (Memory.read_write_same _ _ _ hwf).symm
    _ = _ := (Memory.getD_readBytes _ _ _ _ hi).symm
    _ = s.embeddedTag.getD i 0 := congrArg (List.getD · i 0) hsame
    _ = s.msgbuf.read (headerLen s.pmode + s.cLen + i) := Memory.getD_readBytes _ _ _ _ hi

/-- Settles O50: the byte lies in the embedded tag, and no fail-fast check looks at MSGBUF. -/
theorem tamperedTagIsRejected : Obligations.TamperedTagIsRejected := by
  intro s t a b hwf ht hcode hlo hhi hb
  obtain ⟨hcheck, htag⟩ := accepted_of_errCode_zero ht hcode
  obtain ⟨-, -, -, hc, -⟩ := (decryptCheck_eq_none_iff s).1 hcheck
  have hend : s.msgLen.toNat = headerLen s.pmode + s.cLen + 32 := msgLen_eq hc
  obtain ⟨i, rfl⟩ := Nat.exists_eq_add_of_le (show headerLen s.pmode + s.cLen ≤ a by omega)
  have hmac := macOk_of_tampered hwf htag (show i < 32 by omega) hb
  exact ⟨_, exec_dec_of_tag_mismatch hcheck hmac, rfl, rfl, fun _ => rfl⟩

/-! ## The round trip -/

/-- The header of a formatted message is where a parse of the same mode looks for its fields (R147, R157). -/
theorem parsed_fields_of_holds {pw : Bool} {s r : State} (h : r.msgbuf.Holds 0 (s.header pw)) :
    parsedIv pw r = s.ivBytes ∧
      (pw = true → parsedEsalt pw r = s.esaltBytes ∧ parsedHsalt pw r = s.hsaltBytes) := by
  cases pw with
  | false =>
    obtain ⟨-, hiv⟩ := Memory.holds_append.1 (h : r.msgbuf.Holds 0 ([0x03, 0x00] ++ s.ivBytes))
    exact ⟨hiv.slice_eq (by simp [State.ivBytes]), nofun⟩
  | true =>
    obtain ⟨hsalts, hiv⟩ := Memory.holds_append.1
      (h : r.msgbuf.Holds 0 ([0x03, 0x01] ++ s.esaltBytes ++ s.hsaltBytes ++ s.ivBytes))
    obtain ⟨hfirst, hhsalt⟩ := Memory.holds_append.1 hsalts
    obtain ⟨-, hesalt⟩ := Memory.holds_append.1 hfirst
    have hE : s.esaltBytes.length = 8 := by simp [State.esaltBytes]
    have hH : s.hsaltBytes.length = 8 := by simp [State.hsaltBytes]
    have hI : s.ivBytes.length = 16 := by simp [State.ivBytes]
    simp only [List.length_append, List.length_cons, List.length_nil, hE, hH] at hiv hhsalt hesalt
    exact ⟨hiv.slice_eq (by omega), fun _ => ⟨hesalt.slice_eq (by omega), hhsalt.slice_eq (by omega)⟩⟩

/-- A parse brings back the canonical header of the state that formatted the message. -/
theorem parsedState_header {pw : Bool} {s r : State} (h : r.msgbuf.Holds 0 (s.header pw)) :
    (parsedState pw r).header pw = s.header pw := by
  obtain ⟨hiv, hsalts⟩ := parsed_fields_of_holds h
  rw [State.header, State.header, parsedState_esaltBytes, parsedState_hsaltBytes, parsedState_ivBytes, hiv]
  cases pw with
  | false => rfl
  | true => rw [(hsalts rfl).1, (hsalts rfl).2]

/-- State `u` is about to run DEC on the message that `Encrypt(pw)` formats in `s`: it is parsed, and the same keys are
loaded (R413). -/
structure Received (pw : Bool) (s u : State) : Prop where
  parsed : u.parsed = true
  pmode : u.pmode = pw
  msgLen : u.msgLen.toNat = (s.message pw).length
  message : u.msgbuf.Holds 0 (s.message pw)
  header : u.header pw = s.header pw
  iv : u.ivBytes = s.ivBytes
  kEnc : u.kEnc = s.kEnc
  kMac : u.kMac = s.kMac
  mkEnc : u.mkEnc = 0xFF
  mkMac : u.mkMac = 0xFF

section
variable {pw : Bool} {s u : State} (h : Received pw s u)
include h

theorem Received.cLen_eq : u.cLen = cipherLen s.ptLen.toNat := by
  rw [State.cLen, h.pmode, h.msgLen, State.length_message, tagLen]
  omega

theorem Received.parts :
    u.parsedCipherText = s.cipherText ∧ u.embeddedTag = s.tag pw := by
  obtain ⟨hfront, htag⟩ := Memory.holds_append.1 h.message
  obtain ⟨-, hct⟩ := Memory.holds_append.1 hfront
  simp only [List.length_append, State.length_header, State.length_cipherText, Nat.zero_add] at hct htag
  rw [State.parsedCipherText, State.embeddedTag, h.pmode, h.cLen_eq]
  refine ⟨hct.slice_eq (by simp), ?_⟩
  rwa [Memory.Holds, State.tag, length_hmacSha256] at htag

theorem Received.decryptCheck_eq_none : decryptCheck u = none := by
  have hlen := h.cLen_eq
  unfold cipherLen at hlen
  exact (decryptCheck_eq_none_iff u).2 ⟨h.parsed, h.mkEnc, h.mkMac, by omega, by omega⟩

theorem Received.macOk_eq_true : macOk u = true := by
  obtain ⟨hct, htag⟩ := h.parts
  rw [macOk_iff, htag, expectedTag, hct, h.pmode, h.header, State.tag, State.kMacBytes, State.kMacBytes, h.kMac]

theorem Received.unpad_candidate : unpad (candidate u) = (true, s.plaintext) := by
  obtain ⟨hct, -⟩ := h.parts
  have hblocks : (padInput s.plaintext).length % 16 = 0 := by rw [length_padInput, cipherLen]; omega
  rw [candidate, hct, h.iv, State.kEncBytes, h.kEnc, ← State.kEncBytes, State.cipherText,
    cbcDec_cbcEnc _ _ _ hblocks, unpad_padInput]

theorem Received.exec_dec : exec .dec u = .next (released s.plaintext u) :=
  exec_dec_of_good h.decryptCheck_eq_none h.macOk_eq_true h.unpad_candidate

end

/-- A message in MSGBUF, parsed, with the keys it was made with loaded again, is received. -/
theorem received_of_holds {pw : Bool} {s r : State} (hlen : r.msgLen.toNat = (s.message pw).length)
    (hmessage : r.msgbuf.Holds 0 (s.message pw)) :
    Received pw s { parsedState pw r with kEnc := s.kEnc, kMac := s.kMac, mkEnc := 0xFF, mkMac := 0xFF } := by
  have hheader : r.msgbuf.Holds 0 (s.header pw) := (Memory.holds_append.1 (Memory.holds_append.1 hmessage).1).1
  exact
    { parsed := rfl
      pmode := rfl
      msgLen := hlen
      message := hmessage
      header := parsedState_header hheader
      iv := (parsedState_ivBytes pw r).trans (parsed_fields_of_holds hheader).1
      kEnc := rfl
      kMac := rfl
      mkEnc := rfl
      mkMac := rfl }

/-- A message is no longer than an implementation of the same CMAX can parse (R12, R400). -/
theorem parseCheck_of_message {pw : Bool} {s r : State} (hcmax : r.cmax = s.cmax)
    (hfits : s.ptLen.toNat ≤ s.cmax - 1) (hlen : r.msgLen.toNat = (s.message pw).length) :
    parseCheck pw r = none := by
  have hct := cipherLen_le_cmax s hfits
  rw [s.length_message] at hlen
  refine (parseCheck_none pw r).2 ⟨?_, ?_⟩ <;> rw [tagLen] <;> omega

/-- MSG_LEN can hold the length of every message (R12). -/
theorem encrypted_msgLen (pw : Bool) {s : State} (h : s.ptLen.toNat ≤ s.cmax - 1) :
    (encrypted pw s).msgLen.toNat = (s.message pw).length := by
  have hct := cipherLen_le_cmax s h
  have hheader := headerLen_le pw
  have hcmax := s.cmax_bounds
  have hlen := s.length_message pw
  exact Nat.mod_eq_of_lt (by omega)

theorem encrypted_holds_message (pw : Bool) {s : State} (hwf : s.msgbuf.wf = true) :
    (encrypted pw s).msgbuf.Holds 0 (s.message pw) :=
  Memory.readBytes_writeBytes (s.message pw) s.msgbuf 0 hwf

theorem length_plaintext (s : State) : s.plaintext.length = s.ptLen.toNat := by simp [State.plaintext]

theorem released_plaintext_ptLen (s u : State) : (released s.plaintext u).ptLen = s.ptLen := by
  simp [released, length_plaintext]

theorem released_plaintext_read (s u : State) {a : Nat} (ha : a < s.ptLen.toNat) :
    (released s.plaintext u).ptbuf.read a = s.ptbuf.read a := by
  rw [released_ptbuf_read, State.plaintext, Memory.slice, Memory.getD_readBytes _ _ _ _ (by simpa using ha),
    Nat.zero_add]

/-- The message of `Encrypt(pw)`, received in any state of the same CMAX, parsed there and decrypted with the same
keys, gives back the plaintext (R413). -/
theorem encrypt_parse_decrypt {pw : Bool} {s r : State} {m : Memory} (hwf : s.msgbuf.wf = true)
    (hcmax : r.cmaxBlocks = s.cmaxBlocks) (hloaded : EncryptLoaded pw s) (hfits : s.ptLen.toNat ≤ s.cmax - 1) :
    ∃ t, exec (encryptCmd pw) s = .next t ∧ t.errCode = 0 ∧
      ((∀ a, a < t.msgLen.toNat → m.read a = t.msgbuf.read a) →
        ∃ u v, exec (parseCmd pw) { r with msgbuf := m, msgLen := t.msgLen } = .next u ∧ u.errCode = 0 ∧
          exec .dec { u with kEnc := s.kEnc, kMac := s.kMac, mkEnc := 0xFF, mkMac := 0xFF } = .next v ∧
          v.errCode = 0 ∧ v.ptLen = s.ptLen ∧
          ∀ a, a < s.ptLen.toNat → v.ptbuf.read a = s.ptbuf.read a) := by
  refine ⟨_, exec_of_encryptCheck_none ((encryptCheck_eq_none_iff pw s).2 ⟨hloaded, hfits⟩), rfl, fun hm => ?_⟩
  have hlen := encrypted_msgLen pw hfits
  rw [hlen] at hm
  have hmessage : m.Holds 0 (s.message pw) :=
    (Memory.readBytes_congr _ _ _ _ fun a _ ha => hm a (by omega)).trans (encrypted_holds_message pw hwf)
  exact ⟨_, _, exec_of_parseCheck_none (parseCheck_of_message (congrArg cmaxOf hcmax) hfits hlen), rfl,
    (received_of_holds (r := { r with msgbuf := m, msgLen := (encrypted pw s).msgLen }) hlen hmessage).exec_dec, rfl,
    released_plaintext_ptLen s _, fun _ => released_plaintext_read s _⟩

/-- Settles O49: the round trip of each mode. -/
theorem encryptDecryptRoundTrip : Obligations.EncryptDecryptRoundTrip := by
  refine fun s r m hwf hcmax hEnc hMac hIv hfits => ⟨fun hEsalt hHsalt => ?_, ?_⟩
  · exact encrypt_parse_decrypt (pw := true) hwf hcmax
      ((encryptLoaded_true s).2 ⟨hEnc, hMac, hIv, hEsalt, hHsalt⟩) hfits
  · exact encrypt_parse_decrypt (pw := false) hwf hcmax ((encryptLoaded_false s).2 ⟨hEnc, hMac, hIv⟩) hfits

end Sys2Proof.Machine
end

section
/-! # Maintenance: what TAGCMP compares, what ZEROIZE scrubs, and what an illegal word reports (43_maintenance.md)

TAGCMP and an illegal word write nothing of their own, so their next state is `completed` with a code. ZEROIZE writes
all there is to write, so its next state is the reset state but for the flags the host owns. -/

namespace Sys2Proof.Machine

/-! ## The commands that write nothing -/

theorem commit_tagcmp (code : ResultCode) (s : State) : commit .tagcmp code s = completed code.bits s := rfl

theorem commit_illegal (op : BitVec 4) (rsv : BitVec 28) (code : ResultCode) (s : State) :
    commit (.illegal op rsv) code s = completed code.bits s := rfl

/-- DONE, ERR as the code says, and WBUSY as it was (R48, R51, R602). -/
theorem completed_statusWord (code : BitVec 4) (s : State) : (completed code s).statusWord =
    0#25 ++ 0#1 ++ BitVec.ofBool s.wbusy ++ 0#1 ++ 0#1 ++ BitVec.ofBool (code != 0) ++ 1#1 ++ 0#1 := rfl

/-! ## TAGCMP -/

/-- Two stretches of a buffer are equal when they are byte for byte. -/
theorem Memory.readBytes_eq_readBytes_iff (m : Memory) (a b n : Nat) :
    m.readBytes a n = m.readBytes b n ↔ ∀ i : Fin n, m.read (a + i) = m.read (b + i) := by
  induction n generalizing a b with
  | zero => simp [Memory.readBytes]
  | succ n ih =>
    rw [Memory.readBytes, Memory.readBytes, List.cons_eq_cons, ih, Fin.forall_fin_succ]
    simp only [Fin.val_zero, Fin.val_succ, Nat.add_zero, Nat.add_assoc, Nat.add_comm 1]

/-- The comparator on the two halves of R500 is equality at each of the 32 positions (R224). -/
theorem cteq32_halves_iff (s : State) : cteq32 (s.msgbuf.slice 0 32) (s.msgbuf.slice 32 64) = true ↔
    ∀ i : Fin 32, s.msgbuf.read i = s.msgbuf.read (32 + i) := by
  have hbytes := Memory.readBytes_eq_readBytes_iff s.msgbuf 0 32 32
  simp only [Nat.zero_add] at hbytes
  exact (cteq32_iff (by simp)).trans hbytes

/-- Settles O17: the verdict of the comparator is the condition on the halves, and the commit does the rest. -/
theorem tagcmpComparesHalves : Obligations.TagcmpComparesHalves := by
  intro s
  rw [exec_eq_commit_body, commit_tagcmp, body, tagCompare]
  simp only [cteq32_halves_iff]
  split_ifs with hhalves
  · rfl
  · rfl

/-! ## ZEROIZE -/

/-- The state ZEROIZE leaves: the reset state with DONE set and the flags the host owns kept (R501). -/
def zeroized (s : State) : State :=
  { State.resetWith s.cmaxBlocks with
    done := true, wbusy := s.wbusy, irqEn := s.irqEn, inbox := s.inbox, busOut := s.busOut }

/-- The writes of ZEROIZE and its commit together miss no field (R501, R602). -/
theorem exec_zeroize (s : State) : exec .zeroize s = .next (zeroized s) := rfl

/-- DONE, and WBUSY as it was (R48, R501). -/
theorem zeroized_statusWord (s : State) : (zeroized s).statusWord = if s.wbusy then 0x22 else 0x02 := by
  have hword : (zeroized s).statusWord =
      0#25 ++ 0#1 ++ BitVec.ofBool s.wbusy ++ 0#1 ++ 0#1 ++ 0#1 ++ 1#1 ++ 0#1 := rfl
  rw [hword]
  cases s.wbusy <;> rfl

/-- No group is loaded: the masks are those a reset leaves (R501). -/
theorem zeroized_loadedWord (s : State) : (zeroized s).loadedWord = 0 := applyReset_loadedWord s

/-- Settles O18: the next state is `zeroized`. -/
theorem zeroizeScrubs : Obligations.ZeroizeScrubs :=
  ⟨rfl, fun s => ⟨zeroized s, exec_zeroize s, rfl, zeroized_statusWord s, zeroized_loadedWord s, rfl⟩⟩

/-! ## Illegal command words -/

/-- The fields of an illegal word, as R143 lists them. -/
theorem not_legalFields_iff (op : BitVec 4) (rsv : BitVec 28) :
    ¬ legalFields op rsv = true ↔ rsv ≠ 0 ∨ op = 0 ∨ 8 ≤ op.toNat := by
  rw [legalFields_iff]
  bv_omega

theorem exec_illegal (op : BitVec 4) (rsv : BitVec 28) (s : State) :
    exec (.illegal op rsv) s = .next (completed 1 s) := by
  rw [exec_eq_commit_body, commit_illegal]
  rfl

/-- Settles O19: the decoder's last row, and the commit with BAD_COMMAND. -/
theorem illegalWordReports : Obligations.IllegalWordReports := by
  refine ⟨fun w h => decode_of_not_legalFields ((not_legalFields_iff _ _).2 h), fun op rsv s =>
    ⟨completed 1 s, exec_illegal op rsv s, rfl, ?_, rfl⟩⟩
  rw [completed_statusWord]
  cases s.wbusy <;> rfl

end Sys2Proof.Machine
end

section
/-! # Exceptions: accepting a command, what every commit does, and the codes it reports (60_exceptions.md)

What a commit does is said of `exec i s = .next t`, one rule for each group of fields, from the common completion and
from what the command's body leaves alone. The single use of keys and latch is read off from these rules, and the
bounded commit is an induction over the coming events. -/

namespace Sys2Proof.Machine

/-! ## Accept -/

/-- Settles O27: the rule of a write to CMD in each phase, and the read of a register that reads 0. -/
theorem acceptRule : Obligations.AcceptRule := by
  refine fun s w => ⟨fun hs => ?_, fun hs => ?_, transact_read_reg (r := .cmd) s rfl (by decide) (by decide)⟩
  · exact transact_write_idle (r := .cmd) (accept w) rfl hs rfl (by decide) (by decide)
  · exact transact_write_input_busy w hs (by decide) (.inl rfl)

/-- What the decoder on bits reads is the decoded word, missing high bits 0 (R140). -/
theorem decode_of_decodeTableWord {nbits w : Nat} {i : Instr} (h : decodeTableWord nbits w = some i) :
    decode (BitVec.ofNat 32 (w % 2 ^ nbits)) = i := by
  unfold decodeTableWord decodeBits at h
  split_ifs at h
  exact Option.some.inj h

/-- Settles O5: the presented word is the command in flight at the engine's turn. -/
theorem presentedWordRunsNext : Obligations.PresentedWordRunsNext := by
  intro s nbits w i h
  rw [← decode_of_decodeTableWord h]
  exact step_of_commandInFlight rfl rfl rfl

/-! ## The commands of each group, and the code OK -/

theorem singleUseKeys_iff (i : Instr) :
    singleUseKeys i = true ↔ i = .encp ∨ i = .enck ∨ i = .dec ∨ i = .zeroize := by
  cases i <;> simp [singleUseKeys]

theorem singleUseIv_iff (i : Instr) : singleUseIv i = true ↔ i = .encp ∨ i = .enck := by
  cases i <;> simp [singleUseIv]

theorem isParse_iff (i : Instr) : isParse i = true ↔ i = .parsep ∨ i = .parsek := by
  cases i <;> simp [isParse]

theorem isPasswordParse_iff (i : Instr) : isPasswordParse i = true ↔ i = .parsep := by
  cases i <;> simp [isPasswordParse]

theorem makesOutput_iff (i : Instr) : makesOutput i = true ↔ i = .encp ∨ i = .enck ∨ i = .dec := by
  cases i <;> simp [makesOutput]

/-- ERR_CODE 0 is OK and nothing else (R603). -/
theorem ResultCode.bits_eq_zero_iff (code : ResultCode) : code.bits = 0 ↔ code = .ok := by
  cases code <;> decide

/-! ## What the body of a command leaves to the commit -/

@[simp] theorem body_wbusy (i : Instr) (s : State) : (body i s).2.wbusy = s.wbusy := by
  rw [(body_frame i s).frame]

@[simp] theorem body_busOut (i : Instr) (s : State) : (body i s).2.busOut = s.busOut := by
  rw [(body_frame i s).frame]

/-- No body touches keys that its commit does not consume. -/
theorem body_keys {i : Instr} (hi : singleUseKeys i = false) (s : State) :
    (body i s).2.kEnc = s.kEnc ∧ (body i s).2.kMac = s.kMac ∧ (body i s).2.mkEnc = s.mkEnc ∧
      (body i s).2.mkMac = s.mkMac := by
  have hparse (pw : Bool) : (parse pw s).2.kEnc = s.kEnc ∧ (parse pw s).2.kMac = s.kMac ∧
      (parse pw s).2.mkEnc = s.mkEnc ∧ (parse pw s).2.mkMac = s.mkMac := by
    rcases parse_cases pw s with e | e | ⟨-, e⟩ <;> rw [e] <;> exact ⟨rfl, rfl, rfl, rfl⟩
  cases i with
  | parsep => exact hparse true
  | parsek => exact hparse false
  | tagcmp | illegal => exact ⟨rfl, rfl, rfl, rfl⟩
  | _ => nomatch hi

/-- An encryption reads the IV and the salts and writes none of them. -/
theorem body_iv {i : Instr} (hi : singleUseIv i = true) (s : State) :
    (body i s).2.iv = s.iv ∧ (body i s).2.esalt = s.esalt ∧ (body i s).2.hsalt = s.hsalt := by
  have hencrypt (pw : Bool) : (encrypt pw s).2.iv = s.iv ∧ (encrypt pw s).2.esalt = s.esalt ∧
      (encrypt pw s).2.hsalt = s.hsalt := by
    rcases encrypt_cases pw s with e | e | ⟨-, e⟩ <;> rw [e] <;> exact ⟨rfl, rfl, rfl⟩
  cases i with
  | encp => exact hencrypt true
  | enck => exact hencrypt false
  | _ => nomatch hi

/-! ## The state after a command -/

/-- The next state of a command is its commit, and there is no other. -/
theorem eq_commit_of_exec {i : Instr} {s t : State} (h : exec i s = .next t) :
    t = commit i (body i s).1 (body i s).2 :=
  (Host.Outcome.next.inj ((exec_eq_commit_body i s).symm.trans h)).symm

section
variable {i : Instr} {s t : State} (h : exec i s = .next t)
include h

/-- ERR_CODE is the code of the body (R602, R603). -/
theorem exec_errCode : t.errCode = (body i s).1.bits := by
  rw [eq_commit_of_exec h, commit_errCode]

/-- Every commit ends IDLE with DONE set and no command latched (R602). -/
theorem exec_phase : t.busy = false ∧ t.done = true ∧ t.latched = none := by
  rw [eq_commit_of_exec h]
  exact ⟨rfl, rfl, rfl⟩

/-- No commit touches WBUSY, IRQ_EN or the last response. -/
theorem exec_flags : t.wbusy = s.wbusy ∧ t.irqEn = s.irqEn ∧ t.busOut = s.busOut := by
  rw [eq_commit_of_exec h]
  simp

/-- The keys are consumed whatever the code (R602). -/
theorem exec_keys_consumed (hi : singleUseKeys i = true) :
    t.kEnc = Vector.replicate 8 0 ∧ t.kMac = Vector.replicate 8 0 ∧ t.mkEnc = 0 ∧ t.mkMac = 0 := by
  rw [eq_commit_of_exec h]
  simp [hi]

theorem exec_keys_kept (hi : singleUseKeys i = false) :
    t.kEnc = s.kEnc ∧ t.kMac = s.kMac ∧ t.mkEnc = s.mkEnc ∧ t.mkMac = s.mkMac := by
  rw [eq_commit_of_exec h]
  simpa [hi] using body_keys hi s

/-- The IV and the salts stay in their registers, no longer loaded (R602). -/
theorem exec_iv_consumed (hi : singleUseIv i = true) : t.mkIv = 0 ∧ t.mkEsalt = 0 ∧ t.mkHsalt = 0 ∧
    t.iv = s.iv ∧ t.esalt = s.esalt ∧ t.hsalt = s.hsalt := by
  rw [eq_commit_of_exec h]
  simpa [hi] using body_iv hi s

/-- The latch is set by a good parse and cleared by every other commit (R602). -/
theorem exec_parsed_iff : t.parsed = true ↔ (i = .parsep ∨ i = .parsek) ∧ t.errCode = 0 := by
  rw [exec_errCode h, ResultCode.bits_eq_zero_iff, ← isParse_iff, eq_commit_of_exec h]
  simp

theorem exec_pmode_iff : t.pmode = true ↔ i = .parsep ∧ t.errCode = 0 := by
  rw [exec_errCode h, ResultCode.bits_eq_zero_iff, ← isPasswordParse_iff, eq_commit_of_exec h]
  simp

theorem exec_outValid_iff : t.outValid = true ↔ (i = .encp ∨ i = .enck ∨ i = .dec) ∧ t.errCode = 0 := by
  rw [exec_errCode h, ResultCode.bits_eq_zero_iff, ← makesOutput_iff, eq_commit_of_exec h]
  simp

end

/-- Settles O20, by the rule of each group of fields. -/
theorem commonCompletion : Obligations.CommonCompletion := by
  intro i s
  obtain ⟨t, ht⟩ : ∃ t, exec i s = .next t := ⟨_, exec_eq_commit_body i s⟩
  obtain ⟨hbusy, hdone, hlatched⟩ := exec_phase ht
  obtain ⟨hwbusy, hirqEn, hbusOut⟩ := exec_flags ht
  obtain ⟨hinbox, hcmax⟩ := exec_host ht
  refine ⟨t, ht, hbusy, hdone, hlatched, hwbusy, hirqEn, fun hi => ?_, fun hi => ?_, fun hi => ?_,
    exec_parsed_iff ht, exec_pmode_iff ht, exec_outValid_iff ht, hcmax, hinbox, hbusOut⟩
  · exact exec_keys_consumed ht ((singleUseKeys_iff i).2 hi)
  · exact exec_keys_kept ht (Bool.eq_false_iff.2 (mt (singleUseKeys_iff i).1 hi))
  · exact exec_iv_consumed ht ((singleUseIv_iff i).2 hi)

/-! ## The codes of each command -/

/-- The codes the table of R603 lets a command report. -/
def reportable : Instr → List ResultCode
  | .encp | .enck => [.ok, .notLoaded, .length]
  | .parsep | .parsek => [.ok, .length, .insufficientInput]
  | .dec => [.ok, .sequence, .notLoaded, .cipherFailed, .tagMismatch]
  | .tagcmp => [.ok, .tagMismatch]
  | .zeroize => [.ok]
  | .illegal _ _ => [.badCommand]

theorem body_code_mem (i : Instr) (s : State) : (body i s).1 ∈ reportable i := by
  have hencrypt (pw : Bool) : (encrypt pw s).1 ∈ reportable .encp := by
    rcases encrypt_cases pw s with e | e | ⟨-, e⟩ <;> simp [e, reportable]
  have hparse (pw : Bool) : (parse pw s).1 ∈ reportable .parsep := by
    rcases parse_cases pw s with e | e | ⟨-, e⟩ <;> simp [e, reportable]
  cases i with
  | encp => exact hencrypt true
  | enck => exact hencrypt false
  | parsep => exact hparse true
  | parsek => exact hparse false
  | dec =>
    rcases decrypt_cases s with ⟨code, hcode, e⟩ | ⟨-, -, -, e⟩
    · simpa [body, e, decryptFail, reportable] using .inr hcode
    · simp [body, e, release, reportable]
  | tagcmp =>
    simp only [body, tagCompare]
    split <;> simp [reportable]
  | zeroize | illegal => exact List.mem_singleton_self _

/-- Settles O21: the code is one of the table's, and ERR_CODE its value. -/
theorem codesOfEachCommand : Obligations.CodesOfEachCommand := by
  intro i s t h
  have hmem : t.errCode ∈ (reportable i).map ResultCode.bits :=
    exec_errCode h ▸ List.mem_map_of_mem (body_code_mem i s)
  cases i <;> simpa [reportable, ResultCode.bits] using hmem

/-! ## Single use -/

/-- An encryption whose keys are not loaded ends with NOT_LOADED (R300). -/
theorem exec_encrypt_of_no_key (pw : Bool) {s : State} (h : s.mkEnc = 0) :
    ∃ u, exec (encryptCmd pw) s = .next u ∧ u.errCode = 3 := by
  have hkey : ¬ EncryptLoaded pw s := fun ⟨hEnc, _⟩ => absurd (h.symm.trans hEnc) (by decide)
  exact ⟨_, exec_of_encryptCheck_some (encryptCheck_of_not_loaded hkey), rfl⟩

/-- Settles O56: the commit leaves the masks empty, and the latch clear unless it set it. -/
theorem keysAndParseAreSingleUse : Obligations.KeysAndParseAreSingleUse := by
  intro i s t h
  refine ⟨fun hi => ?_, fun hi => ?_⟩
  · obtain ⟨-, -, hEnc, -⟩ := exec_keys_consumed h ((singleUseKeys_iff i).2 hi)
    exact ⟨exec_encrypt_of_no_key true hEnc, exec_encrypt_of_no_key false hEnc⟩
  · have hparsed : t.parsed = false := Bool.eq_false_iff.2 (mt (exec_parsed_iff h).1 hi)
    exact ⟨_, exec_dec_of_check (decryptCheck_of_not_parsed hparsed), rfl⟩

/-! ## Every accepted command commits -/

/-- A run goes on from where its first step leads. -/
theorem run_succ_of_step {s t : State} (h : step s = .next t) (k : Nat) :
    core.run (k + 1) s = core.run k t := by
  have hstep : core.step s = .next t := h
  simp only [Host.Core.run, hstep]

/-- The engine's turn while BUSY ends the command (R602, R120). -/
theorem run_one_of_engineTurn {s : State} (hinv : Inv s) (hb : s.busy = true) (h : nextEvent s = .engineTurn) :
    ∃ t, core.run 1 s = .next t ∧ t.busy = false ∧ t.done = true := by
  obtain ⟨w, hw⟩ := Option.isSome_iff_exists.1 (hinv.busyLatched.symm.trans hb)
  obtain ⟨t, ht⟩ : ∃ t, exec (decode w) (takeEvent s) = .next t := ⟨_, exec_eq_commit_body _ _⟩
  obtain ⟨hbusy, hdone, -⟩ := exec_phase ht
  exact ⟨t, run_succ_of_step ((step_of_commandInFlight h hb hw).trans ht) 0, hbusy, hdone⟩

/-- No transaction ends or withdraws the command in flight (R119). -/
theorem transact_busy {s s' : State} {t : Transaction} (hb : s.busy = true) (h : transact t s = .next s') :
    s'.busy = true := by
  rw [busyTransactionsKeepInputs s s' t hb h]
  exact hb

/-- Settles O26, by induction on the coming events: each transaction leaves one event fewer and the command in
flight, and the engine's turn commits it. -/
theorem acceptedCommandCommits : Obligations.AcceptedCommandCommits := by
  intro s hinv hb hhost hreset
  generalize hinbox : s.inbox = events at hreset ⊢
  induction events generalizing s with
  | nil =>
    obtain ⟨t, ht⟩ := run_one_of_engineTurn hinv hb (nextEvent_engineTurn (.inl hinbox))
    exact ⟨1, t, le_rfl, ht⟩
  | cons e rest ih =>
    cases e with
    | bus tr =>
      obtain ⟨t, ht, hhost'⟩ := wellBehavedHostNeverFaults s hinv hhost
      have hb' : t.busy = true := transact_busy (s := takeEvent s) hb (step_of_bus hinbox ▸ ht)
      have hinbox' : t.inbox = rest := by rw [(step_host ht).1, hinbox, List.tail_cons]
      obtain ⟨k, u, hk, hrun, hu⟩ := ih t (stepKeepsInvariant s t hinv ht) hb' hhost' hinbox' hreset
      exact ⟨k + 1, u, Nat.succ_le_succ hk, (run_succ_of_step ht k).trans hrun, hu⟩
    | engineTurn =>
      obtain ⟨t, ht⟩ := run_one_of_engineTurn hinv hb (nextEvent_engineTurn (.inr ⟨rest, hinbox⟩))
      exact ⟨1, t, Nat.le_add_left 1 _, ht⟩
    | reset => nomatch hreset

end Sys2Proof.Machine
end

section
/-! # Reset and hazards: the order of input writes, and what a latency depends on (70_reset_and_hazards.md)

Two writes change places when their effects at the two targets do, since no write looks at the response before it or
moves the address map. A latency is read off its key, so each command has one rule that gives its key. -/

namespace Sys2Proof.Machine

/-! ## Writes in either order -/

/-- Two input writes whose idle effects change places do so in any phase, since while BUSY both are dropped (R117). -/
theorem whenIdle_comm {f g : State → State} {s : State} (hf : (f s).busy = s.busy) (hg : (g s).busy = s.busy)
    (hfg : g (f s) = f (g s)) : whenIdle g (whenIdle f s) = whenIdle f (whenIdle g s) := by
  cases hs : s.busy
  · rw [whenIdle_idle f s hs, whenIdle_idle g s hs, whenIdle_idle g (f s) (hf.trans hs),
      whenIdle_idle f (g s) (hg.trans hs), hfg]
  · rw [whenIdle_busy f s hs, whenIdle_busy g s hs, whenIdle_busy g (dropWrite s) hs,
      whenIdle_busy f (dropWrite s) hs]

/-- Only the latest response is recorded. -/
@[simp] theorem respond_respond (r r' : BusResponse) (s : State) : respond r (respond r' s) = respond r s := rfl

/-- A write served after another one: both effects, and the acknowledgement of the later one. -/
theorem transact_write_after_write {s : State} {off : Nat} {g₁ g₂ : Target} (v₁ v₂ : Word)
    (h : targetAt s.cmaxBlocks off = some g₂) :
    transact (.write 4 off v₂) (respond .ack (writeTarget g₁ v₁ s)) =
      .next (respond .ack (writeTarget g₂ v₂ (writeTarget g₁ v₁ s))) := by
  have hg : targetAt (respond .ack (writeTarget g₁ v₁ s)).cmaxBlocks off = some g₂ := by
    rwa [respond_cmaxBlocks, (writeTarget_host g₁ v₁ s).2]
  rw [transact_write hg (writeTarget_respond g₂ v₂ .ack (writeTarget g₁ v₁ s)), respond_respond]

/-- Two writes whose effects change places end in one state in either order. -/
theorem transact_writes_comm {s : State} {off₁ off₂ : Nat} {g₁ g₂ : Target} {v₁ v₂ : Word}
    (h₁ : targetAt s.cmaxBlocks off₁ = some g₁) (h₂ : targetAt s.cmaxBlocks off₂ = some g₂)
    (hcomm : writeTarget g₂ v₂ (writeTarget g₁ v₁ s) = writeTarget g₁ v₁ (writeTarget g₂ v₂ s)) :
    ∃ a b c, transact (.write 4 off₁ v₁) s = .next a ∧ transact (.write 4 off₂ v₂) a = .next c ∧
      transact (.write 4 off₂ v₂) s = .next b ∧ transact (.write 4 off₁ v₁) b = .next c :=
  ⟨_, _, _, transact_write h₁ rfl, transact_write_after_write v₁ v₂ h₂, transact_write h₂ rfl,
    hcomm ▸ transact_write_after_write v₂ v₁ h₁⟩

/-- MSG_LEN and a MSGBUF word are different fields, and both writes clear the latch (R711). -/
theorem writeTarget_msgLen_msgWord_comm (j : Nat) (v w : Word) (s : State) :
    writeTarget (.msgWord j) w (writeTarget (.reg .msgLen) v s) =
      writeTarget (.reg .msgLen) v (writeTarget (.msgWord j) w s) :=
  whenIdle_comm (writeMsgLen_busy v s) (writeMsgWord_busy j w s) rfl

/-- PT_LEN and a PTBUF word are different fields, and neither write touches the latch (R711). -/
theorem writeTarget_ptLen_ptWord_comm (j : Nat) (v w : Word) (s : State) :
    writeTarget (.ptWord j) w (writeTarget (.reg .ptLen) v s) =
      writeTarget (.reg .ptLen) v (writeTarget (.ptWord j) w s) :=
  whenIdle_comm (writePtLen_busy v s) (writePtWord_busy j w s) rfl

/-- Settles O59: each pair reaches its register and its word, and their effects change places. -/
theorem bufferAndLengthOrderIsFree : Obligations.BufferAndLengthOrderIsFree := by
  intro s j v w _
  have hmsgWords : 4 * msgWords s.cmaxBlocks = s.cmax + 68 := msgWords_bytes s.cmaxBlocks
  have hptWords : 4 * ptWords s.cmaxBlocks = s.cmax := ptWords_bytes s.cmaxBlocks
  refine ⟨fun hj => ?_, fun hj => ?_⟩
  · exact transact_writes_comm (targetAt_reg _ 0x020 (by decide) rfl) (targetAt_msgWord _ j (by omega))
      (writeTarget_msgLen_msgWord_comm j v w s)
  · exact transact_writes_comm (targetAt_reg _ 0x01C (by decide) rfl) (targetAt_ptWord _ j (by omega))
      (writeTarget_ptLen_ptWord_comm j v w s)

/-! ## The key of each command -/

/-- An encryption past its checks is timed by its command, its mode and PT_LEN (R716). -/
theorem latencyKey_encryptCmd {pw : Bool} {s : State} (h : encryptCheck pw s = none) :
    latencyKey (encryptCmd pw) s = .full (encryptCmd pw) pw s.ptLen.toNat := by
  cases pw <;> simp [latencyKey, encryptCmd, h]

/-- A parse is timed by its command, its mode and MSG_LEN, failed or not (R716; log 3). -/
theorem latencyKey_parseCmd (pw : Bool) (s : State) :
    latencyKey (parseCmd pw) s = .full (parseCmd pw) pw s.msgLen.toNat := by
  cases pw <;> rfl

/-- DEC past its checks is timed by PMODE and MSG_LEN (R714). -/
theorem latencyKey_dec {s : State} (h : decryptCheck s = none) :
    latencyKey .dec s = .full .dec s.pmode s.msgLen.toNat := by
  simp [latencyKey, h]

/-- TAGCMP is timed by nothing of the state (R715). -/
theorem latencyKey_tagcmp (s : State) : latencyKey .tagcmp s = .full .tagcmp false 0 := rfl

/-! ## Equal latencies -/

section
variable {s₁ s₂ : State} (hcmax : s₁.cmaxBlocks = s₂.cmaxBlocks)
include hcmax

/-- Besides CMAX, nothing but the key enters a latency (R713). -/
theorem latency_congr {c : Instr} (hkey : latencyKey c s₁ = latencyKey c s₂) : latency c s₁ = latency c s₂ := by
  rw [latency, latency, hcmax, hkey]

theorem latency_encryptCmd_congr {pw : Bool} (h₁ : encryptCheck pw s₁ = none) (h₂ : encryptCheck pw s₂ = none)
    (hlen : s₁.ptLen = s₂.ptLen) : latency (encryptCmd pw) s₁ = latency (encryptCmd pw) s₂ :=
  latency_congr hcmax (by rw [latencyKey_encryptCmd h₁, latencyKey_encryptCmd h₂, hlen])

theorem latency_parseCmd_congr (pw : Bool) (hlen : s₁.msgLen = s₂.msgLen) :
    latency (parseCmd pw) s₁ = latency (parseCmd pw) s₂ :=
  latency_congr hcmax (by rw [latencyKey_parseCmd, latencyKey_parseCmd, hlen])

theorem latency_dec_congr (h₁ : decryptCheck s₁ = none) (h₂ : decryptCheck s₂ = none)
    (hmode : s₁.pmode = s₂.pmode) (hlen : s₁.msgLen = s₂.msgLen) : latency .dec s₁ = latency .dec s₂ :=
  latency_congr hcmax (by rw [latencyKey_dec h₁, latencyKey_dec h₂, hmode, hlen])

theorem latency_tagcmp_congr : latency .tagcmp s₁ = latency .tagcmp s₂ :=
  latency_congr hcmax (by rw [latencyKey_tagcmp, latencyKey_tagcmp])

end

/-- Settles O57, command by command. -/
theorem latencyHidesData : Obligations.LatencyHidesData := fun _ _ hcmax =>
  ⟨latency_dec_congr hcmax,
    latency_encryptCmd_congr (pw := true) hcmax,
    latency_encryptCmd_congr (pw := false) hcmax,
    fun hlen => ⟨latency_parseCmd_congr hcmax true hlen, latency_parseCmd_congr hcmax false hlen⟩,
    latency_tagcmp_congr hcmax⟩

/-! ## The bounds of a latency -/

/-- LATMAX is positive (R718). -/
theorem Config.one_le_latMax (b : CmaxBlocks) : 1 ≤ Config.latMax b := Nat.le_add_left 1 _

/-- Every key has a latency of at least one cycle, since LATMAX is one as well (R713). -/
theorem Config.one_le_lat (b : CmaxBlocks) (k : LatencyKey) : 1 ≤ Config.lat b k :=
  Nat.le_min.2 ⟨Nat.le_add_left 1 _, Config.one_le_latMax b⟩

/-- No key has a latency above LATMAX (R718). -/
theorem Config.lat_le_latMax (b : CmaxBlocks) (k : LatencyKey) : Config.lat b k ≤ Config.latMax b :=
  Nat.min_le_right _ _

/-- Settles O58: the bounds of R713 and R718 hold of every key. -/
theorem latencyIsBounded : Obligations.LatencyIsBounded := fun i s =>
  ⟨Config.one_le_lat s.cmaxBlocks (latencyKey i s), Config.lat_le_latMax s.cmaxBlocks (latencyKey i s)⟩

end Sys2Proof.Machine
end
